-- ==== Sys2Proof/Word.lean ====
section
/-! DEFINITION. The word types of the block (00_scope.md R8) and display text. -/

namespace Sys2Proof

/-- A general register, an ALU operand or result, an address, the pc: `XLEN` = 64 bits (R8, R26). -/
abbrev Word := BitVec 64

/-- An instruction word: `ILEN` = 32 bits (R8, R82). -/
abbrev InstrWord := BitVec 32

/-- The smallest addressable unit of data memory (20_memory.md R50). -/
abbrev Byte := BitVec 8

/-- A register field: five bits holding the register number directly (30_encoding.md R82). -/
abbrev Reg := BitVec 5

/-- Text of the assembler, the disassembler and display fields, as a list of characters. -/
abbrev Text := List Char

end Sys2Proof
end

