-- ==== Sys2Proof/Config.lean ====
section
/-! DEFINITION. What an implementation fixes: the shape of a definition table (30_encoding.md R94, 41 R160)
and the open parameters MEM_CAPACITY and HISTORY_MAX (00_scope.md R8), with the free display text. -/

namespace Sys2Proof

/-- "the fixed bit-layout family an instruction belongs to (R/I/D/B/IM)" (00_scope.md R14 glossary). -/
inductive Format where
  | r | i | d | b | im
deriving DecidableEq, Repr

/-- The opcode field width `W(f)` of a format (30_encoding.md R88). -/
def Format.opcodeWidth : Format → Nat
  | .r => 11
  | .i => 10
  | .d => 11
  | .b => 6
  | .im => 9

/-- The control-signal tuple, its twelve members in the order of 41_control_and_sequencer.md R160.
`aluSrc`, `memToReg`, `reg2Loc` and `aluOp` are carried and read by no rule (R161). -/
structure Signals where
  registerWrite : Bool
  aluSrc : Bool
  memRead : Bool
  memWrite : Bool
  memToReg : Bool
  zeroBranch : Bool
  flagBranch : Bool
  uncondBranch : Bool
  reg2Loc : Bool
  flagWrite : Bool
  aluOp : BitVec 2
  operation : Text
deriving DecidableEq, Repr

/-- One definition row: the fifteen fields of 30_encoding.md R94. The opcode pattern is a string of bits,
most significant first (R88). -/
structure Row where
  mnemonic : Text
  format : Format
  opcode : List Bool
  sig : Signals
deriving DecidableEq, Repr

/-- An instruction definition table `IDT` (00_scope.md R2, R11): its rows in table order. -/
abbrev Table := List Row

/-- OPEN (00_scope.md R8, D14): which of the legal capacities the machine has, counted from the smallest.
No body, so no proof can rest on a number. -/
opaque Config.capacityChoice : Fin (2 ^ 60 - 2 + 1)

/-- MEM_CAPACITY of the machine after power-on: a multiple of 8, at least 8, below 2^63 (R8), otherwise
unknown. -/
def Config.memCapacity : Nat := 8 * Config.capacityChoice.val + 8

/-- OPEN (00_scope.md R8, D32): how far HISTORY_MAX exceeds its least value. -/
opaque Config.historyExtra : Nat

/-- HISTORY_MAX of the machine after power-on: at least 1 (R8), otherwise unknown. -/
def Config.historyMax : Nat := Config.historyExtra + 1

/-- The free-text description of the n-th snapshot (10_state.md R41): the spec names it and gives no text. -/
opaque Config.snapshotText : Nat → Text

end Sys2Proof
end

