-- ==== Sys2Proof/Machine/State.lean ====
section
/-! DEFINITION. The state of the block (10_state.md), its faults (60_exceptions.md R301) and the state after
power-on (10_state.md R40, 70_reset_and_hazards.md R351). -/

namespace Sys2Proof.Machine

open Sys2Proof

/-- The four flag bits (R30), "four independent booleans": negative, zero, carry, overflow. -/
structure Flags where
  n : Bool
  z : Bool
  c : Bool
  v : Bool
deriving DecidableEq, Repr

/-- What an `UnknownOpcode` carries (60_exceptions.md R301): the word, or at program load the line. -/
inductive OpcodeSource where
  | word (w : InstrWord)
  | line (t : Text)
deriving DecidableEq, Repr

/-- The error kinds, all ten of 60_exceptions.md R301 and R302, each with the information it carries.
`step` and `microStep` answer with one only when the machine already stands faulted with it (log 1): safe.
The host's moves answer with one when the request fails and the machine stays as it was: safe. -/
inductive Fault where
  /-- The decoder, for a word no row matches; the assembler, for a mnemonic with no row (R304). Safe. -/
  | unknownOpcode (source : OpcodeSource)
  /-- The assembler only, for a malformed operand or a wrong operand count (R305). Safe. -/
  | invalidOperand (line : Text)
  /-- The ALU at Execute, for a tag outside the seventeen (R306); unreachable under the default table. Safe. -/
  | unsupportedOperation (tag : Text)
  /-- The ALU at Execute of SDIV or UDIV, divisor 0 (R307). Safe. -/
  | divisionByZero
  /-- `MemRead` or `MemWrite`, access outside the data memory (R308). Safe. -/
  | memoryOutOfBounds (addr : Word) (size : Nat)
  /-- `MemRead` or `MemWrite`, in bounds and not aligned to its size (R309). Safe. -/
  | memoryMisaligned (addr : Word) (size : Nat)
  /-- The register file, for an index outside 0 to 31; reachable by the host's preset only (R310). Safe. -/
  | invalidRegisterIndex (index : Nat)
  /-- The history, for a step back or forward at its boundary; the host only (R311, R320). Safe. -/
  | noHistory
  /-- The bit-field codec, for a bad bit range; no execution raises it (R311). Safe. -/
  | invalidRange (low high : Nat)
  /-- Fetch, for a pc neither below nor equal to `4 L` (R312). Safe. -/
  | fetchOutOfProgram (pc : Word)
deriving DecidableEq, Repr

/-- The record a fault leaves (60_exceptions.md R303): kind with information, pc, micro-step index. -/
structure FaultRecord where
  kind : Fault
  pc : Word
  idx : Nat
deriving DecidableEq, Repr

/-- What the model answers where the spec gives no step or move at all. No instruction's meaning answers
with one. -/
inductive Refusal where
  /-- An instruction of the table that has no meaning yet, by its mnemonic. Raised by no arm. Safe. -/
  | notModelled (mnemonic : String)
  /-- `microStep`, `step`: `lat.idx` names no micro-step of the current instruction, or an instruction is
  under way with no definition latched; no run reaches such a state (41 R165, log 13). Safe. -/
  | noSuchMicroStep
  /-- The host's program load under a definition table that is not well-formed: "Installing a table that
  fails 30_encoding.md rule R95 is refused" (70_reset_and_hazards.md R355). Safe. -/
  | illFormedTable
  /-- The host's presets after the first micro-step: "later host writes are not modelled" (D33, U23). Safe. -/
  | presetAfterStart
  /-- The host's step back or forward onto a snapshot whose micro-steps cannot be evaluated again; no
  recorded snapshot is such (60 R324, log 13). Safe. -/
  | unreplayableSnapshot
deriving DecidableEq, Repr

/-- The micro-step index and the latches of R33. `row` is `lat.def`; none before the first Decode. -/
structure Latches where
  idx : Nat
  word : InstrWord
  row : Option Row
  a : Word
  b : Word
  data : Word
  target : Word
  taken : Bool
  res : Word
  nzcv : Flags
  mem : Word
deriving DecidableEq, Repr

/-- The register file's stored slots 0 to 30; slot 31 is a structural zero and is not stored (R21, R22). -/
abbrev RegFile := Vector Word 31

/-- Data memory: address and byte pairs, addresses strictly rising, no byte 0 listed; an unlisted address
reads 0, the value every byte has since reset (20_memory.md R63, 10_state.md R40). -/
abbrev Memory := List Host.Cell

/-- A snapshot, "ExecutionState" (R41). Its memory is the same list of non-zero bytes as the live one,
which is all non-zero words (log 4). -/
structure Snapshot where
  pc : Word
  flags : Flags
  last : Text
  finished : Bool
  idx : Nat
  regs : RegFile
  mem : Memory
  description : Text
deriving DecidableEq, Repr

/-- The history (60_exceptions.md R318): the sequence `H` and the cursor `cur`, -1 before the first. -/
structure History where
  states : List Snapshot
  cursor : Int
deriving DecidableEq, Repr

/-- The machine's state: 10_state.md R20 to R36, the history (60 R318), and the parameters a program load or
a choice of implementation sets (R39). `freeTexts` is the model's own: how many free description texts have
been drawn (log 5). -/
structure State where
  regs : RegFile
  pc : Word
  flags : Flags
  mem : Memory
  lat : Latches
  finished : Bool
  fault : Option FaultRecord
  last : Text
  history : History
  program : List InstrWord
  memCapacity : Nat
  historyMax : Nat
  freeTexts : Nat
deriving DecidableEq, Repr

/-- All four flags 0 (R40). -/
def Flags.cleared : Flags := { n := false, z := false, c := false, v := false }

/-- The latches after reset: `lat.idx` is 0 (R40); the others are never read before they are written, and
"A model may give them any fixed value" (R352, log 6). -/
def Latches.blank : Latches :=
  { idx := 0, word := 0, row := none, a := 0, b := 0, data := 0, target := 0, taken := false,
    res := 0, nzcv := Flags.cleared, mem := 0 }

/-- The empty history, cursor before the first state (R321). -/
def History.empty : History := { states := [], cursor := -1 }

/-- The machine after power-on: "the same state as reset, with no program (`L = 0`, `finished = 1`) until
the host loads one" (70_reset_and_hazards.md R351; values R40). -/
def State.reset : State :=
  { regs := Vector.replicate 31 0, pc := 0, flags := Flags.cleared, mem := [], lat := Latches.blank,
    finished := true, fault := none, last := [], history := History.empty, program := [],
    memCapacity := Config.memCapacity, historyMax := Config.historyMax, freeTexts := 0 }

end Sys2Proof.Machine
end

