-- ==== Sys2Proof/Machine/Flags.lean ====
section
/-! DEFINITION. The flag formulas of the ALU (40_alu.md R121, R122, R136, R137). -/

namespace Sys2Proof.Machine

open Sys2Proof

/-- `n = r63` for every defined operation (R136). -/
def flagN (r : Word) : Bool := r.msb

/-- `z = (r = 0)` for every defined operation (R136). -/
def flagZ (r : Word) : Bool := decide (r = 0#64)

/-- `c` of an add: the exact sum reaches 2^64 (R121). -/
def addCarry (a b : Word) : Bool := decide (2 ^ 64 ≤ a.toNat + b.toNat)

/-- `v` of an add: same-sign operands producing a result of the opposite sign (R121). -/
def addOverflow (a b r : Word) : Bool := (a.msb == b.msb) && (r.msb != a.msb)

/-- `c` of a subtract: a borrow-free subtract, `u(a) >= u(b)` (R122). -/
def subCarry (a b : Word) : Bool := decide (b.toNat ≤ a.toNat)

/-- `v` of a subtract: operands of differing sign where the result's sign matches `b`'s (R122). -/
def subOverflow (a b r : Word) : Bool := (a.msb != b.msb) && (r.msb == b.msb)

/-- The four flags of an add with result `r` (R121). -/
def addFlags (a b r : Word) : Flags :=
  { n := flagN r, z := flagZ r, c := addCarry a b, v := addOverflow a b r }

/-- The four flags of a subtract with result `r` (R122). -/
def subFlags (a b r : Word) : Flags :=
  { n := flagN r, z := flagZ r, c := subCarry a b, v := subOverflow a b r }

/-- The four flags outside the add and subtract family: `c` and `v` are false (R137). -/
def logicFlags (r : Word) : Flags := { n := flagN r, z := flagZ r, c := false, v := false }

/-- The condition-code table (41_control_and_sequencer.md R168), on the flags as they are; the code is text,
and any other code, or none, is never taken. -/
def condHolds (code : Text) (f : Flags) : Bool :=
  if code = "EQ".toList then f.z
  else if code = "NE".toList then !f.z
  else if code = "LT".toList then f.n != f.v
  else if code = "GT".toList then !f.z && (f.n == f.v)
  else if code = "LE".toList then f.z || (f.n != f.v)
  else if code = "GE".toList then f.n == f.v
  else false

/-- `code(m)`: the text after the first `.` of a mnemonic, or nothing (R168). -/
def condCode (mnemonic : Text) : Text := (mnemonic.dropWhile (· != '.')).drop 1

end Sys2Proof.Machine
end

