-- ==== Sys2Proof/Machine/Alu.lean ====
section
/-! DEFINITION. The arithmetic logic unit (40_alu.md): a pure function of two operands and a tag. -/

namespace Sys2Proof.Machine

open Sys2Proof

/-- The seventeen operation tags (R120). -/
inductive AluOp where
  | add | adds | sub | subs | cmp | and | orr | eor | mul | smulh | umulh | sdiv | udiv | lsl | lsr | asr | pass
deriving DecidableEq, Repr

/-- The spelling of each tag; tags compare by exact string (R139, D20). -/
def aluTags : List (Text × AluOp) :=
  [("ADD".toList, .add), ("ADDS".toList, .adds), ("SUB".toList, .sub), ("SUBS".toList, .subs),
   ("CMP".toList, .cmp), ("AND".toList, .and), ("ORR".toList, .orr), ("EOR".toList, .eor),
   ("MUL".toList, .mul), ("SMULH".toList, .smulh), ("UMULH".toList, .umulh), ("SDIV".toList, .sdiv),
   ("UDIV".toList, .udiv), ("LSL".toList, .lsl), ("LSR".toList, .lsr), ("ASR".toList, .asr),
   ("PASS".toList, .pass)]

/-- The operation a tag names; none for any tag outside the seventeen (R139). -/
def aluOpOfTag (tag : Text) : Option AluOp := (aluTags.find? fun p => p.1 == tag).map Prod.snd

/-- `ALUResult` (R120): a 64-bit result and four computed flags. -/
structure AluResult where
  value : Word
  flags : Flags
deriving DecidableEq, Repr

/-- The result of an add (R121). -/
def aluAdd (a b : Word) : AluResult := { value := a + b, flags := addFlags a b (a + b) }

/-- The result of a subtract or a compare (R122, R123). -/
def aluSub (a b : Word) : AluResult := { value := a - b, flags := subFlags a b (a - b) }

/-- A result outside the add and subtract family (R137). -/
def aluLogic (r : Word) : AluResult := { value := r, flags := logicFlags r }

/-- Bits 127:64 of the exact signed product (R128). -/
def mulHighSigned (a b : Word) : Word := BitVec.ofInt 64 ((a.toInt * b.toInt) / 2 ^ 64)

/-- Bits 127:64 of the exact unsigned product (R129). -/
def mulHighUnsigned (a b : Word) : Word := BitVec.ofNat 64 ((a.toNat * b.toNat) / 2 ^ 64)

/-- The signed quotient rounded toward zero, modulo 2^64 (R130). -/
def divSigned (a b : Word) : Word := BitVec.ofInt 64 (a.toInt.tdiv b.toInt)

/-- The unsigned quotient (R131). -/
def divUnsigned (a b : Word) : Word := BitVec.ofNat 64 (a.toNat / b.toNat)

/-- The distance of the three shifts: the low six bits of `b` (40_alu.md section 6, D9). -/
def shiftDistance (b : Word) : Nat := b.toNat % 64

/-- `ALU(a, b, op)` (R120 to R137); the only fault of a defined operation is a zero divisor (R130, R131). -/
def alu (a b : Word) : AluOp → Except Fault AluResult
  | .add => .ok (aluAdd a b)
  | .adds => .ok (aluAdd a b)
  | .sub => .ok (aluSub a b)
  | .subs => .ok (aluSub a b)
  | .cmp => .ok (aluSub a b)
  | .and => .ok (aluLogic (a &&& b))
  | .orr => .ok (aluLogic (a ||| b))
  | .eor => .ok (aluLogic (a ^^^ b))
  | .mul => .ok (aluLogic (a * b))
  | .smulh => .ok (aluLogic (mulHighSigned a b))
  | .umulh => .ok (aluLogic (mulHighUnsigned a b))
  | .sdiv => if b = 0#64 then .error .divisionByZero else .ok (aluLogic (divSigned a b))
  | .udiv => if b = 0#64 then .error .divisionByZero else .ok (aluLogic (divUnsigned a b))
  | .lsl => .ok (aluLogic (a <<< shiftDistance b))
  | .lsr => .ok (aluLogic (a >>> shiftDistance b))
  | .asr => .ok (aluLogic (a.sshiftRight (shiftDistance b)))
  | .pass => .ok (aluLogic b)

/-- The ALU given a tag as text (R120, R139). -/
def aluTag (a b : Word) (tag : Text) : Except Fault AluResult :=
  match aluOpOfTag tag with
  | some op => alu a b op
  | none => .error (.unsupportedOperation tag)

end Sys2Proof.Machine
end

