-- ==== Sys2Proof/Syntax.lean ====
section
/-! DEFINITION. The instructions of the default definition table, one constructor per row of
spec/opcode_table.json, in table order (30_encoding.md R97). A constructor holds the operands of its
instruction; ignored bits are no operands: a word with any value in them is the same instruction (R93). -/

namespace Sys2Proof

/-- A decoded instruction (30_encoding.md R113). Fields are the unsigned bits of the word (R89). -/
inductive Instr where
  | add (rd rn rm : Reg)
  | sub (rd rn rm : Reg)
  | adds (rd rn rm : Reg)
  | subs (rd rn rm : Reg)
  | and (rd rn rm : Reg)
  | orr (rd rn rm : Reg)
  | eor (rd rn rm : Reg)
  | ands (rd rn rm : Reg)
  | mul (rd rn rm : Reg)
  | smulh (rd rn rm : Reg)
  | umulh (rd rn rm : Reg)
  | sdiv (rd rn rm : Reg)
  | udiv (rd rn rm : Reg)
  | lsl (rd rn : Reg) (shamt : BitVec 6)
  | lsr (rd rn : Reg) (shamt : BitVec 6)
  | asr (rd rn : Reg) (shamt : BitVec 6)
  | addi (rd rn : Reg) (imm12 : BitVec 12)
  | subi (rd rn : Reg) (imm12 : BitVec 12)
  | addis (rd rn : Reg) (imm12 : BitVec 12)
  | subis (rd rn : Reg) (imm12 : BitVec 12)
  | andi (rd rn : Reg) (imm12 : BitVec 12)
  | orri (rd rn : Reg) (imm12 : BitVec 12)
  | eori (rd rn : Reg) (imm12 : BitVec 12)
  | andis (rd rn : Reg) (imm12 : BitVec 12)
  | ldur (rt rn : Reg) (off9 : BitVec 9)
  | stur (rt rn : Reg) (off9 : BitVec 9)
  | b (off26 : BitVec 26)
  | bEq (off26 : BitVec 26)
  | bNe (off26 : BitVec 26)
  | bGe (off26 : BitVec 26)
  | bLt (off26 : BitVec 26)
  | bGt (off26 : BitVec 26)
  | bLe (off26 : BitVec 26)
  | movz (rd : Reg) (imm16 : BitVec 16) (hw : BitVec 2)
deriving DecidableEq, Repr

end Sys2Proof
end

