-- ==== Sys2Proof/WellFormed.lean ====
section
/-! DEFINITION. Well-formedness: of a definition table (30_encoding.md R95, R96), of the two open parameters
(00_scope.md R8), and of an instruction. -/

namespace Sys2Proof

/-- R95 clause 1: the pattern has length `W(f)`. That the format tag is one of the five is the type's. -/
def Row.patternOk (r : Row) : Bool := r.opcode.length == r.format.opcodeWidth

/-- R95 clause 3 and R96: `zeroBranch = 0`. -/
def Row.zeroBranchOk (r : Row) : Bool := !r.sig.zeroBranch

/-- R95 clause 4: a B row has exactly one branch signal and writes nothing; another row has none. -/
def Row.branchOk (r : Row) : Bool :=
  if r.format = .b then
    (r.sig.flagBranch != r.sig.uncondBranch) && !r.sig.registerWrite && !r.sig.memRead
      && !r.sig.memWrite && !r.sig.memToReg && !r.sig.flagWrite
  else !r.sig.flagBranch && !r.sig.uncondBranch

/-- R95 clause 5: a D row loads or stores, never both, and its operation is ADD without flags. -/
def Row.dataOk (r : Row) : Bool :=
  if r.format = .d then
    (r.sig.memRead != r.sig.memWrite) && (r.sig.registerWrite == r.sig.memRead)
      && (r.sig.memToReg == r.sig.memRead) && !r.sig.flagWrite && (r.sig.operation == "ADD".toList)
  else true

/-- R95 clause 6: rows of formats R, I and IM do not touch memory. -/
def Row.noMemoryOk (r : Row) : Bool :=
  match r.format with
  | .r | .i | .im => !r.sig.memRead && !r.sig.memWrite && !r.sig.memToReg
  | .d | .b => true

/-- R95 clause 7: an IM row has operation PASS. -/
def Row.passOk (r : Row) : Bool :=
  if r.format = .im then r.sig.operation == "PASS".toList else true

/-- The clauses of R95 that speak of one row. -/
def Row.wellFormed (r : Row) : Bool :=
  r.patternOk && r.zeroBranchOk && r.branchOk && r.dataOk && r.noMemoryOk && r.passOk

/-- No element of the list occurs twice. -/
def allDistinct {α : Type} [DecidableEq α] : List α → Bool
  | [] => true
  | a :: l => !l.contains a && allDistinct l

/-- R95 clause 2, first half: no two rows have the same format and opcode pattern. -/
def Table.patternsDistinct (t : Table) : Bool := allDistinct (t.map fun r => (r.format, r.opcode))

/-- R95 clause 2, second half: no two rows have the same mnemonic. -/
def Table.mnemonicsDistinct (t : Table) : Bool := allDistinct (t.map fun r => r.mnemonic)

/-- A table is well-formed when all seven clauses of R95 hold. -/
def Table.wellFormed (t : Table) : Bool :=
  t.all Row.wellFormed && Table.patternsDistinct t && Table.mnemonicsDistinct t

/-- MEM_CAPACITY "must be a multiple of 8, at least 8 and less than 2^63" (R8). -/
def memCapacityOk (n : Nat) : Bool := n % 8 == 0 && decide (8 ≤ n) && decide (n < 2 ^ 63)

/-- HISTORY_MAX is "at least 1" (R8). -/
def historyMaxOk (n : Nat) : Bool := decide (1 ≤ n)

/-- Every value of every field of every constructor is an encodable instruction: the fields have exactly
the widths of 30_encoding.md R83 to R87, so there is nothing left to refuse (log 11). -/
def Instr.wellFormed : Instr → Bool := fun _ => true

end Sys2Proof
end

