-- ==== Sys2Proof/Decode.lean ====
section
/-! DEFINITION. The bit-field codec, the default definition table, the decoder and the encoder
(30_encoding.md sections 1 to 5). -/

namespace Sys2Proof

/-! ### The bit-field codec (R80, R81) -/

/-- The condition of R80 and R81 on a bit range: `low <= high` and neither exceeds 31. -/
def bitRangeOk (low high : Nat) : Bool := decide (low ≤ high) && decide (high ≤ 31)

/-- `extractBits` (R80): the unsigned integer of bits `[low..high]`; none is its `InvalidRange` failure. -/
def extractBits (word : InstrWord) (low high : Nat) : Option InstrWord :=
  if bitRangeOk low high then some ((word.extractLsb' low (high - low + 1)).setWidth 32) else none

/-- `setBits` (R81): the low bits of `value` into bits `[low..high]`, every other bit untouched; none is its
`InvalidRange` failure. -/
def setBits (word value : InstrWord) (low high : Nat) : Option InstrWord :=
  if bitRangeOk low high then
    let mask : InstrWord := ((BitVec.allOnes (high - low + 1)).setWidth 32) <<< low
    some ((word &&& ~~~mask) ||| ((value <<< low) &&& mask))
  else none

/-! ### Fields by format (R83 to R87) -/

/-- Rd, or Rt in the D format: bits 4:0 (R83, R84, R85, R87). -/
def fieldRd (w : InstrWord) : Reg := w.extractLsb' 0 5
/-- Rn: bits 9:5 (R83, R84, R85). -/
def fieldRn (w : InstrWord) : Reg := w.extractLsb' 5 5
/-- Rm: bits 20:16 (R83). -/
def fieldRm (w : InstrWord) : Reg := w.extractLsb' 16 5
/-- shamt: bits 15:10 (R83). -/
def fieldShamt (w : InstrWord) : BitVec 6 := w.extractLsb' 10 6
/-- imm12: bits 21:10 (R84). -/
def fieldImm12 (w : InstrWord) : BitVec 12 := w.extractLsb' 10 12
/-- off9: bits 20:12 (R85). -/
def fieldOff9 (w : InstrWord) : BitVec 9 := w.extractLsb' 12 9
/-- off26: bits 25:0 (R86). -/
def fieldOff26 (w : InstrWord) : BitVec 26 := w.extractLsb' 0 26
/-- imm16: bits 20:5 (R87). -/
def fieldImm16 (w : InstrWord) : BitVec 16 := w.extractLsb' 5 16
/-- hw, the shift group: bits 22:21 (R87). -/
def fieldHw (w : InstrWord) : BitVec 2 := w.extractLsb' 21 2

/-- The top `n` bits of a word, most significant first: with `n = W(f)` the opcode field of format `f` (R88). -/
def topBits (n : Nat) (w : InstrWord) : List Bool := (List.range n).map fun k => w.getMsbD k

/-! ### The default definition table (R97) -/

/-- An opcode pattern written as the table writes it, a string of 0 and 1. -/
def pattern (s : String) : List Bool := s.toList.map (· == '1')

/-- A row of format R, I or IM of R97: it writes a register, touches no memory and is no branch. -/
def aluRow (f : Format) (mnemonic opcode : String) (aluSrc flagWrite : Bool) (operation : String) : Row :=
  { mnemonic := mnemonic.toList, format := f, opcode := pattern opcode,
    sig := { registerWrite := true, aluSrc := aluSrc, memRead := false, memWrite := false,
             memToReg := false, zeroBranch := false, flagBranch := false, uncondBranch := false,
             reg2Loc := false, flagWrite := flagWrite, aluOp := 0b10#2, operation := operation.toList } }

/-- A D row of R97: a load when `load`, else a store. -/
def dataRow (mnemonic opcode : String) (load : Bool) : Row :=
  { mnemonic := mnemonic.toList, format := .d, opcode := pattern opcode,
    sig := { registerWrite := load, aluSrc := true, memRead := load, memWrite := !load,
             memToReg := load, zeroBranch := false, flagBranch := false, uncondBranch := false,
             reg2Loc := !load, flagWrite := false, aluOp := 0b00#2, operation := "ADD".toList } }

/-- A B row of R97: unconditional, or on the condition code in its mnemonic. -/
def branchRow (mnemonic opcode : String) (uncond : Bool) : Row :=
  { mnemonic := mnemonic.toList, format := .b, opcode := pattern opcode,
    sig := { registerWrite := false, aluSrc := false, memRead := false, memWrite := false,
             memToReg := false, zeroBranch := false, flagBranch := !uncond, uncondBranch := uncond,
             reg2Loc := false, flagWrite := false, aluOp := 0b01#2, operation := "PASS".toList } }

/-- R200, match 0x8B000000. -/
def DefaultRow.add : Row := aluRow .r "ADD" "10001011000" false false "ADD"

/-- R201, match 0xCB000000. -/
def DefaultRow.sub : Row := aluRow .r "SUB" "11001011000" false false "SUB"

/-- R202, match 0xAB000000. -/
def DefaultRow.adds : Row := aluRow .r "ADDS" "10101011000" false true "ADDS"

/-- R203, match 0xEB000000. -/
def DefaultRow.subs : Row := aluRow .r "SUBS" "11101011000" false true "SUBS"

/-- R204, match 0x8A000000. -/
def DefaultRow.and : Row := aluRow .r "AND" "10001010000" false false "AND"

/-- R205, match 0xAA000000. -/
def DefaultRow.orr : Row := aluRow .r "ORR" "10101010000" false false "ORR"

/-- R206, match 0xCA000000. -/
def DefaultRow.eor : Row := aluRow .r "EOR" "11001010000" false false "EOR"

/-- R207, match 0xEA000000. -/
def DefaultRow.ands : Row := aluRow .r "ANDS" "11101010000" false true "AND"

/-- R208, match 0x9B000000. -/
def DefaultRow.mul : Row := aluRow .r "MUL" "10011011000" false false "MUL"

/-- R209, match 0x9B400000. -/
def DefaultRow.smulh : Row := aluRow .r "SMULH" "10011011010" false false "SMULH"

/-- R210, match 0x9BC00000. -/
def DefaultRow.umulh : Row := aluRow .r "UMULH" "10011011110" false false "UMULH"

/-- R211, match 0x9AC00000. -/
def DefaultRow.sdiv : Row := aluRow .r "SDIV" "10011010110" false false "SDIV"

/-- R212, match 0x9AE00000. -/
def DefaultRow.udiv : Row := aluRow .r "UDIV" "10011010111" false false "UDIV"

/-- R213, match 0xD3600000. -/
def DefaultRow.lsl : Row := aluRow .r "LSL" "11010011011" true false "LSL"

/-- R214, match 0xD3400000. -/
def DefaultRow.lsr : Row := aluRow .r "LSR" "11010011010" true false "LSR"

/-- R215, match 0xD3800000. -/
def DefaultRow.asr : Row := aluRow .r "ASR" "11010011100" true false "ASR"

/-- R230, match 0x91000000. -/
def DefaultRow.addi : Row := aluRow .i "ADDI" "1001000100" true false "ADD"

/-- R231, match 0xD1000000. -/
def DefaultRow.subi : Row := aluRow .i "SUBI" "1101000100" true false "SUB"

/-- R232, match 0xB1000000. -/
def DefaultRow.addis : Row := aluRow .i "ADDIS" "1011000100" true true "ADDS"

/-- R233, match 0xF1000000. -/
def DefaultRow.subis : Row := aluRow .i "SUBIS" "1111000100" true true "SUBS"

/-- R234, match 0x92000000. -/
def DefaultRow.andi : Row := aluRow .i "ANDI" "1001001000" true false "AND"

/-- R235, match 0xB2000000. -/
def DefaultRow.orri : Row := aluRow .i "ORRI" "1011001000" true false "ORR"

/-- R236, match 0xD2000000. -/
def DefaultRow.eori : Row := aluRow .i "EORI" "1101001000" true false "EOR"

/-- R237, match 0xF2000000. -/
def DefaultRow.andis : Row := aluRow .i "ANDIS" "1111001000" true true "AND"

/-- R260, match 0xF8400000. -/
def DefaultRow.ldur : Row := dataRow "LDUR" "11111000010" true

/-- R261, match 0xF8000000. -/
def DefaultRow.stur : Row := dataRow "STUR" "11111000000" false

/-- R280, match 0x14000000. -/
def DefaultRow.b : Row := branchRow "B" "000101" true

/-- R281, match 0x40000000. -/
def DefaultRow.bEq : Row := branchRow "B.EQ" "010000" false

/-- R282, match 0x44000000. -/
def DefaultRow.bNe : Row := branchRow "B.NE" "010001" false

/-- R286, match 0x68000000. -/
def DefaultRow.bGe : Row := branchRow "B.GE" "011010" false

/-- R283, match 0x6C000000. -/
def DefaultRow.bLt : Row := branchRow "B.LT" "011011" false

/-- R284, match 0x70000000. -/
def DefaultRow.bGt : Row := branchRow "B.GT" "011100" false

/-- R285, match 0x74000000. -/
def DefaultRow.bLe : Row := branchRow "B.LE" "011101" false

/-- R250, match 0xD2800000. -/
def DefaultRow.movz : Row := aluRow .im "MOVZ" "110100101" true false "PASS"

/-- A row of the default table together with the instruction its words stand for. -/
abbrev DecodeEntry := Row × (InstrWord → Instr)

/-- Rows 1 to 16 (42_r_format.md). -/
def regEntries : List DecodeEntry :=
  [(DefaultRow.add, fun w => .add (fieldRd w) (fieldRn w) (fieldRm w)),
   (DefaultRow.sub, fun w => .sub (fieldRd w) (fieldRn w) (fieldRm w)),
   (DefaultRow.adds, fun w => .adds (fieldRd w) (fieldRn w) (fieldRm w)),
   (DefaultRow.subs, fun w => .subs (fieldRd w) (fieldRn w) (fieldRm w)),
   (DefaultRow.and, fun w => .and (fieldRd w) (fieldRn w) (fieldRm w)),
   (DefaultRow.orr, fun w => .orr (fieldRd w) (fieldRn w) (fieldRm w)),
   (DefaultRow.eor, fun w => .eor (fieldRd w) (fieldRn w) (fieldRm w)),
   (DefaultRow.ands, fun w => .ands (fieldRd w) (fieldRn w) (fieldRm w)),
   (DefaultRow.mul, fun w => .mul (fieldRd w) (fieldRn w) (fieldRm w)),
   (DefaultRow.smulh, fun w => .smulh (fieldRd w) (fieldRn w) (fieldRm w)),
   (DefaultRow.umulh, fun w => .umulh (fieldRd w) (fieldRn w) (fieldRm w)),
   (DefaultRow.sdiv, fun w => .sdiv (fieldRd w) (fieldRn w) (fieldRm w)),
   (DefaultRow.udiv, fun w => .udiv (fieldRd w) (fieldRn w) (fieldRm w)),
   (DefaultRow.lsl, fun w => .lsl (fieldRd w) (fieldRn w) (fieldShamt w)),
   (DefaultRow.lsr, fun w => .lsr (fieldRd w) (fieldRn w) (fieldShamt w)),
   (DefaultRow.asr, fun w => .asr (fieldRd w) (fieldRn w) (fieldShamt w))]

/-- Rows 17 to 24 (43_i_format.md). -/
def immEntries : List DecodeEntry :=
  [(DefaultRow.addi, fun w => .addi (fieldRd w) (fieldRn w) (fieldImm12 w)),
   (DefaultRow.subi, fun w => .subi (fieldRd w) (fieldRn w) (fieldImm12 w)),
   (DefaultRow.addis, fun w => .addis (fieldRd w) (fieldRn w) (fieldImm12 w)),
   (DefaultRow.subis, fun w => .subis (fieldRd w) (fieldRn w) (fieldImm12 w)),
   (DefaultRow.andi, fun w => .andi (fieldRd w) (fieldRn w) (fieldImm12 w)),
   (DefaultRow.orri, fun w => .orri (fieldRd w) (fieldRn w) (fieldImm12 w)),
   (DefaultRow.eori, fun w => .eori (fieldRd w) (fieldRn w) (fieldImm12 w)),
   (DefaultRow.andis, fun w => .andis (fieldRd w) (fieldRn w) (fieldImm12 w))]

/-- Rows 25 and 26 (45_d_format.md). -/
def memEntries : List DecodeEntry :=
  [(DefaultRow.ldur, fun w => .ldur (fieldRd w) (fieldRn w) (fieldOff9 w)),
   (DefaultRow.stur, fun w => .stur (fieldRd w) (fieldRn w) (fieldOff9 w))]

/-- Rows 27 to 33 (46_b_format.md). -/
def branchEntries : List DecodeEntry :=
  [(DefaultRow.b, fun w => .b (fieldOff26 w)),
   (DefaultRow.bEq, fun w => .bEq (fieldOff26 w)),
   (DefaultRow.bNe, fun w => .bNe (fieldOff26 w)),
   (DefaultRow.bGe, fun w => .bGe (fieldOff26 w)),
   (DefaultRow.bLt, fun w => .bLt (fieldOff26 w)),
   (DefaultRow.bGt, fun w => .bGt (fieldOff26 w)),
   (DefaultRow.bLe, fun w => .bLe (fieldOff26 w))]

/-- Row 34 (44_im_format.md). -/
def movEntries : List DecodeEntry :=
  [(DefaultRow.movz, fun w => .movz (fieldRd w) (fieldImm16 w) (fieldHw w))]

/-- The default table with the meaning of each row's fields, in the order of R97. -/
def decodeEntries : List DecodeEntry :=
  regEntries ++ immEntries ++ memEntries ++ branchEntries ++ movEntries

/-- `IDT_default` (R97): the 34 rows in table order. -/
def idtDefault : Table := decodeEntries.map Prod.fst

/-! ### The decoder (R90, R91) -/

/-- The fixed trial order of the formats (R90). -/
def formatOrder : List Format := [.r, .i, .d, .b, .im]

/-- The row choice of `decode(w)` (R90), over any list whose elements carry a row: the formats in their
order and, in each, the first element in table order whose pattern is the word's opcode field. -/
def selectBy {α : Type} (rowOf : α → Row) (l : List α) (w : InstrWord) : Option α :=
  formatOrder.findSome? fun f =>
    l.find? fun x => decide ((rowOf x).format = f) && ((rowOf x).opcode == topBits f.opcodeWidth w)

/-- The row of any table that the decoder selects for a word; none is `UnknownOpcode` (R90, R91). -/
def Table.select (t : Table) (w : InstrWord) : Option Row := selectBy id t w

/-- The decoder under the default table: the instruction of a word; none is `UnknownOpcode` (R90, R91). -/
def decode (w : InstrWord) : Option Instr := (selectBy Prod.fst decodeEntries w).map fun e => e.2 w

/-- `decode` on a word given as a number, bit 0 its least significant bit. Every instruction is 32 bits
long (R82), so a longer one does not exist and bits above `nbits` are 0. -/
def decodeTableWord (nbits w : Nat) : Option Instr :=
  if nbits ≤ 32 then decode (BitVec.ofNat 32 (w % 2 ^ nbits)) else none

/-- The row of the default table an instruction belongs to (R90: "a reference to the row"). -/
def Instr.row : Instr → Row
  | .add _ _ _ => DefaultRow.add
  | .sub _ _ _ => DefaultRow.sub
  | .adds _ _ _ => DefaultRow.adds
  | .subs _ _ _ => DefaultRow.subs
  | .and _ _ _ => DefaultRow.and
  | .orr _ _ _ => DefaultRow.orr
  | .eor _ _ _ => DefaultRow.eor
  | .ands _ _ _ => DefaultRow.ands
  | .mul _ _ _ => DefaultRow.mul
  | .smulh _ _ _ => DefaultRow.smulh
  | .umulh _ _ _ => DefaultRow.umulh
  | .sdiv _ _ _ => DefaultRow.sdiv
  | .udiv _ _ _ => DefaultRow.udiv
  | .lsl _ _ _ => DefaultRow.lsl
  | .lsr _ _ _ => DefaultRow.lsr
  | .asr _ _ _ => DefaultRow.asr
  | .addi _ _ _ => DefaultRow.addi
  | .subi _ _ _ => DefaultRow.subi
  | .addis _ _ _ => DefaultRow.addis
  | .subis _ _ _ => DefaultRow.subis
  | .andi _ _ _ => DefaultRow.andi
  | .orri _ _ _ => DefaultRow.orri
  | .eori _ _ _ => DefaultRow.eori
  | .andis _ _ _ => DefaultRow.andis
  | .ldur _ _ _ => DefaultRow.ldur
  | .stur _ _ _ => DefaultRow.stur
  | .b _ => DefaultRow.b
  | .bEq _ => DefaultRow.bEq
  | .bNe _ => DefaultRow.bNe
  | .bGe _ => DefaultRow.bGe
  | .bLt _ => DefaultRow.bLt
  | .bGt _ => DefaultRow.bGt
  | .bLe _ => DefaultRow.bLe
  | .movz _ _ _ => DefaultRow.movz

/-! ### The encoder (R83 to R87, R109) -/

/-- `opcode ++ Rm ++ shamt ++ Rn ++ Rd` (R83). -/
def encodeR (opcode : BitVec 11) (rm : Reg) (shamt : BitVec 6) (rn rd : Reg) : InstrWord :=
  opcode ++ rm ++ shamt ++ rn ++ rd
/-- `opcode ++ imm12 ++ Rn ++ Rd` (R84). -/
def encodeI (opcode : BitVec 10) (imm12 : BitVec 12) (rn rd : Reg) : InstrWord :=
  opcode ++ imm12 ++ rn ++ rd
/-- `opcode ++ off9 ++ 00 ++ Rn ++ Rt` (R85). -/
def encodeD (opcode : BitVec 11) (off9 : BitVec 9) (rn rt : Reg) : InstrWord :=
  opcode ++ off9 ++ 0#2 ++ rn ++ rt
/-- `opcode ++ off26` (R86). -/
def encodeB (opcode : BitVec 6) (off26 : BitVec 26) : InstrWord := opcode ++ off26
/-- `opcode ++ hw ++ imm16 ++ Rd` (R87). -/
def encodeIM (opcode : BitVec 9) (hw : BitVec 2) (imm16 : BitVec 16) (rd : Reg) : InstrWord :=
  opcode ++ hw ++ imm16 ++ rd

/-- The word the assembler writes for an instruction: the hex pattern of R97 and the operands, 0 in every
ignored field (R93, R109). -/
def encode : Instr → InstrWord
  | .add rd rn rm => encodeR 0x458 rm 0 rn rd
  | .sub rd rn rm => encodeR 0x658 rm 0 rn rd
  | .adds rd rn rm => encodeR 0x558 rm 0 rn rd
  | .subs rd rn rm => encodeR 0x758 rm 0 rn rd
  | .and rd rn rm => encodeR 0x450 rm 0 rn rd
  | .orr rd rn rm => encodeR 0x550 rm 0 rn rd
  | .eor rd rn rm => encodeR 0x650 rm 0 rn rd
  | .ands rd rn rm => encodeR 0x750 rm 0 rn rd
  | .mul rd rn rm => encodeR 0x4D8 rm 0 rn rd
  | .smulh rd rn rm => encodeR 0x4DA rm 0 rn rd
  | .umulh rd rn rm => encodeR 0x4DE rm 0 rn rd
  | .sdiv rd rn rm => encodeR 0x4D6 rm 0 rn rd
  | .udiv rd rn rm => encodeR 0x4D7 rm 0 rn rd
  | .lsl rd rn shamt => encodeR 0x69B 0 shamt rn rd
  | .lsr rd rn shamt => encodeR 0x69A 0 shamt rn rd
  | .asr rd rn shamt => encodeR 0x69C 0 shamt rn rd
  | .addi rd rn imm12 => encodeI 0x244 imm12 rn rd
  | .subi rd rn imm12 => encodeI 0x344 imm12 rn rd
  | .addis rd rn imm12 => encodeI 0x2C4 imm12 rn rd
  | .subis rd rn imm12 => encodeI 0x3C4 imm12 rn rd
  | .andi rd rn imm12 => encodeI 0x248 imm12 rn rd
  | .orri rd rn imm12 => encodeI 0x2C8 imm12 rn rd
  | .eori rd rn imm12 => encodeI 0x348 imm12 rn rd
  | .andis rd rn imm12 => encodeI 0x3C8 imm12 rn rd
  | .ldur rt rn off9 => encodeD 0x7C2 off9 rn rt
  | .stur rt rn off9 => encodeD 0x7C0 off9 rn rt
  | .b off26 => encodeB 0x5 off26
  | .bEq off26 => encodeB 0x10 off26
  | .bNe off26 => encodeB 0x11 off26
  | .bGe off26 => encodeB 0x1A off26
  | .bLt off26 => encodeB 0x1B off26
  | .bGt off26 => encodeB 0x1C off26
  | .bLe off26 => encodeB 0x1D off26
  | .movz rd imm16 hw => encodeIM 0x1A5 hw imm16 rd

end Sys2Proof
end

