-- ==== Sys2Proof/Machine/Ops.lean ====
section
/-! DEFINITION. The named operations over registers, memory, history and pc, and taking a fault
(10_state.md, 20_memory.md, 60_exceptions.md R303, R318 to R323, 41 R166, R176). -/

namespace Sys2Proof.Machine

open Sys2Proof

/-! ### Registers (R21, R22) -/

/-- `x[i]`: register 31 reads 0 in every state (R21). -/
def State.reg (s : State) (r : Reg) : Word := if h : r.toNat < 31 then s.regs[r.toNat] else 0#64

/-- `x[i] <- v`: a write to register 31 leaves all state unchanged (R22). -/
def State.setReg (s : State) (r : Reg) (v : Word) : State :=
  if h : r.toNat < 31 then { s with regs := s.regs.set r.toNat v } else s

/-! ### Data memory (20_memory.md) -/

/-- The four access widths (R62). -/
inductive AccessSize where
  | b1 | b2 | b4 | b8
deriving DecidableEq, Repr

/-- The width in bytes (R62). -/
def AccessSize.bytes : AccessSize → Nat
  | .b1 => 1
  | .b2 => 2
  | .b4 => 4
  | .b8 => 8

/-- The byte at an address; one never written since reset reads 0 (R63). -/
def getByte : Memory → Nat → Byte
  | [], _ => 0#8
  | (a, b) :: m, x => if x = a then b else getByte m x

/-- The memory with one byte replaced, in canonical form again. -/
def setByte : Memory → Nat → Byte → Memory
  | [], x, v => if v = 0#8 then [] else [(x, v)]
  | (a, b) :: m, x, v =>
    if x < a then (if v = 0#8 then (a, b) :: m else (x, v) :: (a, b) :: m)
    else if x = a then (if v = 0#8 then m else (x, v) :: m)
    else (a, b) :: setByte m x v

/-- The canonical form of a memory: addresses strictly rising, no byte 0 listed. -/
def Memory.wf : Memory → Bool
  | [] => true
  | (a, b) :: m => (b != 0#8) && m.all (fun c => decide (a < c.1)) && Memory.wf m

/-- The bound of R53: `0 <= s(addr)` and `s(addr) + n <= MEM_CAPACITY`, the sum exact. With bit 63 clear the
signed reading is the unsigned one. -/
def inBounds (capacity : Nat) (addr : Word) (n : Nat) : Bool :=
  !addr.msb && decide (addr.toNat + n ≤ capacity)

/-- Natural alignment: `u(addr) mod n = 0` (R54). -/
def isAligned (addr : Word) (n : Nat) : Bool := addr.toNat % n == 0

/-- The access check: bounds first, then alignment (R53, R54, R55). -/
def checkAccess (capacity : Nat) (addr : Word) (n : Nat) : Except Fault Unit :=
  if inBounds capacity addr n then
    if isAligned addr n then .ok () else .error (.memoryMisaligned addr n)
  else .error (.memoryOutOfBounds addr n)

/-- The value of `k` bytes from an address, byte `j` at bits `8j+7` to `8j` (R56, R59). -/
def readBytes (m : Memory) (addr : Nat) : Nat → Word
  | 0 => 0#64
  | k + 1 => readBytes m addr k ||| ((getByte m (addr + k)).setWidth 64 <<< (8 * k))

/-- The low `k` bytes of a value stored from an address, byte `j` being bits `8j+7` to `8j` (R57, R59). -/
def writeBytes (m : Memory) (addr : Nat) (v : Word) : Nat → Memory
  | 0 => m
  | k + 1 => setByte (writeBytes m addr v k) (addr + k) (v.extractLsb' (8 * k) 8)

/-- `MemRead(addr, n)` (R56), its `8 n`-bit value zero-extended to 64 bits; a read changes no state. -/
def memRead (s : State) (addr : Word) (size : AccessSize) : Except Fault Word :=
  match checkAccess s.memCapacity addr size.bytes with
  | .error f => .error f
  | .ok _ => .ok (readBytes s.mem addr.toNat size.bytes)

/-- `MemWrite(addr, n, v)` (R57); one that raises changes nothing (R58). -/
def memWrite (s : State) (addr : Word) (size : AccessSize) (v : Word) : Except Fault State :=
  match checkAccess s.memCapacity addr size.bytes with
  | .error f => .error f
  | .ok _ => .ok { s with mem := writeBytes s.mem addr.toNat v size.bytes }

/-! ### The codec's failure (R80, R81, 60_exceptions.md R311) -/

/-- `extractBits` with its failure as the fault `InvalidRange`. -/
def codecExtract (word : InstrWord) (low high : Nat) : Except Fault InstrWord :=
  match extractBits word low high with
  | some v => .ok v
  | none => .error (.invalidRange low high)

/-- `setBits` with its failure as the fault `InvalidRange`. -/
def codecSet (word value : InstrWord) (low high : Nat) : Except Fault InstrWord :=
  match setBits word value low high with
  | some v => .ok v
  | none => .error (.invalidRange low high)

/-! ### History (60_exceptions.md R318 to R323) -/

/-- A snapshot of the live state (R41). The description is free text (log 5). -/
def State.snapshot (s : State) : Snapshot :=
  { pc := s.pc, flags := s.flags, last := s.last, finished := s.finished, idx := s.lat.idx,
    regs := s.regs, mem := s.mem, description := Config.snapshotText s.freeTexts }

/-- `record(s)`: drop the states after the cursor, append, move the cursor to it, and evict the oldest when
the size exceeds the maximum (R319, R322). -/
def History.record (h : History) (capacity : Nat) (x : Snapshot) : History :=
  let kept := h.states.take (h.cursor + 1).toNat ++ [x]
  if capacity < kept.length then { states := kept.drop 1, cursor := (kept.length : Int) - 2 }
  else { states := kept, cursor := (kept.length : Int) - 1 }

/-- `current()`: the state at the cursor, none before the first (R321). -/
def History.current (h : History) : Option Snapshot :=
  if h.cursor < 0 then none else h.states[h.cursor.toNat]?

/-- `stepBack()` on the cursor: none at its boundary, `cur <= 0` (R320). -/
def History.back (h : History) : Option History :=
  if h.cursor ≤ 0 then none else some { h with cursor := h.cursor - 1 }

/-- `stepForward()` on the cursor: none at its boundary, the last state (R320). -/
def History.forward (h : History) : Option History :=
  if (h.states.length : Int) - 1 ≤ h.cursor then none else some { h with cursor := h.cursor + 1 }

/-- The invariant of R318 and R322: `-1 <= cur < |H|` and `|H| <= HISTORY_MAX`. -/
def History.wf (h : History) (capacity : Nat) : Bool :=
  decide (-1 ≤ h.cursor) && decide (h.cursor < h.states.length) && decide (h.states.length ≤ capacity)

/-- A micro-step has completed: "a full-state snapshot is pushed to History" (R323).
A history is always attached (log 7). -/
def State.record (s : State) : State :=
  { s with history := s.history.record s.historyMax s.snapshot, freeTexts := s.freeTexts + 1 }

/-! ### Taking a fault (60_exceptions.md R303) -/

/-- What a fault does ("trap entry"): the micro-step makes no change, and `fault <- (kind, info, pc,
lat.idx)`; control goes nowhere and nothing is recorded (R303, R323). -/
def State.raise (s : State) (kind : Fault) : State :=
  { s with fault := some { kind := kind, pc := s.pc, idx := s.lat.idx } }

/-- The return from a fault, which no instruction makes (R315): the host's restore clears it (R324). -/
def State.clearFault (s : State) : State := { s with fault := none }

/-! ### The pc (41_control_and_sequencer.md R166, R176) -/

/-- The instruction word at the pc, or `FetchOutOfProgram` (R166, 60 R312; an unaligned pc: log 14). -/
def State.fetchWord (s : State) : Except Fault InstrWord :=
  match s.program[s.pc.toNat / 4]? with
  | some w => .ok w
  | none => .error (.fetchOutOfProgram s.pc)

/-- Has the pc passed the last instruction, `pc = 4 L` (R177)? -/
def State.atEnd (s : State) (pc : Word) : Bool := pc.toNat == 4 * s.program.length

/-- End of instruction with the next pc chosen: pc, `last`, `lat.idx` and `finished` (R176, R177). -/
def State.endInstr (s : State) (next : Word) (text : Text) : State :=
  { s with pc := next, last := text, lat := { s.lat with idx := 0 },
           finished := s.finished || s.atEnd next }

end Sys2Proof.Machine
end

