-- ==== Sys2Proof/Machine/Text.lean ====
section
/-! DEFINITION. Disassembly, the canonical text of a decoded instruction (30_encoding.md R111, D29), which
`last` holds (10_state.md R36). Display only: no rule reads it. -/

namespace Sys2Proof.Machine

open Sys2Proof

/-- The decimal digit of a number below ten. -/
def digitChar (n : Nat) : Char := Char.ofNat (48 + n)

/-- The last `k` decimal digits of a number, without leading zeros; at least one digit when `0 < k`. -/
def decimalDigits : Nat → Nat → Text
  | 0, _ => []
  | k + 1, n => if n < 10 then [digitChar n] else decimalDigits k (n / 10) ++ [digitChar (n % 10)]

/-- A number in decimal; twenty digits hold every field and every 64-bit value. -/
def natText (n : Nat) : Text := decimalDigits 20 n

/-- An integer in decimal with a leading `-` when negative. -/
def intText (i : Int) : Text := if i < 0 then '-' :: natText i.natAbs else natText i.natAbs

/-- Register `i` is written `X<i>`, register 31 `XZR` (10_state.md R24, R111). -/
def regText (r : Reg) : Text := if r = 31 then "XZR".toList else 'X' :: natText r.toNat

/-- An immediate with its `#` (R111). -/
def immText (i : Int) : Text := '#' :: intText i

/-- One space after each comma (R111). -/
def commaText : Text := [',', ' ']

/-- `MN Xd, Xn, Xm` (R107). -/
def textR (mnemonic : Text) (rd rn rm : Reg) : Text :=
  mnemonic ++ ' ' :: regText rd ++ commaText ++ regText rn ++ commaText ++ regText rm

/-- `MN Xd, Xn, #shamt` (R107). -/
def textShift (mnemonic : Text) (rd rn : Reg) (shamt : BitVec 6) : Text :=
  mnemonic ++ ' ' :: regText rd ++ commaText ++ regText rn ++ commaText ++ immText shamt.toNat

/-- `MN Xd, Xn, #imm12` (R107). -/
def textI (mnemonic : Text) (rd rn : Reg) (imm12 : BitVec 12) : Text :=
  mnemonic ++ ' ' :: regText rd ++ commaText ++ regText rn ++ commaText ++ immText imm12.toNat

/-- `MN Xt, [Xn, #off9]`, the offset signed (R107, R111). -/
def textD (mnemonic : Text) (rt rn : Reg) (off9 : BitVec 9) : Text :=
  mnemonic ++ ' ' :: regText rt ++ commaText ++ '[' :: regText rn ++ commaText ++ immText off9.toInt ++ [']']

/-- `MN #off26`, the offset signed (R107, R111). -/
def textB (mnemonic : Text) (off26 : BitVec 26) : Text := mnemonic ++ ' ' :: immText off26.toInt

/-- `MN Xd, #imm16`, and `, LSL #s` only when `hw` is not 0 (R107, R111). -/
def textIM (mnemonic : Text) (rd : Reg) (imm16 : BitVec 16) (hw : BitVec 2) : Text :=
  mnemonic ++ ' ' :: regText rd ++ commaText ++ immText imm16.toNat ++
    (if hw = 0 then [] else commaText ++ "LSL ".toList ++ immText (16 * hw.toNat : Nat))

/-- Is the operation tag one of LSL, LSR, ASR, whose second operand is shamt (R102)? -/
def isShiftTag (tag : Text) : Bool :=
  tag == "LSL".toList || tag == "LSR".toList || tag == "ASR".toList

/-- The canonical text of the instruction a word is under a row (R111). -/
def disassemble (row : Row) (w : InstrWord) : Text :=
  match row.format with
  | .r => if isShiftTag row.sig.operation then textShift row.mnemonic (fieldRd w) (fieldRn w) (fieldShamt w)
          else textR row.mnemonic (fieldRd w) (fieldRn w) (fieldRm w)
  | .i => textI row.mnemonic (fieldRd w) (fieldRn w) (fieldImm12 w)
  | .d => textD row.mnemonic (fieldRd w) (fieldRn w) (fieldOff9 w)
  | .b => textB row.mnemonic (fieldOff26 w)
  | .im => textIM row.mnemonic (fieldRd w) (fieldImm16 w) (fieldHw w)

end Sys2Proof.Machine
end

