-- ==== Sys2Proof/Machine/Operands.lean ====
section
/-! DEFINITION. Every operand form (30_encoding.md R98 to R102) and what the micro-steps of an instruction
leave behind (41_control_and_sequencer.md R166 to R173). -/

namespace Sys2Proof.Machine

open Sys2Proof

/-! ### Operand forms -/

/-- I format: `zext_64(imm12)`, never sign-extended (R98). -/
def immOperand (imm12 : BitVec 12) : Word := imm12.setWidth 64

/-- R format shifts: `zext_64(shamt)` (R102). -/
def shiftOperand (shamt : BitVec 6) : Word := shamt.setWidth 64

/-- D format: `sext_64(off9)`, in bytes, not scaled (R99). -/
def offsetOperand (off9 : BitVec 9) : Word := off9.signExtend 64

/-- IM format: `zext_64(imm16) << (16 * hw)` (R101). -/
def movOperand (imm16 : BitVec 16) (hw : BitVec 2) : Word := imm16.setWidth 64 <<< (16 * hw.toNat)

/-- D format: the effective address `x[Rn] + sext_64(off9)` modulo 2^64 (R99). -/
def effectiveAddress (s : State) (rn : Reg) (off9 : BitVec 9) : Word := s.reg rn + offsetOperand off9

/-- B format: `pc + (sext_64(off26) << 2)` modulo 2^64 (R100). -/
def branchTarget (pc : Word) (off26 : BitVec 26) : Word := pc + (off26.signExtend 64 <<< 2)

/-! ### What each micro-step leaves -/

/-- After Fetch (R166). -/
def State.fetched (s : State) (w : InstrWord) : State :=
  { s with lat := { s.lat with word := w, idx := 1 } }

/-- After Decode of a row with two ALU operands (R167). -/
def State.latchOperands (s : State) (row : Row) (a b : Word) : State :=
  { s with lat := { s.lat with row := some row, a := a, b := b, idx := 2 } }

/-- After Decode of a store: the operands and the store data (R167). -/
def State.latchStore (s : State) (row : Row) (a b data : Word) : State :=
  { s with lat := { s.lat with row := some row, a := a, b := b, data := data, idx := 2 } }

/-- After Decode of a branch: the target (R167). -/
def State.latchBranch (s : State) (row : Row) (target : Word) : State :=
  { s with lat := { s.lat with row := some row, target := target, idx := 2 } }

/-- After Control-Signal of a format other than B: only the index moves (R168). -/
def State.latchSignals (s : State) : State := { s with lat := { s.lat with idx := 3 } }

/-- After Control-Signal of a branch: the condition on the flags as they are now (R168). -/
def State.latchTaken (s : State) (taken : Bool) : State :=
  { s with lat := { s.lat with taken := taken, idx := 3 } }

/-- After Execute: result and computed flags latched, the flags committed only under `flagWrite` (R169). -/
def State.executed (s : State) (r : AluResult) (flagWrite : Bool) : State :=
  { s with lat := { s.lat with res := r.value, nzcv := r.flags, idx := 4 },
           flags := if flagWrite then r.flags else s.flags }

/-- After Memory-Access of a load (R170). -/
def State.loaded (s : State) (v : Word) : State :=
  { s with lat := { s.lat with mem := v, idx := 5 } }

/-- After Memory-Access of a store, the bytes already written (R170). -/
def State.stored (s : State) : State := { s with lat := { s.lat with idx := 5 } }

/-! ### Whole instructions (R179), each from the state its Fetch left -/

/-- R, I and IM formats: Decode, Control-Signal, Execute, Write-Back (R167 to R172, R179). -/
def runAlu (row : Row) (op : AluOp) (flagWrite : Bool) (rd : Reg) (a b : Word) (text : Text) (s : State) :
    Host.Outcome State Fault Refusal :=
  let s2 := (s.latchOperands row a b).record
  let s3 := s2.latchSignals.record
  match alu a b op with
  | .error f => .next (s3.raise f)
  | .ok r =>
    let s4 := (s3.executed r flagWrite).record
    .next ((s4.setReg rd r.value).endInstr (s4.pc + 4) text).record

/-- A load: Decode, Control-Signal, Execute (address), Memory-Access, Write-Back (R260). -/
def runLoad (row : Row) (rt rn : Reg) (off9 : BitVec 9) (text : Text) (s : State) :
    Host.Outcome State Fault Refusal :=
  let addr := effectiveAddress s rn off9
  let s2 := (s.latchOperands row (s.reg rn) (offsetOperand off9)).record
  let s3 := s2.latchSignals.record
  let s4 := (s3.executed (aluAdd (s.reg rn) (offsetOperand off9)) false).record
  match memRead s4 addr .b8 with
  | .error f => .next (s4.raise f)
  | .ok v =>
    let s5 := (s4.loaded v).record
    .next ((s5.setReg rt v).endInstr (s5.pc + 4) text).record

/-- A store: Decode, Control-Signal, Execute (address), Memory-Access, a no-op Write-Back (R261). -/
def runStore (row : Row) (rt rn : Reg) (off9 : BitVec 9) (text : Text) (s : State) :
    Host.Outcome State Fault Refusal :=
  let addr := effectiveAddress s rn off9
  let data := s.reg rt
  let s2 := (s.latchStore row (s.reg rn) (offsetOperand off9) data).record
  let s3 := s2.latchSignals.record
  let s4 := (s3.executed (aluAdd (s.reg rn) (offsetOperand off9)) false).record
  match memWrite s4 addr .b8 data with
  | .error f => .next (s4.raise f)
  | .ok s4' =>
    let s5 := s4'.stored.record
    .next (s5.endInstr (s5.pc + 4) text).record

/-- A branch: Decode (target), Control-Signal (condition), Branch (R280, R281). -/
def runBranch (row : Row) (off26 : BitVec 26) (taken : Bool) (text : Text) (s : State) :
    Host.Outcome State Fault Refusal :=
  let target := branchTarget s.pc off26
  let s2 := (s.latchBranch row target).record
  let s3 := (s2.latchTaken taken).record
  .next (s3.endInstr (if taken then target else s3.pc + 4) text).record

end Sys2Proof.Machine
end

