-- ==== Sys2Proof/Machine/BFormat.lean ====
section
/-! DEFINITION. The meanings of the B-format instructions, branches (46_b_format.md). -/

namespace Sys2Proof.Machine

open Sys2Proof

/-- B (R280): always taken. -/
def execB (off26 : BitVec 26) (s : State) : Host.Outcome State Fault Refusal :=
  runBranch DefaultRow.b off26 true (textB "B".toList off26) s

/-- B.EQ (R281): taken when `Z = 1`. -/
def execBEq (off26 : BitVec 26) (s : State) : Host.Outcome State Fault Refusal :=
  runBranch DefaultRow.bEq off26 s.flags.z (textB "B.EQ".toList off26) s

/-- B.NE (R282): taken when `Z = 0`. -/
def execBNe (off26 : BitVec 26) (s : State) : Host.Outcome State Fault Refusal :=
  runBranch DefaultRow.bNe off26 (!s.flags.z) (textB "B.NE".toList off26) s

/-- B.GE (R286): taken when `N = V`. -/
def execBGe (off26 : BitVec 26) (s : State) : Host.Outcome State Fault Refusal :=
  runBranch DefaultRow.bGe off26 (s.flags.n == s.flags.v) (textB "B.GE".toList off26) s

/-- B.LT (R283): taken when `N != V`. -/
def execBLt (off26 : BitVec 26) (s : State) : Host.Outcome State Fault Refusal :=
  runBranch DefaultRow.bLt off26 (s.flags.n != s.flags.v) (textB "B.LT".toList off26) s

/-- B.GT (R284): taken when `Z = 0 and N = V`. -/
def execBGt (off26 : BitVec 26) (s : State) : Host.Outcome State Fault Refusal :=
  runBranch DefaultRow.bGt off26 (!s.flags.z && (s.flags.n == s.flags.v)) (textB "B.GT".toList off26) s

/-- B.LE (R285): taken when `Z = 1 or N != V`. -/
def execBLe (off26 : BitVec 26) (s : State) : Host.Outcome State Fault Refusal :=
  runBranch DefaultRow.bLe off26 (s.flags.z || (s.flags.n != s.flags.v)) (textB "B.LE".toList off26) s

end Sys2Proof.Machine
end

