-- ==== Sys2Proof/Machine/DFormat.lean ====
section
/-! DEFINITION. The meanings of the D-format instructions, load and store (45_d_format.md). -/

namespace Sys2Proof.Machine

open Sys2Proof

/-- LDUR (R260): the doubleword at the effective address, with its checks even when `Rt` is 31. -/
def execLdur (rt rn : Reg) (off9 : BitVec 9) (s : State) : Host.Outcome State Fault Refusal :=
  runLoad DefaultRow.ldur rt rn off9 (textD "LDUR".toList rt rn off9) s

/-- STUR (R261): `x[Rt]` as read at Decode to the doubleword at the effective address. -/
def execStur (rt rn : Reg) (off9 : BitVec 9) (s : State) : Host.Outcome State Fault Refusal :=
  runStore DefaultRow.stur rt rn off9 (textD "STUR".toList rt rn off9) s

end Sys2Proof.Machine
end

