-- ==== Sys2Proof/Machine/IFormat.lean ====
section
/-! DEFINITION. The meanings of the I-format instructions (43_i_format.md). -/

namespace Sys2Proof.Machine

open Sys2Proof

/-- ADDI (R230): `x[Rn] + imm`; no flags. -/
def execAddi (rd rn : Reg) (imm12 : BitVec 12) (s : State) : Host.Outcome State Fault Refusal :=
  runAlu DefaultRow.addi .add false rd (s.reg rn) (immOperand imm12) (textI "ADDI".toList rd rn imm12) s

/-- SUBI (R231): `x[Rn] - imm`; no flags. -/
def execSubi (rd rn : Reg) (imm12 : BitVec 12) (s : State) : Host.Outcome State Fault Refusal :=
  runAlu DefaultRow.subi .sub false rd (s.reg rn) (immOperand imm12) (textI "SUBI".toList rd rn imm12) s

/-- ADDIS (R232): `x[Rn] + imm`, all four flags written. -/
def execAddis (rd rn : Reg) (imm12 : BitVec 12) (s : State) : Host.Outcome State Fault Refusal :=
  runAlu DefaultRow.addis .adds true rd (s.reg rn) (immOperand imm12) (textI "ADDIS".toList rd rn imm12) s

/-- SUBIS (R233): `x[Rn] - imm`, all four flags written. -/
def execSubis (rd rn : Reg) (imm12 : BitVec 12) (s : State) : Host.Outcome State Fault Refusal :=
  runAlu DefaultRow.subis .subs true rd (s.reg rn) (immOperand imm12) (textI "SUBIS".toList rd rn imm12) s

/-- ANDI (R234): `x[Rn] and imm`; no flags. -/
def execAndi (rd rn : Reg) (imm12 : BitVec 12) (s : State) : Host.Outcome State Fault Refusal :=
  runAlu DefaultRow.andi .and false rd (s.reg rn) (immOperand imm12) (textI "ANDI".toList rd rn imm12) s

/-- ORRI (R235): `x[Rn] or imm`; no flags. -/
def execOrri (rd rn : Reg) (imm12 : BitVec 12) (s : State) : Host.Outcome State Fault Refusal :=
  runAlu DefaultRow.orri .orr false rd (s.reg rn) (immOperand imm12) (textI "ORRI".toList rd rn imm12) s

/-- EORI (R236): `x[Rn] xor imm`; no flags. -/
def execEori (rd rn : Reg) (imm12 : BitVec 12) (s : State) : Host.Outcome State Fault Refusal :=
  runAlu DefaultRow.eori .eor false rd (s.reg rn) (immOperand imm12) (textI "EORI".toList rd rn imm12) s

/-- ANDIS (R237): `x[Rn] and imm`, `N` and `Z` written, `C` and `V` cleared. -/
def execAndis (rd rn : Reg) (imm12 : BitVec 12) (s : State) : Host.Outcome State Fault Refusal :=
  runAlu DefaultRow.andis .and true rd (s.reg rn) (immOperand imm12) (textI "ANDIS".toList rd rn imm12) s

end Sys2Proof.Machine
end

