-- ==== Sys2Proof/Machine/ImFormat.lean ====
section
/-! DEFINITION. The meanings of the IM-format instruction (44_im_format.md). -/

namespace Sys2Proof.Machine

open Sys2Proof

/-- MOVZ (R250): the placed immediate, zeros elsewhere; ALU tag PASS, no register read, no flags. -/
def execMovz (rd : Reg) (imm16 : BitVec 16) (hw : BitVec 2) (s : State) : Host.Outcome State Fault Refusal :=
  runAlu DefaultRow.movz .pass false rd 0 (movOperand imm16 hw) (textIM "MOVZ".toList rd imm16 hw) s

end Sys2Proof.Machine
end

