-- ==== Sys2Proof/Machine/RFormat.lean ====
section
/-! DEFINITION. The meanings of the R-format instructions (42_r_format.md). -/

namespace Sys2Proof.Machine

open Sys2Proof

/-- ADD (R200): `x[Rd] <- x[Rn] + x[Rm]` modulo 2^64; no flags. -/
def execAdd (rd rn rm : Reg) (s : State) : Host.Outcome State Fault Refusal :=
  runAlu DefaultRow.add .add false rd (s.reg rn) (s.reg rm) (textR "ADD".toList rd rn rm) s

/-- SUB (R201): `x[Rd] <- x[Rn] - x[Rm]` modulo 2^64; no flags. -/
def execSub (rd rn rm : Reg) (s : State) : Host.Outcome State Fault Refusal :=
  runAlu DefaultRow.sub .sub false rd (s.reg rn) (s.reg rm) (textR "SUB".toList rd rn rm) s

/-- ADDS (R202): the sum, all four flags written. -/
def execAdds (rd rn rm : Reg) (s : State) : Host.Outcome State Fault Refusal :=
  runAlu DefaultRow.adds .adds true rd (s.reg rn) (s.reg rm) (textR "ADDS".toList rd rn rm) s

/-- SUBS (R203): the difference, all four flags written; `C = 1` means no borrow. -/
def execSubs (rd rn rm : Reg) (s : State) : Host.Outcome State Fault Refusal :=
  runAlu DefaultRow.subs .subs true rd (s.reg rn) (s.reg rm) (textR "SUBS".toList rd rn rm) s

/-- AND (R204): bitwise and; no flags. -/
def execAnd (rd rn rm : Reg) (s : State) : Host.Outcome State Fault Refusal :=
  runAlu DefaultRow.and .and false rd (s.reg rn) (s.reg rm) (textR "AND".toList rd rn rm) s

/-- ORR (R205): bitwise or; no flags. -/
def execOrr (rd rn rm : Reg) (s : State) : Host.Outcome State Fault Refusal :=
  runAlu DefaultRow.orr .orr false rd (s.reg rn) (s.reg rm) (textR "ORR".toList rd rn rm) s

/-- EOR (R206): bitwise exclusive or; no flags. -/
def execEor (rd rn rm : Reg) (s : State) : Host.Outcome State Fault Refusal :=
  runAlu DefaultRow.eor .eor false rd (s.reg rn) (s.reg rm) (textR "EOR".toList rd rn rm) s

/-- ANDS (R207): bitwise and, `N` and `Z` written, `C` and `V` cleared. -/
def execAnds (rd rn rm : Reg) (s : State) : Host.Outcome State Fault Refusal :=
  runAlu DefaultRow.ands .and true rd (s.reg rn) (s.reg rm) (textR "ANDS".toList rd rn rm) s

/-- MUL (R208): low 64 bits of the product; no flags. -/
def execMul (rd rn rm : Reg) (s : State) : Host.Outcome State Fault Refusal :=
  runAlu DefaultRow.mul .mul false rd (s.reg rn) (s.reg rm) (textR "MUL".toList rd rn rm) s

/-- SMULH (R209): bits 127:64 of the signed product; no flags. -/
def execSmulh (rd rn rm : Reg) (s : State) : Host.Outcome State Fault Refusal :=
  runAlu DefaultRow.smulh .smulh false rd (s.reg rn) (s.reg rm) (textR "SMULH".toList rd rn rm) s

/-- UMULH (R210): bits 127:64 of the unsigned product; no flags. -/
def execUmulh (rd rn rm : Reg) (s : State) : Host.Outcome State Fault Refusal :=
  runAlu DefaultRow.umulh .umulh false rd (s.reg rn) (s.reg rm) (textR "UMULH".toList rd rn rm) s

/-- SDIV (R211): signed quotient toward zero; a zero divisor raises DivisionByZero at Execute, whatever `Rd`. -/
def execSdiv (rd rn rm : Reg) (s : State) : Host.Outcome State Fault Refusal :=
  runAlu DefaultRow.sdiv .sdiv false rd (s.reg rn) (s.reg rm) (textR "SDIV".toList rd rn rm) s

/-- UDIV (R212): unsigned quotient; a zero divisor raises DivisionByZero at Execute. -/
def execUdiv (rd rn rm : Reg) (s : State) : Host.Outcome State Fault Refusal :=
  runAlu DefaultRow.udiv .udiv false rd (s.reg rn) (s.reg rm) (textR "UDIV".toList rd rn rm) s

/-- LSL (R213): left shift by shamt; no flags. -/
def execLsl (rd rn : Reg) (shamt : BitVec 6) (s : State) : Host.Outcome State Fault Refusal :=
  runAlu DefaultRow.lsl .lsl false rd (s.reg rn) (shiftOperand shamt) (textShift "LSL".toList rd rn shamt) s

/-- LSR (R214): logical right shift by shamt; no flags. -/
def execLsr (rd rn : Reg) (shamt : BitVec 6) (s : State) : Host.Outcome State Fault Refusal :=
  runAlu DefaultRow.lsr .lsr false rd (s.reg rn) (shiftOperand shamt) (textShift "LSR".toList rd rn shamt) s

/-- ASR (R215): arithmetic right shift by shamt; no flags. -/
def execAsr (rd rn : Reg) (shamt : BitVec 6) (s : State) : Host.Outcome State Fault Refusal :=
  runAlu DefaultRow.asr .asr false rd (s.reg rn) (shiftOperand shamt) (textShift "ASR".toList rd rn shamt) s

end Sys2Proof.Machine
end

