-- ==== Sys2Proof/Machine/Dispatch.lean ====
section
/-! DEFINITION. One arm per instruction, each one direct call of its meaning. -/

namespace Sys2Proof.Machine

open Sys2Proof

-- The effect of one decoded instruction, from the state its Fetch left (41_control_and_sequencer.md R179).
def exec (i : Instr) (s : State) : Host.Outcome State Fault Refusal :=
  match i with
  | .add rd rn rm => Sys2Proof.Machine.execAdd rd rn rm s
  | .sub rd rn rm => Sys2Proof.Machine.execSub rd rn rm s
  | .adds rd rn rm => Sys2Proof.Machine.execAdds rd rn rm s
  | .subs rd rn rm => Sys2Proof.Machine.execSubs rd rn rm s
  | .and rd rn rm => Sys2Proof.Machine.execAnd rd rn rm s
  | .orr rd rn rm => Sys2Proof.Machine.execOrr rd rn rm s
  | .eor rd rn rm => Sys2Proof.Machine.execEor rd rn rm s
  | .ands rd rn rm => Sys2Proof.Machine.execAnds rd rn rm s
  | .mul rd rn rm => Sys2Proof.Machine.execMul rd rn rm s
  | .smulh rd rn rm => Sys2Proof.Machine.execSmulh rd rn rm s
  | .umulh rd rn rm => Sys2Proof.Machine.execUmulh rd rn rm s
  | .sdiv rd rn rm => Sys2Proof.Machine.execSdiv rd rn rm s
  | .udiv rd rn rm => Sys2Proof.Machine.execUdiv rd rn rm s
  | .lsl rd rn shamt => Sys2Proof.Machine.execLsl rd rn shamt s
  | .lsr rd rn shamt => Sys2Proof.Machine.execLsr rd rn shamt s
  | .asr rd rn shamt => Sys2Proof.Machine.execAsr rd rn shamt s
  | .addi rd rn imm12 => Sys2Proof.Machine.execAddi rd rn imm12 s
  | .subi rd rn imm12 => Sys2Proof.Machine.execSubi rd rn imm12 s
  | .addis rd rn imm12 => Sys2Proof.Machine.execAddis rd rn imm12 s
  | .subis rd rn imm12 => Sys2Proof.Machine.execSubis rd rn imm12 s
  | .andi rd rn imm12 => Sys2Proof.Machine.execAndi rd rn imm12 s
  | .orri rd rn imm12 => Sys2Proof.Machine.execOrri rd rn imm12 s
  | .eori rd rn imm12 => Sys2Proof.Machine.execEori rd rn imm12 s
  | .andis rd rn imm12 => Sys2Proof.Machine.execAndis rd rn imm12 s
  | .ldur rt rn off9 => Sys2Proof.Machine.execLdur rt rn off9 s
  | .stur rt rn off9 => Sys2Proof.Machine.execStur rt rn off9 s
  | .b off26 => Sys2Proof.Machine.execB off26 s
  | .bEq off26 => Sys2Proof.Machine.execBEq off26 s
  | .bNe off26 => Sys2Proof.Machine.execBNe off26 s
  | .bGe off26 => Sys2Proof.Machine.execBGe off26 s
  | .bLt off26 => Sys2Proof.Machine.execBLt off26 s
  | .bGt off26 => Sys2Proof.Machine.execBGt off26 s
  | .bLe off26 => Sys2Proof.Machine.execBLe off26 s
  | .movz rd imm16 hw => Sys2Proof.Machine.execMovz rd imm16 hw s

end Sys2Proof.Machine
end

