-- ==== Sys2Proof/Machine/Micro.lean ====
section
/-! DEFINITION. The control unit and the micro-step sequencer for any definition table
(41_control_and_sequencer.md): one micro-step as one transition. -/

namespace Sys2Proof.Machine

open Sys2Proof

/-- The kinds of micro-step (R165 to R173). -/
inductive MicroKind where
  | fetch | decode | control | execute | memory | writeBack | branch
deriving DecidableEq, Repr

/-- The pipeline-stage tags (R163); display only. -/
inductive Stage where
  | fetch | decode | execute | memoryAccess | writeBack | none
deriving DecidableEq, Repr

/-- The stage tag of each micro-step (R165). -/
def MicroKind.stage : MicroKind → Stage
  | .fetch => .fetch
  | .decode => .decode
  | .control => .decode
  | .execute => .execute
  | .memory => .memoryAccess
  | .writeBack => .writeBack
  | .branch => .execute

/-- The micro-step list of an instruction, which depends only on its format (R164, R165). -/
def microList : Format → List MicroKind
  | .r => [.fetch, .decode, .control, .execute, .writeBack]
  | .i => [.fetch, .decode, .control, .execute, .writeBack]
  | .im => [.fetch, .decode, .control, .execute, .writeBack]
  | .d => [.fetch, .decode, .control, .execute, .memory, .writeBack]
  | .b => [.fetch, .decode, .control, .branch]

/-- The control unit, "stateless lookup" (R162). -/
def controlSignals (row : Row) : Signals := row.sig

/-- The micro-step the index names; before Decode no format is needed (R165, R175). -/
def currentKind (l : Latches) : Option MicroKind :=
  match l.idx with
  | 0 => some .fetch
  | 1 => some .decode
  | k => l.row.bind fun row => (microList row.format)[k]?

/-- Action descriptors (R174). -/
inductive Action where
  | writeRegister (index : Reg) (value : Word)
  | writeMemory (addr value : Word) (size : AccessSize)
  | updateFlags (flags : Flags)
  | setBranchTarget (pc : Word)
deriving DecidableEq, Repr

/-! ### Latches: what a micro-step computes -/

/-- The operands Decode latches, selected per format (R161, R167). -/
def operandLatches (s : State) (row : Row) : Latches :=
  let w := s.lat.word
  let l := { s.lat with row := some row, idx := 2 }
  match row.format with
  | .r => { l with a := s.reg (fieldRn w),
                   b := if isShiftTag (controlSignals row).operation then shiftOperand (fieldShamt w)
                        else s.reg (fieldRm w) }
  | .i => { l with a := s.reg (fieldRn w), b := immOperand (fieldImm12 w) }
  | .d => { l with a := s.reg (fieldRn w), b := offsetOperand (fieldOff9 w),
                   data := if (controlSignals row).memWrite then s.reg (fieldRd w) else l.data }
  | .b => { l with target := branchTarget s.pc (fieldOff26 w) }
  | .im => { l with a := 0, b := movOperand (fieldImm16 w) (fieldHw w) }

/-- Is a branch row taken under the flags as they are (R168)? -/
def rowTaken (row : Row) (f : Flags) : Bool :=
  if (controlSignals row).uncondBranch then true
  else if (controlSignals row).flagBranch then condHolds (condCode row.mnemonic) f
  else false

/-- Decode: the row the decoder selects and its operands (R167); may raise `UnknownOpcode`. -/
def decodeLatches (t : Table) (s : State) : Except Fault Latches :=
  match Table.select t s.lat.word with
  | none => .error (.unknownOpcode (.word s.lat.word))
  | some row => .ok (operandLatches s row)

/-- Execute: the ALU on the latched operands (R169). -/
def executeLatches (l : Latches) (row : Row) : Except Fault Latches :=
  match aluTag l.a l.b (controlSignals row).operation with
  | .error f => .error f
  | .ok r => .ok { l with res := r.value, nzcv := r.flags, idx := 4 }

/-- Memory-Access: the read of a load (R170). -/
def memoryLatches (s : State) (row : Row) : Except Fault Latches :=
  if (controlSignals row).memRead then
    match memRead s s.lat.res .b8 with
    | .error f => .error f
    | .ok v => .ok { s.lat with mem := v, idx := 5 }
  else .ok { s.lat with idx := 5 }

/-- The latches after a micro-step, its effects on registers, flags and memory left out (R166 to R173). -/
def microLatches (t : Table) (s : State) : MicroKind → Except Fault Latches
  | .fetch =>
    match s.fetchWord with
    | .error f => .error f
    | .ok w => .ok { s.lat with word := w, idx := 1 }
  | .decode => decodeLatches t s
  | .control =>
    match s.lat.row with
    | none => .ok s.lat
    | some row =>
      if row.format = .b then .ok { s.lat with taken := rowTaken row s.flags, idx := 3 }
      else .ok { s.lat with idx := 3 }
  | .execute =>
    match s.lat.row with
    | none => .ok s.lat
    | some row => executeLatches s.lat row
  | .memory =>
    match s.lat.row with
    | none => .ok s.lat
    | some row => memoryLatches s row
  | .writeBack => .ok s.lat
  | .branch => .ok s.lat

/-! ### Actions: what a micro-step commits -/

/-- The deferred action of a micro-step, from its latches (R174, R169 to R173). -/
def microAction (l : Latches) (row : Row) : MicroKind → Option Action
  | .fetch => none
  | .decode => none
  | .control => none
  | .execute => if (controlSignals row).flagWrite then some (.updateFlags l.nzcv) else none
  | .memory => if (controlSignals row).memWrite then some (.writeMemory l.res l.data .b8) else none
  | .writeBack =>
    if (controlSignals row).registerWrite then
      some (.writeRegister (fieldRd l.word) (if (controlSignals row).memRead then l.mem else l.res))
    else none
  | .branch => if l.taken then some (.setBranchTarget l.target) else none

/-- "a single interpreter applies" each descriptor (R174); a memory write may raise (R170). -/
def applyAction (s : State) : Action → Except Fault State
  | .writeRegister index value => .ok (s.setReg index value)
  | .writeMemory addr value size => memWrite s addr size value
  | .updateFlags flags => .ok { s with flags := flags }
  | .setBranchTarget pc => .ok { s with pc := pc }

/-- Apply an action if the micro-step has one. -/
def applyOptional (s : State) : Option Action → Except Fault State
  | none => .ok s
  | some action => applyAction s action

/-- Is this micro-step the last of its instruction (R165, R176)? -/
def MicroKind.isLast : MicroKind → Bool
  | .writeBack => true
  | .branch => true
  | .fetch => false
  | .decode => false
  | .control => false
  | .execute => false
  | .memory => false

/-- The end of the instruction after its last micro-step: the driver adopts the recorded target when the
branch was taken, else `pc + 4` (R173, R176). -/
def closeInstr (s : State) (row : Row) (k : MicroKind) : State :=
  let next := if (k == .branch) && s.lat.taken then s.pc else s.pc + 4
  s.endInstr next (disassemble row s.lat.word)

/-- The effect of a micro-step on the state that holds its latches, under the current row. -/
def commitRow (s : State) (row : Row) (k : MicroKind) : Except Fault State :=
  match applyOptional s (microAction s.lat row k) with
  | .error f => .error f
  | .ok s' => .ok (if k.isLast then closeInstr s' row k else s')

/-- Fetch, Decode and Control-Signal commit nothing (R174); the later ones commit under the latched row. -/
def microCommit (s : State) (k : MicroKind) : Except Fault State :=
  match s.lat.row with
  | none => .ok s
  | some row => commitRow s row k

/-- One micro-step: its latches, then its action (R166 to R173, R176). -/
def microBody (t : Table) (s : State) (k : MicroKind) : Except Fault State :=
  match microLatches t s k with
  | .error f => .error f
  | .ok l => microCommit { s with lat := l } k

/-- One step of the stepper (R175). While `finished` is set a step request does nothing (D34); a faulted
machine has no further step and answers with its fault (R35, log 1). A micro-step that raises makes no
change but the fault record (R178, R303); a completed one is recorded (R323). -/
def microStep (t : Table) (s : State) : Host.Outcome State Fault Refusal :=
  if s.finished then .next s
  else
    match s.fault with
    | some r => .fault r.kind
    | none =>
      match currentKind s.lat with
      | none => .refused .noSuchMicroStep
      | some k =>
        match microBody t s k with
        | .error f => .next (s.raise f)
        | .ok s' => .next s'.record

/-- Micro-steps up to the next instruction boundary or fault, at most `n` of them. -/
def runToBoundary (t : Table) : Nat → State → Host.Outcome State Fault Refusal
  | 0, s => .next s
  | n + 1, s =>
    match microStep t s with
    | .next s' => if s'.lat.idx = 0 || s'.fault.isSome then .next s' else runToBoundary t n s'
    | .fault f => .fault f
    | .refused r => .refused r

/-- Run to completion, at most `n` micro-steps: repeated steps until none is enabled (R182). -/
def runMicro (t : Table) : Nat → State → Host.Outcome State Fault Refusal
  | 0, s => .next s
  | n + 1, s =>
    if s.finished || s.fault.isSome then .next s
    else
      match microStep t s with
      | .next s' => runMicro t n s'
      | .fault f => .fault f
      | .refused r => .refused r

end Sys2Proof.Machine
end

