-- ==== Sys2Proof/Machine/Step.lean ====
section
/-! DEFINITION. One step of the machine: one whole instruction of the default table
(41_control_and_sequencer.md R175 to R179), and placing an instruction where the next step fetches. -/

namespace Sys2Proof.Machine

open Sys2Proof

/-- One instruction from an instruction boundary: Fetch, the decoder, and the instruction's own effect
(R166, R167, R179). A word no row matches raises `UnknownOpcode` at Decode (60_exceptions.md R304). -/
def instrStep (s : State) : Host.Outcome State Fault Refusal :=
  match s.fetchWord with
  | .error f => .next (s.raise f)
  | .ok w =>
    let s1 := (s.fetched w).record
    match decode w with
    | none => .next (s1.raise (.unknownOpcode (.word w)))
    | some i => exec i s1

/-- A step: nothing when finished (D34), the recorded fault when faulted (log 1), one whole instruction at a
boundary, and inside an instruction (where a host that asks for micro-steps stopped) the rest of it (log 15). -/
def step (s : State) : Host.Outcome State Fault Refusal :=
  if s.finished then .next s
  else
    match s.fault with
    | some r => .fault r.kind
    | none => if s.lat.idx = 0 then instrStep s else runToBoundary idtDefault 6 s

/-- A program with one word placed at instruction number `i`, zero words before it where it is shorter. -/
def placeWord (program : List InstrWord) (i : Nat) (w : InstrWord) : List InstrWord :=
  program.take i ++ List.replicate (i - program.length) 0 ++ [w] ++ program.drop (i + 1)

/-- The state with an instruction stored at the pc and the stepper ready to fetch it: it stands for a
program load that puts the word there (log 8). Bits above `nbits` are 0. -/
def State.withFetchWord (s : State) (nbits w : Nat) : State :=
  { s with program := placeWord s.program (s.pc.toNat / 4) (BitVec.ofNat 32 (w % 2 ^ nbits)),
           finished := false, fault := none, lat := { s.lat with idx := 0 } }

end Sys2Proof.Machine
end

