-- ==== Sys2Proof/Machine/Assembler.lean ====
section
/-! DEFINITION. The assembler, the second entry to the decoder (30_encoding.md R105 to R109), for any table. -/

namespace Sys2Proof.Machine

open Sys2Proof

/-- White space inside a line (R106). -/
def isBlank (c : Char) : Bool := c == ' ' || c == '\t'

/-- A text without leading and trailing blanks (D27). -/
def trim (t : Text) : Text := ((t.dropWhile isBlank).reverse.dropWhile isBlank).reverse

/-- The pieces of a text between its commas. -/
def splitComma : Text → List Text
  | [] => [[]]
  | c :: t =>
    if c = ',' then [] :: splitComma t
    else
      match splitComma t with
      | [] => [[c]]
      | h :: r => (c :: h) :: r

/-- The first word of a text, and what follows it without blanks (R106). -/
def splitWord (t : Text) : Text × Text := (t.takeWhile (!isBlank ·), trim (t.dropWhile (!isBlank ·)))

/-- The operands of a line: separated by commas, blanks around them free (R106). -/
def operandTexts (rest : Text) : List Text := if rest = [] then [] else (splitComma rest).map trim

/-- A decimal digit character. -/
def isDigitChar (c : Char) : Bool := decide (48 ≤ c.toNat) && decide (c.toNat ≤ 57)

/-- The value of the remaining digits after those already read. -/
def decimalValue : Text → Nat → Option Nat
  | [], acc => some acc
  | c :: t, acc => if isDigitChar c then decimalValue t (10 * acc + (c.toNat - 48)) else none

/-- A decimal number with at least one digit (R106); DESIGN CHOICE: leading zeros are accepted (log 10). -/
def parseNat (t : Text) : Option Nat := if t = [] then none else decimalValue t 0

/-- "a decimal integer with an optional leading `-`" (R106). -/
def parseInt (t : Text) : Option Int :=
  match t with
  | '-' :: d => (parseNat d).map fun n => -(n : Int)
  | d => (parseNat d).map fun n => (n : Int)

/-- A text without one given leading character, if it has it. -/
def dropLead (c : Char) (t : Text) : Text :=
  match t with
  | [] => []
  | d :: r => if d = c then trim r else d :: r

/-- A text without one given trailing character, if it has it. -/
def dropTrail (c : Char) (t : Text) : Text := (dropLead c t.reverse).reverse

/-- A register operand: `X<n>` with `n` 0 to 31, or `XZR`; it may carry a leading `[` (R106, R24).
DESIGN CHOICE: `n` may have leading zeros, so `X01` is `X1` and `X031` is `X31` (log 10). -/
def parseReg (token : Text) : Option Reg :=
  match dropLead '[' token with
  | 'X' :: d =>
    if d = ['Z', 'R'] then some 31
    else
      match parseNat d with
      | some n => if n ≤ 31 then some (BitVec.ofNat 5 n) else none
      | none => none
  | _ => none

/-- An immediate operand with its optional decoration: `[`, `#` before and `]` after (R106, log 10). -/
def parseImm (token : Text) : Option Int := parseInt (dropTrail ']' (dropLead '#' (dropLead '[' token)))

/-- The MOVZ suffix `LSL #s`, `s` in 0, 16, 32, 48 (R107, R108): its shift group `s / 16`.
DESIGN CHOICE: a blank must follow `LSL` (`LSL#16` is refused), and `s` is read as any immediate is, so it may
drop its `#`, carry `[` and `]`, and have leading zeros or a `-` before 0 (log 10). -/
def parseShiftGroup (token : Text) : Option Int :=
  let parts := splitWord token
  if parts.1 = "LSL".toList then
    match parseImm parts.2 with
    | some n => if n = 0 ∨ n = 16 ∨ n = 32 ∨ n = 48 then some (n / 16) else none
    | none => none
  else none

/-- A value to be written into bits `low..high` of a word. -/
structure FieldValue where
  value : InstrWord
  low : Nat
  high : Nat
deriving DecidableEq, Repr

/-- A register in its field. -/
def regField (low : Nat) (r : Reg) : FieldValue := { value := r.setWidth 32, low := low, high := low + 4 }

/-- An immediate in its field; `setBits` truncates it (R108). -/
def immField (low high : Nat) (i : Int) : FieldValue := { value := BitVec.ofInt 32 i, low := low, high := high }

/-- The operand fields of a line under a row, by format (R83 to R87, R107); none is `InvalidOperand`. -/
def operandFields (row : Row) (ops : List Text) : Option (List FieldValue) :=
  match row.format, ops with
  | .r, [d, n, m] =>
    if isShiftTag row.sig.operation then
      match parseReg d, parseReg n, parseImm m with
      | some rd, some rn, some sh => some [regField 0 rd, regField 5 rn, immField 10 15 sh]
      | _, _, _ => none
    else
      match parseReg d, parseReg n, parseReg m with
      | some rd, some rn, some rm => some [regField 0 rd, regField 5 rn, regField 16 rm]
      | _, _, _ => none
  | .i, [d, n, i] =>
    match parseReg d, parseReg n, parseImm i with
    | some rd, some rn, some imm => some [regField 0 rd, regField 5 rn, immField 10 21 imm]
    | _, _, _ => none
  | .d, [t, n, o] =>
    match parseReg t, parseReg n, parseImm o with
    | some rt, some rn, some off => some [regField 0 rt, regField 5 rn, immField 12 20 off]
    | _, _, _ => none
  | .b, [o] =>
    match parseImm o with
    | some off => some [immField 0 25 off]
    | none => none
  | .im, [d, i] =>
    match parseReg d, parseImm i with
    | some rd, some imm => some [regField 0 rd, immField 5 20 imm]
    | _, _ => none
  | .im, [d, i, s] =>
    match parseReg d, parseImm i, parseShiftGroup s with
    | some rd, some imm, some hw => some [regField 0 rd, immField 5 20 imm, immField 21 22 hw]
    | _, _, _ => none
  | _, _ => none

/-- Each value into its field by `setBits` (R109). -/
def putFields (w : InstrWord) : List FieldValue → Except Fault InstrWord
  | [] => .ok w
  | f :: fs =>
    match codecSet w f.value f.low f.high with
    | .error e => .error e
    | .ok w' => putFields w' fs

/-- An opcode pattern as a number, most significant bit first (R88). -/
def patternValue (bits : List Bool) : Nat := bits.foldl (fun acc b => 2 * acc + b.toNat) 0

/-- The opcode pattern in the opcode field, the top `W(f)` bits (R88). -/
def opcodeField (row : Row) : FieldValue :=
  { value := BitVec.ofNat 32 (patternValue row.opcode), low := 32 - row.format.opcodeWidth, high := 31 }

/-- One line to its word: "look up the definition by mnemonic, then construct the bit pattern", from 0 by
`setBits` (R106 to R109). -/
def assemble (t : Table) (line : Text) : Except Fault InstrWord :=
  let parts := splitWord (trim line)
  match t.find? fun row => row.mnemonic == parts.1 with
  | none => .error (.unknownOpcode (.line line))
  | some row =>
    match operandFields row (operandTexts parts.2) with
    | none => .error (.invalidOperand line)
    | some fields => putFields 0 (opcodeField row :: fields)

/-- A comment line: leading `//` or `#` (R105). -/
def isComment (t : Text) : Bool :=
  match t with
  | '/' :: '/' :: _ => true
  | '#' :: _ => true
  | _ => false

/-- The lines that remain when blank lines and comment lines are skipped, blanks stripped first (R105,
70_reset_and_hazards.md R353, D27). -/
def programLines (lines : List Text) : List Text :=
  (lines.map trim).filter fun t => !t.isEmpty && !isComment t

/-- Every line in order; the first that fails aborts with its error (R105). -/
def assembleAll (t : Table) : List Text → Except Fault (List InstrWord)
  | [] => .ok []
  | line :: lines =>
    match assemble t line with
    | .error e => .error e
    | .ok w =>
      match assembleAll t lines with
      | .error e => .error e
      | .ok ws => .ok (w :: ws)

/-- The text of a decoded instruction of the default table (R111). -/
def instrText (i : Instr) : Text := disassemble i.row (encode i)

end Sys2Proof.Machine
end

