-- ==== Sys2Proof/Machine/HostMoves.lean ====
section
/-! DEFINITION. What the host can do between micro-steps (60_exceptions.md R324, R326; 70 R350, R353;
00_scope.md R13). A move that fails answers its fault and one that is not allowed is refused: either way the
machine stays as it was. -/

namespace Sys2Proof.Machine

open Sys2Proof

/-! ### Reset and program load -/

/-- Reset (70_reset_and_hazards.md R350, 10_state.md R40): one transition (R351). The program, the capacity
and the history's maximum are kept. -/
def hostReset (s : State) : State :=
  { s with regs := Vector.replicate 31 0, pc := 0, flags := Flags.cleared, mem := [],
           lat := Latches.blank, finished := s.program.isEmpty, fault := none, last := [],
           history := History.empty }

/-- The first word of a program that no row matches, if any (R353). -/
def firstIllegal (t : Table) (words : List InstrWord) : Option InstrWord :=
  words.find? fun w => (Table.select t w).isNone

/-- Program load from words: each checked by `decode`, then install, reset, and record the initial snapshot
(R353, R323). A failed load leaves the machine unchanged (D13); no program runs under a table that fails
30_encoding.md R95 (R355). -/
def hostLoadWords (t : Table) (words : List InstrWord) (s : State) : Host.Outcome State Fault Refusal :=
  if Table.wellFormed t then
    match firstIllegal t words with
    | some w => .fault (.unknownOpcode (.word w))
    | none => .next (hostReset { s with program := words }).record
  else .refused .illFormedTable

/-- Program load from assembly lines (R353, 30_encoding.md R105). -/
def hostLoadText (t : Table) (lines : List Text) (s : State) : Host.Outcome State Fault Refusal :=
  if Table.wellFormed t then
    match assembleAll t (programLines lines) with
    | .error f => .fault f
    | .ok words => hostLoadWords t words s
  else .refused .illFormedTable

/-! ### Presets, allowed after load and before the first micro-step (R326, D33) -/

/-- No micro-step has run since load or reset: the index is 0, nothing was executed, no fault, and no
recorded future to which the machine could return (log 12). -/
def atStart (s : State) : Bool :=
  decide (s.lat.idx = 0) && s.last.isEmpty && s.fault.isNone
    && decide (s.history.cursor = (s.history.states.length : Int) - 1)

/-- Preset a register: an index outside 0 to 31 raises `InvalidRegisterIndex` (10_state.md R23); 31 is
discarded. DESIGN CHOICE: the index is a natural number, so a negative one cannot be asked for (log 17). -/
def hostPresetReg (index : Nat) (v : Word) (s : State) : Host.Outcome State Fault Refusal :=
  if atStart s then
    if index ≤ 31 then .next (s.setReg (BitVec.ofNat 5 index) v) else .fault (.invalidRegisterIndex index)
  else .refused .presetAfterStart

/-- Preset memory: `MemWrite` with its checks (R326). -/
def hostPresetMem (addr : Word) (size : AccessSize) (v : Word) (s : State) :
    Host.Outcome State Fault Refusal :=
  if atStart s then
    match memWrite s addr size v with
    | .error f => .fault f
    | .ok s' => .next s'
  else .refused .presetAfterStart

/-- Preset the four flags (R326). -/
def hostPresetFlags (f : Flags) (s : State) : Host.Outcome State Fault Refusal :=
  if atStart s then .next { s with flags := f } else .refused .presetAfterStart

/-! ### Stepping -/

/-- A request for one micro-step: when finished or faulted, "otherwise nothing happens" (R326, D34). -/
def hostMicroStep (t : Table) (s : State) : Host.Outcome State Fault Refusal :=
  if s.finished || s.fault.isSome then .next s else microStep t s

/-! ### Stepping the history back and forward (R320, R324) -/

/-- Evaluate the micro-steps below index `k` again for their latches only (R324, log 13). -/
def rebuildLatches (t : Table) : Nat → State → Except Fault State
  | 0, s => .ok s
  | k + 1, s =>
    match currentKind s.lat with
    | none => .ok s
    | some kind =>
      match microLatches t s kind with
      | .error f => .error f
      | .ok l => rebuildLatches t k { s with lat := l }

/-- The live state replaced by a snapshot, at an instruction boundary, the fault cleared (R324). -/
def State.restored (s : State) (x : Snapshot) : State :=
  { s with pc := x.pc, flags := x.flags, last := x.last, finished := x.finished, regs := x.regs,
           mem := x.mem, fault := none, lat := Latches.blank }

/-- Restore a snapshot and seek to its micro-step index (R324). -/
def State.restore (t : Table) (s : State) (x : Snapshot) : Host.Outcome State Fault Refusal :=
  match rebuildLatches t x.idx (s.restored x) with
  | .error _ => .refused .unreplayableSnapshot
  | .ok s' => if s'.lat.idx = x.idx then .next s' else .refused .unreplayableSnapshot

/-- Move to the state a moved cursor stands on; `NoHistory` at a boundary, nothing changed (R311, R320). -/
def navigate (t : Table) (moved : Option History) (s : State) : Host.Outcome State Fault Refusal :=
  match moved with
  | none => .fault .noHistory
  | some h =>
    match h.current with
    | none => .fault .noHistory
    | some x => ({ s with history := h } : State).restore t x

/-- Step back (R320, R324). -/
def hostStepBack (t : Table) (s : State) : Host.Outcome State Fault Refusal :=
  navigate t s.history.back s

/-- Step forward (R320, R324). -/
def hostStepForward (t : Table) (s : State) : Host.Outcome State Fault Refusal :=
  navigate t s.history.forward s

/-! ### The state export (00_scope.md R13) -/

/-- The numbers of the doublewords that hold a listed byte, each once, rising. -/
def doublewords : Memory → List Nat
  | [] => []
  | (a, _) :: m =>
    match doublewords m with
    | [] => [a / 8]
    | d :: ds => if a / 8 = d then d :: ds else a / 8 :: d :: ds

/-- The non-zero memory words as address and value pairs: aligned doublewords, little-endian (D36). -/
def memoryWords (m : Memory) : List (Nat × Word) :=
  (doublewords m).map fun d => (8 * d, readBytes m (8 * d) 8)

/-- What the block exposes after every micro-step, its display lists left out (R13, R5). -/
structure Exported where
  registers : List Word
  memory : List (Nat × Word)
  flags : Flags
  last : Text
  finished : Bool
deriving DecidableEq, Repr

/-- Read the export; it changes nothing (R13, R326). -/
def State.exported (s : State) : Exported :=
  { registers := (List.range 32).map fun i => s.reg (BitVec.ofNat 5 i), memory := memoryWords s.mem,
    flags := s.flags, last := s.last, finished := s.finished }

end Sys2Proof.Machine
end

