-- ==== Sys2Proof/Safety.lean ====
section
/-! DEFINITION. What a safe run and a legal state are, and the words the claims are written in: frames,
effects, encodings. -/

namespace Sys2Proof.Machine

open Sys2Proof

/-! ### Runs (41_control_and_sequencer.md R175, R183) -/

/-- The stepper is enabled: neither finished nor faulted (R175). -/
def Enabled (s : State) : Prop := s.finished = false ∧ s.fault = none

/-- An instruction boundary: `lat.idx = 0` (00_scope.md R14 glossary). -/
def AtBoundary (s : State) : Prop := s.lat.idx = 0

/-- A run has ended normally (R183). A faulted state is never a final state of a claim (60 R315). -/
def EndedNormally (s : State) : Prop := s.finished = true ∧ s.fault = none ∧ s.lat.idx = 0

/-- A run has ended abnormally (R183). -/
def EndedAbnormally (s : State) : Prop := s.fault ≠ none

/-- The error kinds a program that was checked at load can cause under the default table (60 R301). -/
def ProgramFault : Fault → Prop
  | .divisionByZero => True
  | .memoryOutOfBounds _ _ => True
  | .memoryMisaligned _ _ => True
  | .fetchOutOfProgram _ => True
  | .unknownOpcode _ => False
  | .invalidOperand _ => False
  | .unsupportedOperation _ => False
  | .invalidRegisterIndex _ => False
  | .noHistory => False
  | .invalidRange _ _ => False

/-- Every word of the loaded program decodes, as after a checked load (70 R353). -/
def ProgramDecodes (s : State) : Prop := ∀ w ∈ s.program, decode w ≠ none

/-! ### Legal states -/

/-- Memory in canonical form and inside the capacity (20_memory.md R50, R64). -/
def MemoryLegal (m : Memory) (capacity : Nat) : Prop :=
  Memory.wf m = true ∧ ∀ c ∈ m, c.1 < capacity

/-- A recorded snapshot is of a legal state: pc a multiple of 4, `finished` exactly at the end of the
program, memory legal. -/
def SnapshotLegal (x : Snapshot) (length capacity : Nat) : Prop :=
  x.pc.toNat % 4 = 0 ∧ (x.finished = true ↔ x.pc.toNat = 4 * length) ∧ MemoryLegal x.mem capacity

/-- The invariant of the machine: parameters legal (00_scope.md R8), memory canonical and inside the
capacity, pc and latched branch target multiples of 4 (10_state.md R28), `finished` exactly when the pc is
just past the last instruction (41 R177), the history's shape (60 R318, R322), every snapshot legal. -/
structure LegalState (s : State) : Prop where
  capacity : memCapacityOk s.memCapacity = true
  maximum : historyMaxOk s.historyMax = true
  memory : MemoryLegal s.mem s.memCapacity
  pcAligned : s.pc.toNat % 4 = 0
  targetAligned : s.lat.target.toNat % 4 = 0
  finishedAtEnd : s.finished = true ↔ s.pc.toNat = 4 * s.program.length
  history : History.wf s.history s.historyMax = true
  snapshots : ∀ x ∈ s.history.states, SnapshotLegal x s.program.length s.memCapacity

/-! ### Frames -/

/-- The parameters of the step relation are unchanged (10_state.md R39). -/
def SameParameters (s t : State) : Prop :=
  t.program = s.program ∧ t.memCapacity = s.memCapacity ∧ t.historyMax = s.historyMax

/-- Every byte of memory reads as before. -/
def SameMemory (s t : State) : Prop := ∀ x, getByte t.mem x = getByte s.mem x

/-- Every register reads as before. -/
def SameRegisters (s t : State) : Prop := ∀ r, t.reg r = s.reg r

/-- Every register but one reads as before. -/
def SameRegistersExcept (rd : Reg) (s t : State) : Prop := ∀ r, r ≠ rd → t.reg r = s.reg r

/-- The instruction has ended with the given pc (41 R176, R177): an instruction boundary, no new fault,
`finished` set if the pc is just past the last instruction. -/
def EndsAt (next : Word) (s t : State) : Prop :=
  t.pc = next ∧ t.lat.idx = 0 ∧ t.fault = s.fault ∧
    t.finished = (s.finished || decide (next.toNat = 4 * s.program.length))

/-- `x[rd] <- v` was the only register write; a write to register 31 is discarded (R22). -/
def WritesRegister (rd : Reg) (v : Word) (s t : State) : Prop :=
  t.reg rd = (if rd = 31#5 then 0#64 else v) ∧ SameRegistersExcept rd s t

/-- The whole effect of an instruction that writes one register, the flags given, and nothing else. -/
def AluEffect (rd : Reg) (v : Word) (f : Flags) (s t : State) : Prop :=
  WritesRegister rd v s t ∧ t.flags = f ∧ EndsAt (s.pc + 4) s t ∧ SameMemory s t ∧ SameParameters s t

/-- The whole effect of a branch: the pc chosen, nothing else. -/
def BranchEffect (next : Word) (s t : State) : Prop :=
  EndsAt next s t ∧ SameRegisters s t ∧ t.flags = s.flags ∧ SameMemory s t ∧ SameParameters s t

/-- An instruction that faulted has committed nothing: the fault record, pc still on the instruction, and
registers, flags, memory, `finished` and `last` as before (60 R303, 41 R178). -/
def FaultEffect (kind : Fault) (idx : Nat) (s t : State) : Prop :=
  t.fault = some { kind := kind, pc := s.pc, idx := idx } ∧ t.lat.idx = idx ∧ t.pc = s.pc ∧
    t.finished = s.finished ∧ t.last = s.last ∧ SameRegisters s t ∧ t.flags = s.flags ∧
    SameMemory s t ∧ SameParameters s t

/-- `exec` answers a next state, and that state satisfies the condition. -/
def AnswersNext (i : Instr) (s : State) (q : State → Prop) : Prop := ∃ t, exec i s = .next t ∧ q t

/-- The instruction completes: `exec` answers a next state in which `last` is its text (41 R176) and the
condition holds. -/
def Completes (i : Instr) (s : State) (q : State → Prop) : Prop :=
  ∃ t, exec i s = .next t ∧ t.last = instrText i ∧ q t

/-! ### Rules of one shape -/

/-- R format, operation no shift (30 R83, R93): any shamt decodes to the instruction, the encoder writes 0. -/
def EncodedRegister (mk : Reg → Reg → Reg → Instr) (opcode : BitVec 11) : Prop :=
  ∀ (rd rn rm : Reg) (shamt : BitVec 6),
    decode (opcode ++ rm ++ shamt ++ rn ++ rd) = some (mk rd rn rm) ∧
      encode (mk rd rn rm) = opcode ++ rm ++ 0#6 ++ rn ++ rd

/-- R format, operation a shift (30 R83, R93): any Rm field decodes to the instruction. -/
def EncodedShift (mk : Reg → Reg → BitVec 6 → Instr) (opcode : BitVec 11) : Prop :=
  ∀ (rd rn rm : Reg) (shamt : BitVec 6),
    decode (opcode ++ rm ++ shamt ++ rn ++ rd) = some (mk rd rn shamt) ∧
      encode (mk rd rn shamt) = opcode ++ 0#5 ++ shamt ++ rn ++ rd

/-- I format (30 R84). -/
def EncodedImmediate (mk : Reg → Reg → BitVec 12 → Instr) (opcode : BitVec 10) : Prop :=
  ∀ (rd rn : Reg) (imm12 : BitVec 12),
    decode (opcode ++ imm12 ++ rn ++ rd) = some (mk rd rn imm12) ∧
      encode (mk rd rn imm12) = opcode ++ imm12 ++ rn ++ rd

/-- D format (30 R85): any op2 decodes to the instruction, the encoder writes 0. -/
def EncodedData (mk : Reg → Reg → BitVec 9 → Instr) (opcode : BitVec 11) : Prop :=
  ∀ (rt rn : Reg) (off9 : BitVec 9) (op2 : BitVec 2),
    decode (opcode ++ off9 ++ op2 ++ rn ++ rt) = some (mk rt rn off9) ∧
      encode (mk rt rn off9) = opcode ++ off9 ++ 0#2 ++ rn ++ rt

/-- B format (30 R86). -/
def EncodedBranch (mk : BitVec 26 → Instr) (opcode : BitVec 6) : Prop :=
  ∀ off26 : BitVec 26, decode (opcode ++ off26) = some (mk off26) ∧ encode (mk off26) = opcode ++ off26

/-- A register instruction completes in every state, writing the given function of its operands and leaving
the flags. -/
def RegisterResult (mk : Reg → Reg → Reg → Instr) (f : Word → Word → Word) : Prop :=
  ∀ (rd rn rm : Reg) (s : State),
    Completes (mk rd rn rm) s (AluEffect rd (f (s.reg rn) (s.reg rm)) s.flags s)

/-- A flag-writing register instruction completes in every state with the given result and four flags. -/
def RegisterResultFlags (mk : Reg → Reg → Reg → Instr) (f : Word → Word → Word)
    (g : Word → Word → Flags) : Prop :=
  ∀ (rd rn rm : Reg) (s : State),
    Completes (mk rd rn rm) s
      (AluEffect rd (f (s.reg rn) (s.reg rm)) (g (s.reg rn) (s.reg rm)) s)

/-- A shift by shamt completes in every state, leaving the flags (30 R102). -/
def ShiftResult (mk : Reg → Reg → BitVec 6 → Instr) (f : Word → Nat → Word) : Prop :=
  ∀ (rd rn : Reg) (shamt : BitVec 6) (s : State),
    Completes (mk rd rn shamt) s (AluEffect rd (f (s.reg rn) shamt.toNat) s.flags s)

/-- An immediate instruction completes in every state; the immediate is zero-extended (30 R98). -/
def ImmediateResult (mk : Reg → Reg → BitVec 12 → Instr) (f : Word → Word → Word) : Prop :=
  ∀ (rd rn : Reg) (imm12 : BitVec 12) (s : State),
    Completes (mk rd rn imm12) s
      (AluEffect rd (f (s.reg rn) (BitVec.ofNat 64 imm12.toNat)) s.flags s)

/-- A flag-writing immediate instruction completes in every state. -/
def ImmediateResultFlags (mk : Reg → Reg → BitVec 12 → Instr) (f : Word → Word → Word)
    (g : Word → Word → Flags) : Prop :=
  ∀ (rd rn : Reg) (imm12 : BitVec 12) (s : State),
    Completes (mk rd rn imm12) s
      (AluEffect rd (f (s.reg rn) (BitVec.ofNat 64 imm12.toNat))
        (g (s.reg rn) (BitVec.ofNat 64 imm12.toNat)) s)

/-- A branch completes in every state: to its target when the condition holds of the flags before it, else
to `pc + 4` (46_b_format.md). The offset counts instructions, signed (30 R100). -/
def BranchResult (mk : BitVec 26 → Instr) (cond : Flags → Bool) : Prop :=
  ∀ (off26 : BitVec 26) (s : State),
    Completes (mk off26) s
      (BranchEffect
        (if cond s.flags then s.pc + BitVec.ofInt 64 (4 * off26.toInt) else s.pc + 4) s)

/-- The branch instruction completes with its offset's target exactly when the proposition holds, and with
`pc + 4` otherwise. -/
def BranchesOn (i : Instr) (off26 : BitVec 26) (t : State) (p : Prop) : Prop :=
  AnswersNext i t fun u =>
    (p → u.pc = t.pc + BitVec.ofInt 64 (4 * off26.toInt)) ∧ (¬ p → u.pc = t.pc + 4)

/-- The flags of an add, by the exact formulas of 40_alu.md R121 and R136. -/
def addFlagsSpec (a b : Word) : Flags :=
  { n := (a + b).msb, z := decide (a + b = 0#64), c := decide (2 ^ 64 ≤ a.toNat + b.toNat),
    v := decide (a.msb = b.msb ∧ (a + b).msb ≠ a.msb) }

/-- The flags of a subtract, by the exact formulas of 40_alu.md R122 and R136. -/
def subFlagsSpec (a b : Word) : Flags :=
  { n := (a - b).msb, z := decide (a - b = 0#64), c := decide (b.toNat ≤ a.toNat),
    v := decide (a.msb ≠ b.msb ∧ (a - b).msb = b.msb) }

/-- The flags of a logical operation with result `r`: `c` and `v` cleared (40_alu.md R136, R137). -/
def logicFlagsSpec (r : Word) : Flags := { n := r.msb, z := decide (r = 0#64), c := false, v := false }

/-- The bits of a word its row does not ignore (30_encoding.md R93). -/
def keptBits (row : Row) : InstrWord :=
  match row.format with
  | .r => if isShiftTag row.sig.operation then ~~~(0x1F#32 <<< 16) else ~~~(0x3F#32 <<< 10)
  | .d => ~~~(0x3#32 <<< 10)
  | .i => BitVec.allOnes 32
  | .b => BitVec.allOnes 32
  | .im => BitVec.allOnes 32

/-- Does a row's pattern equal the word's opcode field for the row's format (30_encoding.md R88)? -/
def RowMatches (row : Row) (w : InstrWord) : Prop := row.opcode = topBits row.format.opcodeWidth w

/-- The place of a format in the decoder's trial order (30_encoding.md R90). -/
def formatRank : Format → Nat
  | .r => 0
  | .i => 1
  | .d => 2
  | .b => 3
  | .im => 4

/-- Does an instruction's row write the flags (10_state.md R31)? -/
def writesFlags : Instr → Bool
  | .adds _ _ _ => true
  | .subs _ _ _ => true
  | .ands _ _ _ => true
  | .addis _ _ _ => true
  | .subis _ _ _ => true
  | .andis _ _ _ => true
  | _ => false

/-- Is the instruction the store (the one that can change data memory)? -/
def isStore : Instr → Bool
  | .stur _ _ _ => true
  | _ => false

/-- A snapshot that shows the live state. -/
def Shows (x : Snapshot) (s : State) : Prop :=
  x.pc = s.pc ∧ x.flags = s.flags ∧ x.last = s.last ∧ x.finished = s.finished ∧ x.idx = s.lat.idx ∧
    x.regs = s.regs ∧ x.mem = s.mem

/-- Two sets of latches inside one instruction agree on the index and on every latch that its micro-steps below
the index have written (41_control_and_sequencer.md R166 to R170). -/
structure WrittenLatchesAgree (l l' : Latches) : Prop where
  index : l'.idx = l.idx
  fetched : 1 ≤ l.idx → l'.word = l.word
  decoded : 2 ≤ l.idx → l'.row = l.row
  operands : ∀ row, 2 ≤ l.idx → l.row = some row → row.format ≠ .b → l'.a = l.a ∧ l'.b = l.b
  storeData : ∀ row, 2 ≤ l.idx → l.row = some row → row.sig.memWrite = true → l'.data = l.data
  target : ∀ row, 2 ≤ l.idx → l.row = some row → row.format = .b → l'.target = l.target
  taken : ∀ row, 3 ≤ l.idx → l.row = some row → row.format = .b → l'.taken = l.taken
  result : 4 ≤ l.idx → l'.res = l.res ∧ l'.nzcv = l.nzcv
  loadedData : ∀ row, 5 ≤ l.idx → l.row = some row → row.sig.memRead = true → l'.mem = l.mem

end Sys2Proof.Machine
end

