-- ==== Sys2Proof/Certificates/Slice0/Obligations.lean ====
section
/-! DEFINITION. The statements for the provers, in the order of the specification. Each docstring names the
rule or section it formalises; OBLIGATIONS.json gives the rule's own words. -/

open Sys2Proof Sys2Proof.Machine

/-! ### The codec, the table and the decoder (30_encoding.md) -/

/-- R80, R81: `extractBits` gives the bits of the range, zero elsewhere; `setBits` replaces them and leaves
every other bit; both fail exactly when `low > high` or a bit number exceeds 31. -/
def Obligations.CodecReadsAndReplacesBits : Prop :=
  ∀ (w v : InstrWord) (low high : Nat),
    (low ≤ high ∧ high ≤ 31 →
      (∃ r, codecExtract w low high = .ok r ∧
        ∀ i, r.getLsbD i = (decide (i ≤ high - low) && w.getLsbD (low + i))) ∧
      (∃ r, codecSet w v low high = .ok r ∧
        ∀ i < 32, r.getLsbD i = if low ≤ i ∧ i ≤ high then v.getLsbD (i - low) else w.getLsbD i)) ∧
    (high < low ∨ 31 < high →
      codecExtract w low high = .error (.invalidRange low high) ∧
      codecSet w v low high = .error (.invalidRange low high))

/-- R90: the row a word selects under any table is a row that matches it, of the earliest format in the
order R, I, D, B, IM with a matching row, and the first such row of its format in table order. -/
def Obligations.DecoderTakesFirstMatch : Prop :=
  ∀ (t : Table) (w : InstrWord) (r : Row), Table.select t w = some r →
    r ∈ t ∧ RowMatches r w ∧
    (∀ q ∈ t, RowMatches q w → formatRank r.format ≤ formatRank q.format) ∧
    (∃ before after, t = before ++ r :: after ∧
      ∀ q ∈ before, q.format = r.format → ¬ RowMatches q w)

/-- R91: every word either selects a row or is illegal, and an illegal word raises `UnknownOpcode` with the
word at the Decode micro-step. -/
def Obligations.UnmatchedWordIsIllegal : Prop :=
  ∀ (t : Table) (s : State),
    ((∀ r ∈ t, ¬ RowMatches r s.lat.word) ↔ Table.select t s.lat.word = none) ∧
    ((∀ r ∈ t, ¬ RowMatches r s.lat.word) →
      microBody t s .decode = .error (.unknownOpcode (.word s.lat.word)))

/-- 30_encoding.md section 4 (its inference "prefix-free", R92): under the default table at most one row
matches a word, whatever the order of trial, and the table is well-formed. -/
def Obligations.DefaultTableIsUnambiguous : Prop :=
  Table.wellFormed idtDefault = true ∧ idtDefault.length = 34 ∧
  ∀ (w : InstrWord) (q r : Row), q ∈ idtDefault → r ∈ idtDefault → RowMatches q w → RowMatches r w → q = r

/-- 30_encoding.md R95: what the seven clauses of table well-formedness say, and that any
other table is refused, at program load from words and from text: where it is refused is the model's choice, log
entry 2 (70_reset_and_hazards.md R355 speaks of installing the table). -/
def Obligations.WellFormedTableMeansSevenClauses : Prop :=
  (∀ t : Table, Table.wellFormed t = true ↔
    (∀ r ∈ t, r.opcode.length = r.format.opcodeWidth) ∧
    ((t.map fun r => (r.format, r.opcode)).Nodup ∧ (t.map fun r => r.mnemonic).Nodup) ∧
    (∀ r ∈ t, r.sig.zeroBranch = false) ∧
    (∀ r ∈ t, (r.format = .b → r.sig.flagBranch ≠ r.sig.uncondBranch ∧ r.sig.registerWrite = false ∧
        r.sig.memRead = false ∧ r.sig.memWrite = false ∧ r.sig.memToReg = false ∧
        r.sig.flagWrite = false) ∧
      (r.format ≠ .b → r.sig.flagBranch = false ∧ r.sig.uncondBranch = false)) ∧
    (∀ r ∈ t, r.format = .d → r.sig.memRead ≠ r.sig.memWrite ∧
      (r.sig.memRead = true → r.sig.registerWrite = true ∧ r.sig.memToReg = true) ∧
      (r.sig.memWrite = true → r.sig.registerWrite = false ∧ r.sig.memToReg = false) ∧
      r.sig.flagWrite = false ∧ r.sig.operation = "ADD".toList) ∧
    (∀ r ∈ t, (r.format = .r ∨ r.format = .i ∨ r.format = .im) →
      r.sig.memRead = false ∧ r.sig.memWrite = false ∧ r.sig.memToReg = false) ∧
    (∀ r ∈ t, r.format = .im → r.sig.operation = "PASS".toList)) ∧
  (∀ (t : Table) (words : List InstrWord) (lines : List Text) (s : State), Table.wellFormed t = false →
    hostLoadWords t words s = .refused .illFormedTable ∧ hostLoadText t lines s = .refused .illFormedTable)

/-- Headline: the decoder reads back every instruction from the word the encoder writes for it, with every
operand at every value its field admits. -/
def Obligations.DecodeEncodeRoundTrip : Prop :=
  ∀ i : Instr, Instr.wellFormed i = true → decode (encode i) = some i

/-- The other direction: a word that decodes is the encoder's word of its instruction but for the bits its
row ignores, which the encoder writes as 0. -/
def Obligations.EncodeOfDecodeKeepsEveryReadBit : Prop :=
  ∀ (w : InstrWord) (i : Instr), decode w = some i → encode i = w &&& keptBits i.row

/-- R93: a word with any value in the ignored bits decodes to the same instruction, with the same effect: a step
of a machine whose program has the other word at the pc gives the same state, but for that word in the program
and in the latch that holds it; the assembler writes the ignored bits as 0, as the encoder does; and the rule's
two words are both `MUL X3, X1, X2`. -/
def Obligations.IgnoredBitsDoNotAffectDecoding : Prop :=
  (∀ (w w' : InstrWord) (i : Instr), decode w = some i →
    w &&& keptBits i.row = w' &&& keptBits i.row → decode w' = some i) ∧
  (∀ (s : State) (w w' : InstrWord) (i : Instr), Enabled s → AtBoundary s →
    s.program[s.pc.toNat / 4]? = some w → decode w = some i →
    w &&& keptBits i.row = w' &&& keptBits i.row →
    ∃ t, step s = .next t ∧
      step { s with program := s.program.set (s.pc.toNat / 4) w' } =
        .next { t with program := s.program.set (s.pc.toNat / 4) w', lat := { t.lat with word := w' } }) ∧
  (∀ (line : Text) (w : InstrWord), assemble idtDefault line = .ok w →
    ∃ i, decode w = some i ∧ w &&& ~~~(keptBits i.row) = 0#32) ∧
  (∀ i : Instr, encode i &&& ~~~(keptBits i.row) = 0#32) ∧
  decode 0x9B027C23#32 = some (.mul 3 1 2) ∧ decode 0x9B020023#32 = some (.mul 3 1 2)

/-- Words of 95_test_vectors.md section 3, of every format, and illegal words it lists. -/
def Obligations.PublishedWordsDecode : Prop :=
  decode 0x8B020023#32 = some (.add 3 1 2) ∧
  decode 0xEB04007F#32 = some (.subs 31 3 4) ∧
  decode 0x9AC20C23#32 = some (.sdiv 3 1 2) ∧
  decode 0xD37FFC23#32 = some (.lsl 3 1 63) ∧
  decode 0xD13FFC22#32 = some (.subi 2 1 4095) ∧
  decode 0xD2FFFFE1#32 = some (.movz 1 65535 3) ∧
  decode 0xF85F8023#32 = some (.ldur 3 1 504) ∧
  decode 0xF8008122#32 = some (.stur 2 9 8) ∧
  decode 0x17FFFFFF#32 = some (.b 67108863) ∧
  decode 0x77FFFFFC#32 = some (.bLe 67108860) ∧
  decode 0x00000000#32 = none ∧ decode 0xFFFFFFFF#32 = none ∧ decode 0x54000040#32 = none ∧
  decode 0xF2800000#32 = none ∧ decode 0x48000000#32 = none

/-- Headline, 30_encoding.md R110 for the canonical text of R111: assembling the canonical text of any
instruction gives its word, which decodes to the instruction. -/
def Obligations.CanonicalTextAssembles : Prop :=
  ∀ i : Instr, assemble idtDefault (instrText i) = .ok (encode i) ∧ decode (encode i) = some i

/-! ### The ALU (40_alu.md) -/

/-- R121, R122, R123, R136: result and flags of the add and subtract family, by their exact formulas. -/
def Obligations.AluAddAndSubtract : Prop :=
  ∀ a b : Word,
    (∀ tag ∈ ["ADD".toList, "ADDS".toList],
      aluTag a b tag = .ok { value := BitVec.ofNat 64 ((a.toNat + b.toNat) % 2 ^ 64),
                             flags := addFlagsSpec a b }) ∧
    (∀ tag ∈ ["SUB".toList, "SUBS".toList, "CMP".toList],
      aluTag a b tag = .ok { value := BitVec.ofInt 64 ((a.toNat - b.toNat : Int) % 2 ^ 64),
                             flags := subFlagsSpec a b })

/-- 40_alu.md section 2 (its inference from R122): what the four flags of a subtraction tell. -/
def Obligations.SubtractionFlagsTellTheOrder : Prop :=
  ∀ (a b : Word) (r : AluResult), aluTag a b "SUBS".toList = .ok r →
    (r.flags.z = true ↔ a = b) ∧
    (r.flags.c = true ↔ b.toNat ≤ a.toNat) ∧
    (r.flags.n ≠ r.flags.v ↔ a.toInt < b.toInt) ∧
    (r.flags.n = r.flags.v ↔ b.toInt ≤ a.toInt) ∧
    (r.flags.z = false ∧ r.flags.n = r.flags.v ↔ b.toInt < a.toInt) ∧
    (r.flags.z = true ∨ r.flags.n ≠ r.flags.v ↔ a.toInt ≤ b.toInt)

/-- R124, R125, R126, R135, R136, R137: the bitwise operations and PASS; `c` and `v` are false. -/
def Obligations.AluBitwiseAndPass : Prop :=
  ∀ a b : Word,
    aluTag a b "AND".toList = .ok { value := a &&& b, flags := logicFlagsSpec (a &&& b) } ∧
    aluTag a b "ORR".toList = .ok { value := a ||| b, flags := logicFlagsSpec (a ||| b) } ∧
    aluTag a b "EOR".toList = .ok { value := a ^^^ b, flags := logicFlagsSpec (a ^^^ b) } ∧
    aluTag a b "PASS".toList = .ok { value := b, flags := logicFlagsSpec b }

/-- R127, R128, R129: the low half of the product and its two high halves, on exact integers. -/
def Obligations.AluProducts : Prop :=
  ∀ a b : Word, ∃ low signed unsigned : Word,
    aluTag a b "MUL".toList = .ok { value := low, flags := logicFlagsSpec low } ∧
    aluTag a b "SMULH".toList = .ok { value := signed, flags := logicFlagsSpec signed } ∧
    aluTag a b "UMULH".toList = .ok { value := unsigned, flags := logicFlagsSpec unsigned } ∧
    low.toNat = (a.toNat * b.toNat) % 2 ^ 64 ∧
    signed.toInt * 2 ^ 64 + low.toNat = a.toInt * b.toInt ∧
    unsigned.toNat * 2 ^ 64 + low.toNat = a.toNat * b.toNat

/-- R130, R131: division by zero raises for every dividend; otherwise the signed quotient rounded toward
zero, the one that does not fit wrapping to the most negative value, and the unsigned quotient. -/
def Obligations.AluDivision : Prop :=
  ∀ a b : Word,
    (b = 0#64 → aluTag a b "SDIV".toList = .error .divisionByZero ∧
      aluTag a b "UDIV".toList = .error .divisionByZero) ∧
    (b ≠ 0#64 → ∃ q u : Word,
      aluTag a b "SDIV".toList = .ok { value := q, flags := logicFlagsSpec q } ∧
      aluTag a b "UDIV".toList = .ok { value := u, flags := logicFlagsSpec u } ∧
      u.toNat = a.toNat / b.toNat ∧
      (a.toInt = -2 ^ 63 ∧ b.toInt = -1 → q = 0x8000000000000000#64) ∧
      (¬ (a.toInt = -2 ^ 63 ∧ b.toInt = -1) → q.toInt = a.toInt.tdiv b.toInt))

/-- R132, R133, R134: the shifts as integer operations, the distance being the low six bits of `b`. -/
def Obligations.AluShifts : Prop :=
  ∀ a b : Word, ∃ l r s : Word,
    aluTag a b "LSL".toList = .ok { value := l, flags := logicFlagsSpec l } ∧
    aluTag a b "LSR".toList = .ok { value := r, flags := logicFlagsSpec r } ∧
    aluTag a b "ASR".toList = .ok { value := s, flags := logicFlagsSpec s } ∧
    l.toNat = (a.toNat * 2 ^ (b.toNat % 64)) % 2 ^ 64 ∧
    r.toNat = a.toNat / 2 ^ (b.toNat % 64) ∧
    s.toInt = a.toInt / 2 ^ (b.toNat % 64)

/-- R139: any tag outside the seventeen fails with `UnsupportedOperation`, by exact spelling. -/
def Obligations.UnknownTagIsUnsupported : Prop :=
  ∀ (a b : Word) (tag : Text),
    tag ∉ ["ADD".toList, "ADDS".toList, "SUB".toList, "SUBS".toList, "CMP".toList, "AND".toList,
           "ORR".toList, "EOR".toList, "MUL".toList, "SMULH".toList, "UMULH".toList, "SDIV".toList,
           "UDIV".toList, "LSL".toList, "LSR".toList, "ASR".toList, "PASS".toList] ↔
    aluTag a b tag = .error (.unsupportedOperation tag)

/-- 40_alu.md section 8 (its inferred laws): `n` and `z` are never both 1; outside the add and subtract family
`c` and `v` are 0; for an add `c` and `v` are independent; the only faulting operands are a zero divisor. -/
def Obligations.AluLaws : Prop :=
  (∀ (a b : Word) (op : AluOp) (r : AluResult), alu a b op = .ok r →
    ¬ (r.flags.n = true ∧ r.flags.z = true) ∧
    (op ∉ [AluOp.add, .adds, .sub, .subs, .cmp] → r.flags.c = false ∧ r.flags.v = false)) ∧
  (∀ c v : Bool, ∃ (a b : Word) (r : AluResult), alu a b .add = .ok r ∧ r.flags.c = c ∧ r.flags.v = v) ∧
  (∀ (a b : Word) (op : AluOp),
    (∃ f, alu a b op = .error f) ↔ (b = 0#64 ∧ (op = .sdiv ∨ op = .udiv)))

/-! ### Registers and memory (10_state.md, 20_memory.md) -/

/-- R21, R22: register 31 reads 0 in every state and a write to it leaves all state unchanged; a write to any
other register is read back and leaves every other register. -/
def Obligations.RegisterThirtyOneIsStructuralZero : Prop :=
  ∀ (s : State) (v : Word),
    s.reg 31 = 0 ∧ s.setReg 31 v = s ∧
    ∀ r : Reg, r ≠ 31 → (s.setReg r v).reg r = v ∧ ∀ q : Reg, q ≠ r → (s.setReg r v).reg q = s.reg q

/-- R53, R54, R55: the bounds check on the signed address, then the alignment check. -/
def Obligations.AccessCheckIsBoundsThenAlignment : Prop :=
  ∀ (capacity : Nat) (addr : Word) (size : AccessSize),
    checkAccess capacity addr size.bytes =
      if 0 ≤ addr.toInt ∧ addr.toInt + size.bytes ≤ capacity then
        if addr.toNat % size.bytes = 0 then .ok () else .error (.memoryMisaligned addr size.bytes)
      else .error (.memoryOutOfBounds addr size.bytes)

/-- R56: a read that passes the checks gives byte `k` of its value from address `addr + k`, and one that does
not raises what the check raised. -/
def Obligations.ReadAssemblesBytesLittleEndian : Prop :=
  ∀ (s : State) (addr : Word) (size : AccessSize),
    (∀ f, checkAccess s.memCapacity addr size.bytes = .error f → memRead s addr size = .error f) ∧
    (checkAccess s.memCapacity addr size.bytes = .ok () →
      ∃ v, memRead s addr size = .ok v ∧ v.toNat < 2 ^ (8 * size.bytes) ∧
        ∀ k < size.bytes, v.extractLsb' (8 * k) 8 = getByte s.mem (addr.toNat + k))

/-- R57, R58: a write that passes the checks sets exactly its bytes and changes nothing else, and one that does
not changes nothing; the memory stays in canonical form. -/
def Obligations.WritePlacesBytesLittleEndian : Prop :=
  ∀ (s : State) (addr v : Word) (size : AccessSize), Memory.wf s.mem = true →
    (∀ f, checkAccess s.memCapacity addr size.bytes = .error f → memWrite s addr size v = .error f) ∧
    (checkAccess s.memCapacity addr size.bytes = .ok () →
      ∃ t, memWrite s addr size v = .ok t ∧ Memory.wf t.mem = true ∧ t = { s with mem := t.mem } ∧
        ∀ x, getByte t.mem x =
          if addr.toNat ≤ x ∧ x < addr.toNat + size.bytes then v.extractLsb' (8 * (x - addr.toNat)) 8
          else getByte s.mem x)

/-- 20_memory.md R63, R66: a load from an address just stored to gives the stored value: STUR then LDUR with
the same base and offset. -/
def Obligations.LoadSeesTheLatestStore : Prop :=
  ∀ (s t : State) (rt rn rd : Reg) (off9 : BitVec 9), Memory.wf s.mem = true →
    checkAccess s.memCapacity (effectiveAddress s rn off9) 8 = .ok () →
    exec (.stur rt rn off9) s = .next t →
    AnswersNext (.ldur rd rn off9) t fun u => u.reg rd = (if rd = 31#5 then 0#64 else s.reg rt)

/-! ### The instructions (42_r_format.md to 46_b_format.md) -/

/-- R200, R201: ADD and SUB. -/
def Obligations.AddSubRule : Prop :=
  EncodedRegister .add 0b10001011000 ∧ RegisterResult .add (fun a b => a + b) ∧
  EncodedRegister .sub 0b11001011000 ∧ RegisterResult .sub (fun a b => a - b)

/-- R202, R203: ADDS and SUBS, all four flags. -/
def Obligations.AddsSubsRule : Prop :=
  EncodedRegister .adds 0b10101011000 ∧ RegisterResultFlags .adds (fun a b => a + b) addFlagsSpec ∧
  EncodedRegister .subs 0b11101011000 ∧ RegisterResultFlags .subs (fun a b => a - b) subFlagsSpec

/-- R204, R205, R206, R207: AND, ORR, EOR and ANDS; ANDS clears `C` and `V`. -/
def Obligations.LogicalRule : Prop :=
  EncodedRegister .and 0b10001010000 ∧ RegisterResult .and (fun a b => a &&& b) ∧
  EncodedRegister .orr 0b10101010000 ∧ RegisterResult .orr (fun a b => a ||| b) ∧
  EncodedRegister .eor 0b11001010000 ∧ RegisterResult .eor (fun a b => a ^^^ b) ∧
  EncodedRegister .ands 0b11101010000 ∧
  RegisterResultFlags .ands (fun a b => a &&& b) (fun a b => logicFlagsSpec (a &&& b))

/-- R208, R209, R210: MUL, SMULH and UMULH. -/
def Obligations.MultiplyRule : Prop :=
  EncodedRegister .mul 0b10011011000 ∧
  RegisterResult .mul (fun a b => BitVec.ofNat 64 (a.toNat * b.toNat)) ∧
  EncodedRegister .smulh 0b10011011010 ∧
  RegisterResult .smulh (fun a b => BitVec.ofInt 64 ((a.toInt * b.toInt) / 2 ^ 64)) ∧
  EncodedRegister .umulh 0b10011011110 ∧
  RegisterResult .umulh (fun a b => BitVec.ofNat 64 ((a.toNat * b.toNat) / 2 ^ 64))

/-- R211, R212: SDIV and UDIV complete for every divisor but 0, and raise `DivisionByZero` at Execute for
divisor 0, whatever the dividend and the destination, having written nothing. -/
def Obligations.DivideRule : Prop :=
  EncodedRegister .sdiv 0b10011010110 ∧ EncodedRegister .udiv 0b10011010111 ∧
  ∀ (rd rn rm : Reg) (s : State),
    (s.reg rm ≠ 0#64 →
      Completes (.sdiv rd rn rm) s
        (AluEffect rd (BitVec.ofInt 64 ((s.reg rn).toInt.tdiv (s.reg rm).toInt)) s.flags s) ∧
      Completes (.udiv rd rn rm) s
        (AluEffect rd (BitVec.ofNat 64 ((s.reg rn).toNat / (s.reg rm).toNat)) s.flags s)) ∧
    (s.reg rm = 0#64 →
      AnswersNext (.sdiv rd rn rm) s (FaultEffect .divisionByZero 3 s) ∧
      AnswersNext (.udiv rd rn rm) s (FaultEffect .divisionByZero 3 s))

/-- R213, R214, R215: LSL, LSR and ASR by shamt. -/
def Obligations.ShiftRule : Prop :=
  EncodedShift .lsl 0b11010011011 ∧
  ShiftResult .lsl (fun a d => BitVec.ofNat 64 (a.toNat * 2 ^ d)) ∧
  EncodedShift .lsr 0b11010011010 ∧
  ShiftResult .lsr (fun a d => BitVec.ofNat 64 (a.toNat / 2 ^ d)) ∧
  EncodedShift .asr 0b11010011100 ∧
  ShiftResult .asr (fun a d => BitVec.ofInt 64 (a.toInt / 2 ^ d))

/-- R230, R231, R232, R233: ADDI, SUBI, ADDIS and SUBIS, the immediate zero-extended. -/
def Obligations.ImmediateArithmeticRule : Prop :=
  EncodedImmediate .addi 0b1001000100 ∧ ImmediateResult .addi (fun a b => a + b) ∧
  EncodedImmediate .subi 0b1101000100 ∧ ImmediateResult .subi (fun a b => a - b) ∧
  EncodedImmediate .addis 0b1011000100 ∧
  ImmediateResultFlags .addis (fun a b => a + b) addFlagsSpec ∧
  EncodedImmediate .subis 0b1111000100 ∧
  ImmediateResultFlags .subis (fun a b => a - b) subFlagsSpec

/-- R234, R235, R236, R237: ANDI, ORRI, EORI and ANDIS; the `N` of ANDIS is always 0, its `C` and `V` are
cleared. -/
def Obligations.ImmediateLogicRule : Prop :=
  EncodedImmediate .andi 0b1001001000 ∧ ImmediateResult .andi (fun a b => a &&& b) ∧
  EncodedImmediate .orri 0b1011001000 ∧ ImmediateResult .orri (fun a b => a ||| b) ∧
  EncodedImmediate .eori 0b1101001000 ∧ ImmediateResult .eori (fun a b => a ^^^ b) ∧
  EncodedImmediate .andis 0b1111001000 ∧
  ImmediateResultFlags .andis (fun a b => a &&& b)
    (fun a b => { n := false, z := decide (a &&& b = 0#64), c := false, v := false })

/-- R250: MOVZ writes all 64 bits: the immediate at bits `16 hw + 15` to `16 hw`, zero everywhere else. -/
def Obligations.MovzRule : Prop :=
  ∀ (rd : Reg) (imm16 : BitVec 16) (hw : BitVec 2) (s : State),
    decode (0b110100101#9 ++ hw ++ imm16 ++ rd) = some (.movz rd imm16 hw) ∧
    encode (.movz rd imm16 hw) = 0b110100101#9 ++ hw ++ imm16 ++ rd ∧
    Completes (.movz rd imm16 hw) s
      (AluEffect rd (BitVec.ofNat 64 (imm16.toNat * 2 ^ (16 * hw.toNat))) s.flags s)

/-- R260: LDUR completes when its doubleword is inside the memory and aligned, and raises at Memory-Access
otherwise, bounds first, having written nothing. -/
def Obligations.LdurRule : Prop :=
  EncodedData .ldur 0b11111000010 ∧
  ∀ (rt rn : Reg) (off9 : BitVec 9) (s : State) (addr : Word),
    addr = s.reg rn + BitVec.ofInt 64 off9.toInt →
    (0 ≤ addr.toInt ∧ addr.toInt + 8 ≤ s.memCapacity ∧ addr.toNat % 8 = 0 →
      ∃ v : Word, (∀ k < 8, v.extractLsb' (8 * k) 8 = getByte s.mem (addr.toNat + k)) ∧
        Completes (.ldur rt rn off9) s (AluEffect rt v s.flags s)) ∧
    (¬ (0 ≤ addr.toInt ∧ addr.toInt + 8 ≤ s.memCapacity) →
      AnswersNext (.ldur rt rn off9) s (FaultEffect (.memoryOutOfBounds addr 8) 4 s)) ∧
    (0 ≤ addr.toInt ∧ addr.toInt + 8 ≤ s.memCapacity ∧ addr.toNat % 8 ≠ 0 →
      AnswersNext (.ldur rt rn off9) s (FaultEffect (.memoryMisaligned addr 8) 4 s))

/-- R261: STUR completes when its doubleword is inside the memory and aligned: its eight bytes are those of
`x[Rt]` as read before anything was written, every other byte and every register as before; it raises at
Memory-Access otherwise, no byte changed. -/
def Obligations.SturRule : Prop :=
  EncodedData .stur 0b11111000000 ∧
  ∀ (rt rn : Reg) (off9 : BitVec 9) (s : State) (addr : Word),
    addr = s.reg rn + BitVec.ofInt 64 off9.toInt → Memory.wf s.mem = true →
    (0 ≤ addr.toInt ∧ addr.toInt + 8 ≤ s.memCapacity ∧ addr.toNat % 8 = 0 →
      Completes (.stur rt rn off9) s fun t =>
        (∀ x, getByte t.mem x =
          if addr.toNat ≤ x ∧ x < addr.toNat + 8 then (s.reg rt).extractLsb' (8 * (x - addr.toNat)) 8
          else getByte s.mem x) ∧
        Memory.wf t.mem = true ∧ EndsAt (s.pc + 4) s t ∧ SameRegisters s t ∧ t.flags = s.flags ∧
        SameParameters s t) ∧
    (¬ (0 ≤ addr.toInt ∧ addr.toInt + 8 ≤ s.memCapacity) →
      AnswersNext (.stur rt rn off9) s (FaultEffect (.memoryOutOfBounds addr 8) 4 s)) ∧
    (0 ≤ addr.toInt ∧ addr.toInt + 8 ≤ s.memCapacity ∧ addr.toNat % 8 ≠ 0 →
      AnswersNext (.stur rt rn off9) s (FaultEffect (.memoryMisaligned addr 8) 4 s))

/-- The frame of a store in any memory, canonical or not: outside the eight bytes at the address the meaning
computes, every byte reads as before. -/
def Obligations.StoreFrame : Prop :=
  ∀ (rt rn : Reg) (off9 : BitVec 9) (s t : State) (a x : Nat),
    exec (.stur rt rn off9) s = .next t → (effectiveAddress s rn off9).toNat = a →
    x < a ∨ a + 8 ≤ x → getByte t.mem x = getByte s.mem x

/-- R280 to R286: B is always taken, each conditional branch exactly on its flag condition; a branch's condition
is evaluated at Control-Signal on the flags as they are then; and after `SUBS XZR, Xa, Xb` each conditional
branch is taken exactly on the relation of the operands its name says, also when the subtraction overflowed. -/
def Obligations.BranchRule : Prop :=
  (EncodedBranch .b 0b000101 ∧ BranchResult .b (fun _ => true) ∧
   EncodedBranch .bEq 0b010000 ∧ BranchResult .bEq (fun f => decide (f.z = true)) ∧
   EncodedBranch .bNe 0b010001 ∧ BranchResult .bNe (fun f => decide (f.z = false)) ∧
   EncodedBranch .bLt 0b011011 ∧ BranchResult .bLt (fun f => decide (f.n ≠ f.v)) ∧
   EncodedBranch .bGt 0b011100 ∧ BranchResult .bGt (fun f => decide (f.z = false ∧ f.n = f.v)) ∧
   EncodedBranch .bLe 0b011101 ∧ BranchResult .bLe (fun f => decide (f.z = true ∨ f.n ≠ f.v)) ∧
   EncodedBranch .bGe 0b011010 ∧ BranchResult .bGe (fun f => decide (f.n = f.v))) ∧
  (∀ (t : Table) (s u : State) (row : Row), Enabled s → currentKind s.lat = some .control →
    s.lat.row = some row → row.format = .b → microStep t s = .next u →
    u.lat.taken = rowTaken row s.flags) ∧
  (∀ (rn rm : Reg) (off26 : BitVec 26) (s t : State), exec (.subs 31 rn rm) s = .next t →
    BranchesOn (.bEq off26) off26 t (s.reg rn = s.reg rm) ∧
    BranchesOn (.bNe off26) off26 t (s.reg rn ≠ s.reg rm) ∧
    BranchesOn (.bLt off26) off26 t ((s.reg rn).toInt < (s.reg rm).toInt) ∧
    BranchesOn (.bGt off26) off26 t ((s.reg rm).toInt < (s.reg rn).toInt) ∧
    BranchesOn (.bLe off26) off26 t ((s.reg rn).toInt ≤ (s.reg rm).toInt) ∧
    BranchesOn (.bGe off26) off26 t ((s.reg rm).toInt ≤ (s.reg rn).toInt))

/-! ### Rules of the whole machine -/

/-- R31: a micro-step changes the flags only at Execute of a row with `flagWrite`, and then all four at once
from the ALU's result; under the default table the flag-writing instructions are ADDS, SUBS, ANDS, ADDIS,
SUBIS, ANDIS, and no other instruction changes any flag. -/
def Obligations.OnlyFlagWritersChangeFlags : Prop :=
  (∀ (t : Table) (s u : State), microStep t s = .next u → u.flags ≠ s.flags →
    currentKind s.lat = some .execute ∧
    ∃ row r, s.lat.row = some row ∧ row.sig.flagWrite = true ∧
      aluTag s.lat.a s.lat.b row.sig.operation = .ok r ∧ u.flags = r.flags) ∧
  (∀ (t : Table) (s : State) (row : Row) (r : AluResult), Enabled s → currentKind s.lat = some .execute →
    s.lat.row = some row → row.sig.flagWrite = true →
    aluTag s.lat.a s.lat.b row.sig.operation = .ok r →
    ∃ u, microStep t s = .next u ∧ u.flags = r.flags) ∧
  (∀ (i : Instr) (s t : State), exec i s = .next t → writesFlags i = false → t.flags = s.flags) ∧
  (∀ i : Instr, writesFlags i = i.row.sig.flagWrite)

/-- 20_memory.md section 7 and R51, with 10_state.md R39 and 00_scope.md R8 for the parameters: no instruction
but the store changes data memory, and none changes the program or the parameters. -/
def Obligations.OnlyTheStoreWritesMemory : Prop :=
  ∀ (i : Instr) (s t : State), exec i s = .next t →
    SameParameters s t ∧ (isStore i = false → SameMemory s t)

/-- 10_state.md R32 and 46_b_format.md R287: nothing reads `C`. Two runs that differ only in `C` differ after
any instruction at most in `C` (and in the snapshots that record it), and not at all in the flags when the
instruction writes them. -/
def Obligations.NoInstructionReadsCarry : Prop :=
  ∀ (i : Instr) (s t : State) (c : Bool), exec i s = .next t →
    AnswersNext i { s with flags := { s.flags with c := c } } fun u =>
      u.regs = t.regs ∧ u.pc = t.pc ∧ u.mem = t.mem ∧ u.lat = t.lat ∧ u.finished = t.finished ∧
      u.fault = t.fault ∧ u.last = t.last ∧ SameParameters t u ∧
      u.flags.n = t.flags.n ∧ u.flags.z = t.flags.z ∧ u.flags.v = t.flags.v ∧
      (writesFlags i = true → u.flags = t.flags)

/-- R303 and R178: a micro-step whose primitive raises changes nothing but the fault record, and after it the
stepper has no further step; and under the default table an instruction that faults has committed nothing, its
pc still addressing it. -/
def Obligations.FaultChangesOnlyTheRecord : Prop :=
  (∀ (t : Table) (s : State) (k : MicroKind) (f : Fault), Enabled s → currentKind s.lat = some k →
    microBody t s k = .error f →
    ∃ u, microStep t s = .next u ∧
      u = { s with fault := some { kind := f, pc := s.pc, idx := s.lat.idx } } ∧
      ∀ t' v, microStep t' u ≠ .next v) ∧
  (∀ (i : Instr) (s t : State), exec i s = .next t → s.fault = none → t.fault ≠ none →
    ∃ kind idx, FaultEffect kind idx s t ∧ (idx = 3 ∨ idx = 4) ∧ ProgramFault kind)

/-- A step runs the decoded instruction: at an enabled boundary whose pc holds a word that decodes to `i`, the
step is `exec i` on the state the completed and recorded Fetch micro-step left. -/
def Obligations.StepRunsTheDecodedInstruction : Prop :=
  ∀ (s : State) (w : InstrWord) (i : Instr), Enabled s → AtBoundary s →
    s.program[s.pc.toNat / 4]? = some w → decode w = some i → Instr.wellFormed i = true →
    step s = exec i (s.fetched w).record

/-- 60_exceptions.md R312 and R304: a step whose pc is outside the program takes `FetchOutOfProgram` at Fetch,
and one whose word no row matches takes `UnknownOpcode` at Decode, nothing else changed. -/
def Obligations.FetchAndDecodeFaults : Prop :=
  ∀ s : State, Enabled s → AtBoundary s →
    (s.program.length ≤ s.pc.toNat / 4 →
      ∃ t, step s = .next t ∧ FaultEffect (.fetchOutOfProgram s.pc) 0 s t) ∧
    (∀ w, s.program[s.pc.toNat / 4]? = some w → decode w = none →
      ∃ t, step s = .next t ∧ FaultEffect (.unknownOpcode (.word w)) 1 s t)

/-- 41_control_and_sequencer.md R175 with the model's choice of log entry 1: a finished machine's step changes
nothing; a faulted one answers its recorded fault and no state. -/
def Obligations.TerminalMachineTakesNoStep : Prop :=
  ∀ s : State,
    (s.finished = true → step s = .next s ∧ ∀ t, microStep t s = .next s) ∧
    (∀ r, s.finished = false → s.fault = some r →
      step s = .fault r.kind ∧ ∀ t, microStep t s = .fault r.kind)

/-- Headline refinement (41_control_and_sequencer.md section 3, "Whole-instruction view"): running the
micro-steps of the generic sequencer under the default table up to the next boundary is one step of the
machine, in every state. -/
def Obligations.MicroStepsMakeOneStep : Prop :=
  ∀ s : State, runToBoundary idtDefault 6 s = step s

/-- R165: the micro-step lists with their stage tags, by format; and a run follows them: after `k` micro-steps of
an instruction that has not faulted, `k` at most its list's length, the index names the next micro-step, and is 0
after the last. -/
def Obligations.MicroStepsPerInstruction : Prop :=
  (∀ f : Format, f = .r ∨ f = .i ∨ f = .im →
    microList f = [.fetch, .decode, .control, .execute, .writeBack] ∧
    (microList f).map MicroKind.stage = [.fetch, .decode, .decode, .execute, .writeBack]) ∧
  microList .d = [.fetch, .decode, .control, .execute, .memory, .writeBack] ∧
  (microList .d).map MicroKind.stage = [.fetch, .decode, .decode, .execute, .memoryAccess, .writeBack] ∧
  microList .b = [.fetch, .decode, .control, .branch] ∧
  (microList .b).map MicroKind.stage = [.fetch, .decode, .decode, .execute] ∧
  ∀ (s u : State) (w : InstrWord) (i : Instr) (k : Nat), Enabled s → AtBoundary s →
    s.program[s.pc.toNat / 4]? = some w → decode w = some i →
    k ≤ (microList i.row.format).length → runMicro idtDefault k s = .next u → u.fault = none →
    u.lat.idx = if k = (microList i.row.format).length then 0 else k

/-- R168: a branch row is taken always when unconditional, on its mnemonic's condition code when `flagBranch`,
and never on any other code or none; Control-Signal latches that on the flags as they are now, for a B row,
and moves the index to 3; it changes nothing else (the snapshot of a completed micro-step is recorded). -/
def Obligations.ConditionCodeTable : Prop :=
  (∀ (t : Table) (s : State) (row : Row), Enabled s → currentKind s.lat = some .control →
    s.lat.row = some row →
    microStep t s = .next
      ({ s with lat := { s.lat with
          taken := if row.format = .b then rowTaken row s.flags else s.lat.taken, idx := 3 } } : State).record) ∧
  ∀ (row : Row) (f : Flags),
    rowTaken row f = true ↔
      (row.sig.uncondBranch = true ∨
        row.sig.flagBranch = true ∧
          let code := (row.mnemonic.dropWhile (fun c => c ≠ '.')).drop 1
          (code = ['E', 'Q'] ∧ f.z = true ∨ code = ['N', 'E'] ∧ f.z = false ∨
           code = ['L', 'T'] ∧ f.n ≠ f.v ∨ code = ['G', 'T'] ∧ (f.z = false ∧ f.n = f.v) ∨
           code = ['L', 'E'] ∧ (f.z = true ∨ f.n ≠ f.v) ∨ code = ['G', 'E'] ∧ f.n = f.v))

/-- Headline safety (60_exceptions.md R301): under the default table a program checked at load can fault, from
an instruction boundary, only with DivisionByZero, MemoryOutOfBounds, MemoryMisaligned or
FetchOutOfProgram. -/
def Obligations.CheckedProgramFaultKinds : Prop :=
  ∀ (s t : State) (r : FaultRecord), ProgramDecodes s → Enabled s → AtBoundary s → step s = .next t →
    t.fault = some r → ProgramFault r.kind ∧ r.pc = s.pc

/-- R177: a step that completes at the address just past the last instruction finishes the run; at any other
address it does not, and where that address is not below `4 L` the next step takes `FetchOutOfProgram` at
Fetch. -/
def Obligations.FinishedExactlyPastTheEnd : Prop :=
  ∀ s t : State, Enabled s → AtBoundary s → step s = .next t → t.fault = none →
    (t.finished = true ↔ t.pc.toNat = 4 * s.program.length) ∧
    (t.pc.toNat ≠ 4 * s.program.length → ¬ t.pc.toNat < 4 * s.program.length →
      ∃ u, step t = .next u ∧ FaultEffect (.fetchOutOfProgram t.pc) 0 t u)

/-- Headline invariant: every step keeps the invariant `LegalState`, from every state that has it. -/
def Obligations.StepKeepsInvariant : Prop :=
  ∀ s t : State, LegalState s → step s = .next t → LegalState t

/-- The invariant holds after power-on. For the clause `targetAligned` this rests on the model's choice of log
entry 6: R40 leaves `lat.target` unspecified and R352 lets a model give it "any fixed value"; the model's is 0,
and a value that is no multiple of 4 would break that clause. -/
def Obligations.ResetHasInvariant : Prop := LegalState State.reset

/-- Every move of the host keeps the invariant (60_exceptions.md R324, R326; 70 R350, R353), and so does every
micro-step under any table. For the clause `targetAligned`, reset and the two loads rest on the model's choice of
log entry 6 (R352 lets `lat.target` be "any fixed value"; the model's is 0), and step back and step forward on that
of log entry 13 too (a restore starts from those blank latches). -/
def Obligations.HostMovesKeepInvariant : Prop :=
  ∀ s t : State, LegalState s →
    (hostReset s = t → LegalState t) ∧
    (∀ table words, hostLoadWords table words s = .next t → LegalState t) ∧
    (∀ table lines, hostLoadText table lines s = .next t → LegalState t) ∧
    (∀ index v, hostPresetReg index v s = .next t → LegalState t) ∧
    (∀ addr size v, hostPresetMem addr size v s = .next t → LegalState t) ∧
    (∀ f, hostPresetFlags f s = .next t → LegalState t) ∧
    (∀ table, microStep table s = .next t → LegalState t) ∧
    (∀ table, hostStepBack table s = .next t → LegalState t) ∧
    (∀ table, hostStepForward table s = .next t → LegalState t)

/-! ### Reset, load, history (60_exceptions.md, 70_reset_and_hazards.md) -/

/-- R350: reset zeroes registers, memory and flags, clears the micro-step index and the history, sets pc 0,
`finished` to `L = 0`, fault none and `last` empty, and keeps the program and the capacity; the state after
power-on is the reset of a machine with no program (whichever fixed value the other latches get, R352; the model's
is log entry 6). -/
def Obligations.ResetValues : Prop :=
  (∀ s : State,
    (∀ r, (hostReset s).reg r = 0) ∧ (∀ x, getByte (hostReset s).mem x = 0) ∧
    (hostReset s).flags = { n := false, z := false, c := false, v := false } ∧
    (hostReset s).lat.idx = 0 ∧ (hostReset s).history.states = [] ∧ (hostReset s).history.cursor = -1 ∧
    (hostReset s).pc = 0 ∧ ((hostReset s).finished = true ↔ s.program.length = 0) ∧
    (hostReset s).fault = none ∧ (hostReset s).last = [] ∧ SameParameters s (hostReset s)) ∧
  hostReset State.reset = State.reset ∧ State.reset.program = []

/-- 70_reset_and_hazards.md R353: a load of words that all decode installs them, resets the machine (every value
of R350, the parameters kept) and records the initial snapshot; a load with a word that does not decode fails
with such a word and gives no new state. -/
def Obligations.LoadChecksEveryWord : Prop :=
  ∀ (t : Table) (words : List InstrWord) (s : State), Table.wellFormed t = true →
    ((∀ w ∈ words, Table.select t w ≠ none) →
      ∃ u, hostLoadWords t words s = .next u ∧ u.program = words ∧
        u.memCapacity = s.memCapacity ∧ u.historyMax = s.historyMax ∧
        (∀ r, u.reg r = 0) ∧ u.mem = [] ∧
        u.flags = { n := false, z := false, c := false, v := false } ∧
        u.lat.idx = 0 ∧ u.pc = 0 ∧ (u.finished = true ↔ words.length = 0) ∧ u.fault = none ∧ u.last = [] ∧
        (1 ≤ s.historyMax → ∃ x, u.history.states = [x] ∧ u.history.cursor = 0 ∧ Shows x u)) ∧
    (∀ w ∈ words, Table.select t w = none →
      ∃ w' ∈ words, Table.select t w' = none ∧
        hostLoadWords t words s = .fault (.unknownOpcode (.word w')))

/-- 10_state.md R23 and 60_exceptions.md R326: the host's preset of a register before the first micro-step: an
index outside 0 to 31 raises, index 31 is discarded, any other is written. How the model
reads "before the first micro-step" off the state (`atStart`, which also admits power-on and a reset without a
new load) is log entry 12. -/
def Obligations.PresetRegisterRule : Prop :=
  ∀ (s : State) (index : Nat) (v : Word), atStart s = true →
    (31 < index → hostPresetReg index v s = .fault (.invalidRegisterIndex index)) ∧
    (index = 31 → hostPresetReg index v s = .next s) ∧
    (index < 31 → ∃ t, hostPresetReg index v s = .next t ∧ t.reg (BitVec.ofNat 5 index) = v ∧
      SameRegistersExcept (BitVec.ofNat 5 index) s t ∧ SameMemory s t ∧ t.flags = s.flags ∧ t.pc = s.pc)

/-- R319, R322: recording drops the states after the cursor, appends the new one and makes it the cursor; if
that exceeds the maximum it removes the oldest entry and leaves the new state current; and the rule's
property: after record, record, step back, record, the second state is unreachable by a step forward and the
history is the first and the third. -/
def Obligations.RecordTruncatesAndEvicts : Prop :=
  (∀ (h : History) (capacity : Nat) (x : Snapshot), History.wf h capacity = true → 1 ≤ capacity →
    (h.cursor + 1 < capacity →
      History.record h capacity x =
        { states := h.states.take (h.cursor + 1).toNat ++ [x], cursor := h.cursor + 1 }) ∧
    (h.cursor + 1 = capacity →
      History.record h capacity x = { states := (h.states ++ [x]).drop 1, cursor := h.cursor }) ∧
    (History.record h capacity x).current = some x ∧ (History.record h capacity x).forward = none ∧
    History.wf (History.record h capacity x) capacity = true) ∧
  (∀ (capacity : Nat) (s1 s2 s3 : Snapshot), 2 ≤ capacity →
    ∃ back, History.back (History.record (History.record History.empty capacity s1) capacity s2) = some back ∧
      (History.record back capacity s3).states = [s1, s3] ∧
      (History.record back capacity s3).current = some s3 ∧
      (History.record back capacity s3).forward = none)

/-- R323: a micro-step that completes pushes a snapshot of the state it leaves, which becomes the current one;
one that faults records nothing; and a program load records the initial state. -/
def Obligations.CompletedMicroStepIsRecorded : Prop :=
  (∀ (t : Table) (s u : State), Enabled s → History.wf s.history s.historyMax = true → 1 ≤ s.historyMax →
    microStep t s = .next u →
    (u.fault = none → ∃ x, u.history = s.history.record s.historyMax x ∧ u.history.current = some x ∧
      Shows x u) ∧
    (u.fault ≠ none → u.history = s.history)) ∧
  (∀ (t : Table) (words : List InstrWord) (lines : List Text) (s u : State), 1 ≤ s.historyMax →
    hostLoadWords t words s = .next u ∨ hostLoadText t lines s = .next u →
    ∃ x, u.history.states = [x] ∧ u.history.cursor = 0 ∧ Shows x u)

/-- R325: stepping back and forward again reproduces the registers, memory, flags and pc of a machine whose
current snapshot shows it; and a micro-step asked for after stepping back leaves no future to step forward to. -/
def Obligations.BackAndForwardReproduces : Prop :=
  ∀ (t : Table) (s u : State), hostStepBack t s = .next u →
    (∀ (v : State) (x : Snapshot), s.history.current = some x → Shows x s → hostStepForward t u = .next v →
      v.regs = s.regs ∧ v.mem = s.mem ∧ v.flags = s.flags ∧ v.pc = s.pc ∧ v.finished = s.finished ∧
        v.last = s.last ∧ v.lat.idx = s.lat.idx ∧ v.history = s.history) ∧
    (∀ v : State, Enabled u → microStep t u = .next v → v.fault = none → v.history.forward = none)

/-- 60_exceptions.md R324: `n` micro-steps into an instruction begun at any boundary, under a well-formed table,
restoring the snapshot of the state gives back every field, and every latch that the instruction has written.
A latch it has not yet written is blank after a restore, which is the model's choice (log entries 6 and 13); so
where the instruction began with blank latches the restored state is the same state whole. -/
def Obligations.RestoreRebuildsLatches : Prop :=
  ∀ (t : Table) (s u : State) (n : Nat), Table.wellFormed t = true → AtBoundary s →
    runMicro t n s = .next u → u.fault = none → u.lat.idx = n →
    ∃ v, u.restore t u.snapshot = .next v ∧ v = { u with lat := v.lat } ∧ WrittenLatchesAgree u.lat v.lat ∧
      (s.lat = Latches.blank → v = u)
end

