-- ==== Sys2Proof/Laws/Memory.lean ====
section
/-! SUPPORT. The memory operations: read after write, frames, and that each keeps the canonical form. -/

namespace Sys2Proof.Machine

open Sys2Proof

/-- Every listed address lies above `a`. -/
abbrev AllAbove (a : Nat) (m : Memory) : Prop := m.all (fun c => decide (a < c.1)) = true

/-- An address below all listed ones reads 0. -/
theorem getByte_allAbove (a x : Nat) (m : Memory) (h : AllAbove a m) (hx : x ≤ a) : getByte m x = 0#8 := by
  induction m with
  | nil => rfl
  | cons c m ih =>
    simp only [AllAbove, List.all_cons, Bool.and_eq_true, decide_eq_true_eq] at h
    have : x ≠ c.1 := by omega
    simp [getByte, this, ih h.2]

/-- Replacing one byte leaves every other byte. -/
theorem getByte_setByte_other (m : Memory) (a x : Nat) (v : Byte) (h : x ≠ a) :
    getByte (setByte m a v) x = getByte m x := by
  induction m with
  | nil => by_cases hv : v = 0#8 <;> simp [setByte, getByte, hv, h]
  | cons c m ih =>
    simp only [setByte]
    split_ifs <;> simp_all [getByte]

/-- A replaced byte reads back, in a canonical memory. -/
theorem getByte_setByte_same (m : Memory) (a : Nat) (v : Byte) (hm : Memory.wf m = true) :
    getByte (setByte m a v) a = v := by
  induction m with
  | nil => by_cases hv : v = 0#8 <;> simp [setByte, getByte, hv]
  | cons c m ih =>
    simp only [Memory.wf, Bool.and_eq_true] at hm
    obtain ⟨⟨hc, hall⟩, hwf⟩ := hm
    simp only [setByte]
    split_ifs with h1 h2 h3 h4
    · have hne : a ≠ c.1 := by omega
      have : getByte m a = 0#8 := getByte_allAbove c.1 a m hall (by omega)
      simp [getByte, hne, this, h2]
    · simp [getByte]
    · subst h3; rw [getByte_allAbove c.1 c.1 m hall (le_refl _), h4]
    · simp [getByte]
    · simp [getByte, h3, ih hwf]

/-- `setByte` lists no address that was not listed but the one it writes. -/
theorem mem_setByte (m : Memory) (a : Nat) (v : Byte) (c : Host.Cell) (h : c ∈ setByte m a v) :
    c.1 = a ∨ c ∈ m := by
  induction m with
  | nil => by_cases hv : v = 0#8 <;> simp_all [setByte]
  | cons d m ih =>
    simp only [setByte] at h
    split_ifs at h
    · exact .inr h
    · rcases List.mem_cons.1 h with rfl | h
      · exact .inl rfl
      · exact .inr h
    · exact .inr (List.mem_cons_of_mem _ h)
    · rcases List.mem_cons.1 h with rfl | h
      · exact .inl rfl
      · exact .inr (List.mem_cons_of_mem _ h)
    · rcases List.mem_cons.1 h with rfl | h
      · exact .inr List.mem_cons_self
      · exact (ih h).imp_right (List.mem_cons_of_mem _)

/-- `setByte` keeps a bound from below. -/
theorem allAbove_setByte (m : Memory) (b a : Nat) (v : Byte) (hb : b < a) (h : AllAbove b m) :
    AllAbove b (setByte m a v) := by
  simp only [AllAbove, List.all_eq_true, decide_eq_true_eq] at h ⊢
  intro c hc
  rcases mem_setByte m a v c hc with e | hm
  · omega
  · exact h c hm

/-- `setByte` keeps the canonical form. -/
theorem wf_setByte (m : Memory) (a : Nat) (v : Byte) (hm : Memory.wf m = true) :
    Memory.wf (setByte m a v) = true := by
  induction m with
  | nil => by_cases hv : v = 0#8 <;> simp [setByte, Memory.wf, hv]
  | cons c m ih =>
    have hm' := hm
    simp only [Memory.wf, Bool.and_eq_true] at hm
    obtain ⟨⟨hc, hall⟩, hwf⟩ := hm
    simp only [setByte]
    split_ifs with h1 h2 h3 h4
    · exact hm'
    · have : AllAbove a m := by
        simp only [AllAbove, List.all_eq_true, decide_eq_true_eq] at hall ⊢
        exact fun c' hc' => lt_trans h1 (hall c' hc')
      simp [Memory.wf, h2, h1, hc, hwf, hall, this]
    · exact hwf
    · subst h3; simp [Memory.wf, h4, hall, hwf]
    · simp [Memory.wf, hc, ih hwf, allAbove_setByte m c.1 a v (by omega) hall]

/-- Everything a byte read after a store of `k` bytes can be: the stored byte, or what it was before. -/
theorem getByte_writeBytes (m : Memory) (a : Nat) (v : Word) (k x : Nat) (hm : Memory.wf m = true) :
    Memory.wf (writeBytes m a v k) = true ∧
    getByte (writeBytes m a v k) x =
      if a ≤ x ∧ x < a + k then v.extractLsb' (8 * (x - a)) 8 else getByte m x := by
  induction k with
  | zero => exact ⟨hm, by simp [writeBytes]⟩
  | succ k ih =>
    refine ⟨wf_setByte _ _ _ ih.1, ?_⟩
    simp only [writeBytes]
    by_cases h : x = a + k
    · subst h
      rw [getByte_setByte_same _ _ _ ih.1, if_pos (by omega)]
      congr 1; omega
    · rw [getByte_setByte_other _ _ _ _ h, ih.2]
      by_cases hx : a ≤ x ∧ x < a + k
      · rw [if_pos hx, if_pos (by omega)]
      · rw [if_neg hx, if_neg (by omega)]

/-- A store changes no byte outside the stored ones, in any memory. -/
theorem getByte_writeBytes_other (m : Memory) (a : Nat) (v : Word) (k x : Nat) (h : x < a ∨ a + k ≤ x) :
    getByte (writeBytes m a v k) x = getByte m x := by
  induction k with
  | zero => rfl
  | succ k ih =>
    simp only [writeBytes]
    rw [getByte_setByte_other _ _ _ _ (by omega), ih (by omega)]

/-- A store keeps the canonical form. -/
theorem wf_writeBytes (m : Memory) (a : Nat) (v : Word) (k : Nat) (hm : Memory.wf m = true) :
    Memory.wf (writeBytes m a v k) = true := (getByte_writeBytes m a v k 0 hm).1

/-- A store lists no address beyond the listed ones and the stored ones. -/
theorem mem_writeBytes (m : Memory) (a : Nat) (v : Word) (k : Nat) (c : Host.Cell)
    (h : c ∈ writeBytes m a v k) : (a ≤ c.1 ∧ c.1 < a + k) ∨ c ∈ m := by
  induction k with
  | zero => exact .inr h
  | succ k ih =>
    rcases mem_setByte _ _ _ _ h with h | h
    · left; omega
    · rcases ih h with h | h
      · left; omega
      · exact .inr h

/-- Bit `i` of a `k`-byte read (at most eight bytes). -/
theorem getLsbD_readBytes (m : Memory) (a k i : Nat) (hk : k ≤ 8) :
    (readBytes m a k).getLsbD i = (decide (i < 8 * k) && (getByte m (a + i / 8)).getLsbD (i % 8)) := by
  induction k with
  | zero => simp [readBytes]
  | succ k ih =>
    have ih := ih (by omega)
    simp only [readBytes, BitVec.getLsbD_or, ih, BitVec.getLsbD_shiftLeft, BitVec.getLsbD_setWidth]
    by_cases h1 : i < 8 * k
    · have : i < 8 * (k + 1) := by omega
      simp [h1, this]
    · by_cases h2 : i < 8 * (k + 1)
      · have e1 : i / 8 = k := by omega
        have e2 : i % 8 = i - 8 * k := by omega
        have e3 : i < 64 := by omega
        have e4 : i - 8 * k < 64 := by omega
        simp [h1, h2, e1, e2, e3, e4]
      · have : 8 ≤ i - 8 * k := by omega
        have e : (getByte m (a + k)).getLsbD (i - 8 * k) = false := BitVec.getLsbD_of_ge _ _ this
        simp [h1, h2, e]

/-- Byte `j` of a `k`-byte read is the byte at `a + j` (20_memory.md R56). -/
theorem extract_readBytes (m : Memory) (a k j : Nat) (hk : k ≤ 8) (hj : j < k) :
    (readBytes m a k).extractLsb' (8 * j) 8 = getByte m (a + j) := by
  ext i hi
  have e1 : (8 * j + i) / 8 = j := by omega
  have e2 : (8 * j + i) % 8 = i := by omega
  have e3 : 8 * j + i < 8 * k := by omega
  simp [getLsbD_readBytes, hk, e1, e2, e3, BitVec.getLsbD_eq_getElem hi]

/-- The doubleword read where it was stored is the value stored (R63, R66). -/
theorem readBytes_writeBytes (m : Memory) (a : Nat) (v : Word) (hm : Memory.wf m = true) :
    readBytes (writeBytes m a v 8) a 8 = v := by
  ext i hi
  have h := getLsbD_readBytes (writeBytes m a v 8) a 8 i (by omega)
  rw [← BitVec.getLsbD_eq_getElem hi, ← BitVec.getLsbD_eq_getElem hi, h,
    (getByte_writeBytes m a v 8 (a + i / 8) hm).2, if_pos (by omega)]
  have e1 : 8 * (a + i / 8 - a) + i % 8 = i := by omega
  have e2 : i % 8 < 8 := by omega
  have e3 : 8 * (i / 8) + i % 8 = i := by omega
  simp [hi, e2, e3]

/-- Everything `memRead` can do. -/
theorem memRead_cases (s : State) (addr : Word) (size : AccessSize) :
    (checkAccess s.memCapacity addr size.bytes = .ok () ∧
      memRead s addr size = .ok (readBytes s.mem addr.toNat size.bytes)) ∨
    (∃ f, checkAccess s.memCapacity addr size.bytes = .error f ∧ memRead s addr size = .error f) := by
  unfold memRead
  cases h : checkAccess s.memCapacity addr size.bytes with
  | ok u => exact .inl ⟨rfl, rfl⟩
  | error f => exact .inr ⟨f, rfl, rfl⟩

/-- Everything `memWrite` can do. -/
theorem memWrite_cases (s : State) (addr : Word) (size : AccessSize) (v : Word) :
    (checkAccess s.memCapacity addr size.bytes = .ok () ∧
      memWrite s addr size v = .ok { s with mem := writeBytes s.mem addr.toNat v size.bytes }) ∨
    (∃ f, checkAccess s.memCapacity addr size.bytes = .error f ∧ memWrite s addr size v = .error f) := by
  unfold memWrite
  cases h : checkAccess s.memCapacity addr size.bytes with
  | ok u => exact .inl ⟨rfl, rfl⟩
  | error f => exact .inr ⟨f, rfl, rfl⟩

/-- Everything the access check can answer (20_memory.md R53 to R55). -/
theorem checkAccess_cases (capacity : Nat) (addr : Word) (n : Nat) :
    (inBounds capacity addr n = true ∧ isAligned addr n = true ∧ checkAccess capacity addr n = .ok ()) ∨
    (inBounds capacity addr n = true ∧ isAligned addr n = false ∧
      checkAccess capacity addr n = .error (.memoryMisaligned addr n)) ∨
    (inBounds capacity addr n = false ∧
      checkAccess capacity addr n = .error (.memoryOutOfBounds addr n)) := by
  unfold checkAccess
  cases inBounds capacity addr n <;> cases isAligned addr n <;> simp

/-- The bound as R53 writes it, on the signed address. -/
theorem inBounds_iff (capacity : Nat) (addr : Word) (n : Nat) :
    inBounds capacity addr n = true ↔ 0 ≤ addr.toInt ∧ addr.toInt + n ≤ capacity := by
  unfold inBounds
  have h1 := addr.isLt
  simp only [Bool.and_eq_true, Bool.not_eq_true', decide_eq_true_eq, BitVec.msb_eq_false_iff_two_mul_lt]
  rw [BitVec.toInt_eq_toNat_cond]
  split <;> constructor <;> intro h <;> omega

end Sys2Proof.Machine
end

