-- ==== Sys2Proof/Laws/State.lean ====
section
/-! SUPPORT. What every update of the state does to every field: one lemma per field per update, so that no
later proof unfolds a record update. -/

namespace Sys2Proof.Machine

open Sys2Proof

/-! ### record -/

@[simp] theorem State.record_regs (s : State) : s.record.regs = s.regs := rfl
@[simp] theorem State.record_pc (s : State) : s.record.pc = s.pc := rfl
@[simp] theorem State.record_flags (s : State) : s.record.flags = s.flags := rfl
@[simp] theorem State.record_mem (s : State) : s.record.mem = s.mem := rfl
@[simp] theorem State.record_lat (s : State) : s.record.lat = s.lat := rfl
@[simp] theorem State.record_finished (s : State) : s.record.finished = s.finished := rfl
@[simp] theorem State.record_fault (s : State) : s.record.fault = s.fault := rfl
@[simp] theorem State.record_last (s : State) : s.record.last = s.last := rfl
@[simp] theorem State.record_history (s : State) : s.record.history = s.history.record s.historyMax s.snapshot := rfl
@[simp] theorem State.record_program (s : State) : s.record.program = s.program := rfl
@[simp] theorem State.record_memCapacity (s : State) : s.record.memCapacity = s.memCapacity := rfl
@[simp] theorem State.record_historyMax (s : State) : s.record.historyMax = s.historyMax := rfl
@[simp] theorem State.record_freeTexts (s : State) : s.record.freeTexts = s.freeTexts + 1 := rfl

@[simp] theorem State.record_reg (s : State) (r : Reg) : s.record.reg r = s.reg r := rfl

/-! ### raise -/

@[simp] theorem State.raise_regs (s : State) (k : Fault) : (s.raise k).regs = s.regs := rfl
@[simp] theorem State.raise_pc (s : State) (k : Fault) : (s.raise k).pc = s.pc := rfl
@[simp] theorem State.raise_flags (s : State) (k : Fault) : (s.raise k).flags = s.flags := rfl
@[simp] theorem State.raise_mem (s : State) (k : Fault) : (s.raise k).mem = s.mem := rfl
@[simp] theorem State.raise_lat (s : State) (k : Fault) : (s.raise k).lat = s.lat := rfl
@[simp] theorem State.raise_finished (s : State) (k : Fault) : (s.raise k).finished = s.finished := rfl
@[simp] theorem State.raise_fault (s : State) (k : Fault) : (s.raise k).fault = some { kind := k, pc := s.pc, idx := s.lat.idx } := rfl
@[simp] theorem State.raise_last (s : State) (k : Fault) : (s.raise k).last = s.last := rfl
@[simp] theorem State.raise_history (s : State) (k : Fault) : (s.raise k).history = s.history := rfl
@[simp] theorem State.raise_program (s : State) (k : Fault) : (s.raise k).program = s.program := rfl
@[simp] theorem State.raise_memCapacity (s : State) (k : Fault) : (s.raise k).memCapacity = s.memCapacity := rfl
@[simp] theorem State.raise_historyMax (s : State) (k : Fault) : (s.raise k).historyMax = s.historyMax := rfl
@[simp] theorem State.raise_freeTexts (s : State) (k : Fault) : (s.raise k).freeTexts = s.freeTexts := rfl

@[simp] theorem State.raise_reg (s : State) (k : Fault) (r : Reg) : (s.raise k).reg r = s.reg r := rfl

/-! ### clearFault -/

@[simp] theorem State.clearFault_regs (s : State) : s.clearFault.regs = s.regs := rfl
@[simp] theorem State.clearFault_pc (s : State) : s.clearFault.pc = s.pc := rfl
@[simp] theorem State.clearFault_flags (s : State) : s.clearFault.flags = s.flags := rfl
@[simp] theorem State.clearFault_mem (s : State) : s.clearFault.mem = s.mem := rfl
@[simp] theorem State.clearFault_lat (s : State) : s.clearFault.lat = s.lat := rfl
@[simp] theorem State.clearFault_finished (s : State) : s.clearFault.finished = s.finished := rfl
@[simp] theorem State.clearFault_fault (s : State) : s.clearFault.fault = none := rfl
@[simp] theorem State.clearFault_last (s : State) : s.clearFault.last = s.last := rfl
@[simp] theorem State.clearFault_history (s : State) : s.clearFault.history = s.history := rfl
@[simp] theorem State.clearFault_program (s : State) : s.clearFault.program = s.program := rfl
@[simp] theorem State.clearFault_memCapacity (s : State) : s.clearFault.memCapacity = s.memCapacity := rfl
@[simp] theorem State.clearFault_historyMax (s : State) : s.clearFault.historyMax = s.historyMax := rfl
@[simp] theorem State.clearFault_freeTexts (s : State) : s.clearFault.freeTexts = s.freeTexts := rfl

@[simp] theorem State.clearFault_reg (s : State) (r : Reg) : s.clearFault.reg r = s.reg r := rfl

/-! ### endInstr -/

@[simp] theorem State.endInstr_regs (s : State) (next : Word) (text : Text) : (s.endInstr next text).regs = s.regs := rfl
@[simp] theorem State.endInstr_pc (s : State) (next : Word) (text : Text) : (s.endInstr next text).pc = next := rfl
@[simp] theorem State.endInstr_flags (s : State) (next : Word) (text : Text) : (s.endInstr next text).flags = s.flags := rfl
@[simp] theorem State.endInstr_mem (s : State) (next : Word) (text : Text) : (s.endInstr next text).mem = s.mem := rfl
@[simp] theorem State.endInstr_lat (s : State) (next : Word) (text : Text) : (s.endInstr next text).lat = { s.lat with idx := 0 } := rfl
@[simp] theorem State.endInstr_finished (s : State) (next : Word) (text : Text) : (s.endInstr next text).finished = (s.finished || s.atEnd next) := rfl
@[simp] theorem State.endInstr_fault (s : State) (next : Word) (text : Text) : (s.endInstr next text).fault = s.fault := rfl
@[simp] theorem State.endInstr_last (s : State) (next : Word) (text : Text) : (s.endInstr next text).last = text := rfl
@[simp] theorem State.endInstr_history (s : State) (next : Word) (text : Text) : (s.endInstr next text).history = s.history := rfl
@[simp] theorem State.endInstr_program (s : State) (next : Word) (text : Text) : (s.endInstr next text).program = s.program := rfl
@[simp] theorem State.endInstr_memCapacity (s : State) (next : Word) (text : Text) : (s.endInstr next text).memCapacity = s.memCapacity := rfl
@[simp] theorem State.endInstr_historyMax (s : State) (next : Word) (text : Text) : (s.endInstr next text).historyMax = s.historyMax := rfl
@[simp] theorem State.endInstr_freeTexts (s : State) (next : Word) (text : Text) : (s.endInstr next text).freeTexts = s.freeTexts := rfl

@[simp] theorem State.endInstr_reg (s : State) (next : Word) (text : Text) (r : Reg) : (s.endInstr next text).reg r = s.reg r := rfl

/-! ### fetched -/

@[simp] theorem State.fetched_regs (s : State) (w : InstrWord) : (s.fetched w).regs = s.regs := rfl
@[simp] theorem State.fetched_pc (s : State) (w : InstrWord) : (s.fetched w).pc = s.pc := rfl
@[simp] theorem State.fetched_flags (s : State) (w : InstrWord) : (s.fetched w).flags = s.flags := rfl
@[simp] theorem State.fetched_mem (s : State) (w : InstrWord) : (s.fetched w).mem = s.mem := rfl
@[simp] theorem State.fetched_lat (s : State) (w : InstrWord) : (s.fetched w).lat = { s.lat with word := w, idx := 1 } := rfl
@[simp] theorem State.fetched_finished (s : State) (w : InstrWord) : (s.fetched w).finished = s.finished := rfl
@[simp] theorem State.fetched_fault (s : State) (w : InstrWord) : (s.fetched w).fault = s.fault := rfl
@[simp] theorem State.fetched_last (s : State) (w : InstrWord) : (s.fetched w).last = s.last := rfl
@[simp] theorem State.fetched_history (s : State) (w : InstrWord) : (s.fetched w).history = s.history := rfl
@[simp] theorem State.fetched_program (s : State) (w : InstrWord) : (s.fetched w).program = s.program := rfl
@[simp] theorem State.fetched_memCapacity (s : State) (w : InstrWord) : (s.fetched w).memCapacity = s.memCapacity := rfl
@[simp] theorem State.fetched_historyMax (s : State) (w : InstrWord) : (s.fetched w).historyMax = s.historyMax := rfl
@[simp] theorem State.fetched_freeTexts (s : State) (w : InstrWord) : (s.fetched w).freeTexts = s.freeTexts := rfl

@[simp] theorem State.fetched_reg (s : State) (w : InstrWord) (r : Reg) : (s.fetched w).reg r = s.reg r := rfl

/-! ### latchOperands -/

@[simp] theorem State.latchOperands_regs (s : State) (row : Row) (a b : Word) : (s.latchOperands row a b).regs = s.regs := rfl
@[simp] theorem State.latchOperands_pc (s : State) (row : Row) (a b : Word) : (s.latchOperands row a b).pc = s.pc := rfl
@[simp] theorem State.latchOperands_flags (s : State) (row : Row) (a b : Word) : (s.latchOperands row a b).flags = s.flags := rfl
@[simp] theorem State.latchOperands_mem (s : State) (row : Row) (a b : Word) : (s.latchOperands row a b).mem = s.mem := rfl
@[simp] theorem State.latchOperands_lat (s : State) (row : Row) (a b : Word) : (s.latchOperands row a b).lat = { s.lat with row := some row, a := a, b := b, idx := 2 } := rfl
@[simp] theorem State.latchOperands_finished (s : State) (row : Row) (a b : Word) : (s.latchOperands row a b).finished = s.finished := rfl
@[simp] theorem State.latchOperands_fault (s : State) (row : Row) (a b : Word) : (s.latchOperands row a b).fault = s.fault := rfl
@[simp] theorem State.latchOperands_last (s : State) (row : Row) (a b : Word) : (s.latchOperands row a b).last = s.last := rfl
@[simp] theorem State.latchOperands_history (s : State) (row : Row) (a b : Word) : (s.latchOperands row a b).history = s.history := rfl
@[simp] theorem State.latchOperands_program (s : State) (row : Row) (a b : Word) : (s.latchOperands row a b).program = s.program := rfl
@[simp] theorem State.latchOperands_memCapacity (s : State) (row : Row) (a b : Word) : (s.latchOperands row a b).memCapacity = s.memCapacity := rfl
@[simp] theorem State.latchOperands_historyMax (s : State) (row : Row) (a b : Word) : (s.latchOperands row a b).historyMax = s.historyMax := rfl
@[simp] theorem State.latchOperands_freeTexts (s : State) (row : Row) (a b : Word) : (s.latchOperands row a b).freeTexts = s.freeTexts := rfl

@[simp] theorem State.latchOperands_reg (s : State) (row : Row) (a b : Word) (r : Reg) : (s.latchOperands row a b).reg r = s.reg r := rfl

/-! ### latchStore -/

@[simp] theorem State.latchStore_regs (s : State) (row : Row) (a b data : Word) : (s.latchStore row a b data).regs = s.regs := rfl
@[simp] theorem State.latchStore_pc (s : State) (row : Row) (a b data : Word) : (s.latchStore row a b data).pc = s.pc := rfl
@[simp] theorem State.latchStore_flags (s : State) (row : Row) (a b data : Word) : (s.latchStore row a b data).flags = s.flags := rfl
@[simp] theorem State.latchStore_mem (s : State) (row : Row) (a b data : Word) : (s.latchStore row a b data).mem = s.mem := rfl
@[simp] theorem State.latchStore_lat (s : State) (row : Row) (a b data : Word) : (s.latchStore row a b data).lat = { s.lat with row := some row, a := a, b := b, data := data, idx := 2 } := rfl
@[simp] theorem State.latchStore_finished (s : State) (row : Row) (a b data : Word) : (s.latchStore row a b data).finished = s.finished := rfl
@[simp] theorem State.latchStore_fault (s : State) (row : Row) (a b data : Word) : (s.latchStore row a b data).fault = s.fault := rfl
@[simp] theorem State.latchStore_last (s : State) (row : Row) (a b data : Word) : (s.latchStore row a b data).last = s.last := rfl
@[simp] theorem State.latchStore_history (s : State) (row : Row) (a b data : Word) : (s.latchStore row a b data).history = s.history := rfl
@[simp] theorem State.latchStore_program (s : State) (row : Row) (a b data : Word) : (s.latchStore row a b data).program = s.program := rfl
@[simp] theorem State.latchStore_memCapacity (s : State) (row : Row) (a b data : Word) : (s.latchStore row a b data).memCapacity = s.memCapacity := rfl
@[simp] theorem State.latchStore_historyMax (s : State) (row : Row) (a b data : Word) : (s.latchStore row a b data).historyMax = s.historyMax := rfl
@[simp] theorem State.latchStore_freeTexts (s : State) (row : Row) (a b data : Word) : (s.latchStore row a b data).freeTexts = s.freeTexts := rfl

@[simp] theorem State.latchStore_reg (s : State) (row : Row) (a b data : Word) (r : Reg) : (s.latchStore row a b data).reg r = s.reg r := rfl

/-! ### latchBranch -/

@[simp] theorem State.latchBranch_regs (s : State) (row : Row) (target : Word) : (s.latchBranch row target).regs = s.regs := rfl
@[simp] theorem State.latchBranch_pc (s : State) (row : Row) (target : Word) : (s.latchBranch row target).pc = s.pc := rfl
@[simp] theorem State.latchBranch_flags (s : State) (row : Row) (target : Word) : (s.latchBranch row target).flags = s.flags := rfl
@[simp] theorem State.latchBranch_mem (s : State) (row : Row) (target : Word) : (s.latchBranch row target).mem = s.mem := rfl
@[simp] theorem State.latchBranch_lat (s : State) (row : Row) (target : Word) : (s.latchBranch row target).lat = { s.lat with row := some row, target := target, idx := 2 } := rfl
@[simp] theorem State.latchBranch_finished (s : State) (row : Row) (target : Word) : (s.latchBranch row target).finished = s.finished := rfl
@[simp] theorem State.latchBranch_fault (s : State) (row : Row) (target : Word) : (s.latchBranch row target).fault = s.fault := rfl
@[simp] theorem State.latchBranch_last (s : State) (row : Row) (target : Word) : (s.latchBranch row target).last = s.last := rfl
@[simp] theorem State.latchBranch_history (s : State) (row : Row) (target : Word) : (s.latchBranch row target).history = s.history := rfl
@[simp] theorem State.latchBranch_program (s : State) (row : Row) (target : Word) : (s.latchBranch row target).program = s.program := rfl
@[simp] theorem State.latchBranch_memCapacity (s : State) (row : Row) (target : Word) : (s.latchBranch row target).memCapacity = s.memCapacity := rfl
@[simp] theorem State.latchBranch_historyMax (s : State) (row : Row) (target : Word) : (s.latchBranch row target).historyMax = s.historyMax := rfl
@[simp] theorem State.latchBranch_freeTexts (s : State) (row : Row) (target : Word) : (s.latchBranch row target).freeTexts = s.freeTexts := rfl

@[simp] theorem State.latchBranch_reg (s : State) (row : Row) (target : Word) (r : Reg) : (s.latchBranch row target).reg r = s.reg r := rfl

/-! ### latchSignals -/

@[simp] theorem State.latchSignals_regs (s : State) : s.latchSignals.regs = s.regs := rfl
@[simp] theorem State.latchSignals_pc (s : State) : s.latchSignals.pc = s.pc := rfl
@[simp] theorem State.latchSignals_flags (s : State) : s.latchSignals.flags = s.flags := rfl
@[simp] theorem State.latchSignals_mem (s : State) : s.latchSignals.mem = s.mem := rfl
@[simp] theorem State.latchSignals_lat (s : State) : s.latchSignals.lat = { s.lat with idx := 3 } := rfl
@[simp] theorem State.latchSignals_finished (s : State) : s.latchSignals.finished = s.finished := rfl
@[simp] theorem State.latchSignals_fault (s : State) : s.latchSignals.fault = s.fault := rfl
@[simp] theorem State.latchSignals_last (s : State) : s.latchSignals.last = s.last := rfl
@[simp] theorem State.latchSignals_history (s : State) : s.latchSignals.history = s.history := rfl
@[simp] theorem State.latchSignals_program (s : State) : s.latchSignals.program = s.program := rfl
@[simp] theorem State.latchSignals_memCapacity (s : State) : s.latchSignals.memCapacity = s.memCapacity := rfl
@[simp] theorem State.latchSignals_historyMax (s : State) : s.latchSignals.historyMax = s.historyMax := rfl
@[simp] theorem State.latchSignals_freeTexts (s : State) : s.latchSignals.freeTexts = s.freeTexts := rfl

@[simp] theorem State.latchSignals_reg (s : State) (r : Reg) : s.latchSignals.reg r = s.reg r := rfl

/-! ### latchTaken -/

@[simp] theorem State.latchTaken_regs (s : State) (taken : Bool) : (s.latchTaken taken).regs = s.regs := rfl
@[simp] theorem State.latchTaken_pc (s : State) (taken : Bool) : (s.latchTaken taken).pc = s.pc := rfl
@[simp] theorem State.latchTaken_flags (s : State) (taken : Bool) : (s.latchTaken taken).flags = s.flags := rfl
@[simp] theorem State.latchTaken_mem (s : State) (taken : Bool) : (s.latchTaken taken).mem = s.mem := rfl
@[simp] theorem State.latchTaken_lat (s : State) (taken : Bool) : (s.latchTaken taken).lat = { s.lat with taken := taken, idx := 3 } := rfl
@[simp] theorem State.latchTaken_finished (s : State) (taken : Bool) : (s.latchTaken taken).finished = s.finished := rfl
@[simp] theorem State.latchTaken_fault (s : State) (taken : Bool) : (s.latchTaken taken).fault = s.fault := rfl
@[simp] theorem State.latchTaken_last (s : State) (taken : Bool) : (s.latchTaken taken).last = s.last := rfl
@[simp] theorem State.latchTaken_history (s : State) (taken : Bool) : (s.latchTaken taken).history = s.history := rfl
@[simp] theorem State.latchTaken_program (s : State) (taken : Bool) : (s.latchTaken taken).program = s.program := rfl
@[simp] theorem State.latchTaken_memCapacity (s : State) (taken : Bool) : (s.latchTaken taken).memCapacity = s.memCapacity := rfl
@[simp] theorem State.latchTaken_historyMax (s : State) (taken : Bool) : (s.latchTaken taken).historyMax = s.historyMax := rfl
@[simp] theorem State.latchTaken_freeTexts (s : State) (taken : Bool) : (s.latchTaken taken).freeTexts = s.freeTexts := rfl

@[simp] theorem State.latchTaken_reg (s : State) (taken : Bool) (r : Reg) : (s.latchTaken taken).reg r = s.reg r := rfl

/-! ### executed -/

@[simp] theorem State.executed_regs (s : State) (r : AluResult) (fw : Bool) : (s.executed r fw).regs = s.regs := rfl
@[simp] theorem State.executed_pc (s : State) (r : AluResult) (fw : Bool) : (s.executed r fw).pc = s.pc := rfl
@[simp] theorem State.executed_flags (s : State) (r : AluResult) (fw : Bool) : (s.executed r fw).flags = (if fw then r.flags else s.flags) := rfl
@[simp] theorem State.executed_mem (s : State) (r : AluResult) (fw : Bool) : (s.executed r fw).mem = s.mem := rfl
@[simp] theorem State.executed_lat (s : State) (r : AluResult) (fw : Bool) : (s.executed r fw).lat = { s.lat with res := r.value, nzcv := r.flags, idx := 4 } := rfl
@[simp] theorem State.executed_finished (s : State) (r : AluResult) (fw : Bool) : (s.executed r fw).finished = s.finished := rfl
@[simp] theorem State.executed_fault (s : State) (r : AluResult) (fw : Bool) : (s.executed r fw).fault = s.fault := rfl
@[simp] theorem State.executed_last (s : State) (r : AluResult) (fw : Bool) : (s.executed r fw).last = s.last := rfl
@[simp] theorem State.executed_history (s : State) (r : AluResult) (fw : Bool) : (s.executed r fw).history = s.history := rfl
@[simp] theorem State.executed_program (s : State) (r : AluResult) (fw : Bool) : (s.executed r fw).program = s.program := rfl
@[simp] theorem State.executed_memCapacity (s : State) (r : AluResult) (fw : Bool) : (s.executed r fw).memCapacity = s.memCapacity := rfl
@[simp] theorem State.executed_historyMax (s : State) (r : AluResult) (fw : Bool) : (s.executed r fw).historyMax = s.historyMax := rfl
@[simp] theorem State.executed_freeTexts (s : State) (r : AluResult) (fw : Bool) : (s.executed r fw).freeTexts = s.freeTexts := rfl

@[simp] theorem State.executed_reg (s : State) (r : AluResult) (fw : Bool) (q : Reg) : (s.executed r fw).reg q = s.reg q := rfl

/-! ### loaded -/

@[simp] theorem State.loaded_regs (s : State) (v : Word) : (s.loaded v).regs = s.regs := rfl
@[simp] theorem State.loaded_pc (s : State) (v : Word) : (s.loaded v).pc = s.pc := rfl
@[simp] theorem State.loaded_flags (s : State) (v : Word) : (s.loaded v).flags = s.flags := rfl
@[simp] theorem State.loaded_mem (s : State) (v : Word) : (s.loaded v).mem = s.mem := rfl
@[simp] theorem State.loaded_lat (s : State) (v : Word) : (s.loaded v).lat = { s.lat with mem := v, idx := 5 } := rfl
@[simp] theorem State.loaded_finished (s : State) (v : Word) : (s.loaded v).finished = s.finished := rfl
@[simp] theorem State.loaded_fault (s : State) (v : Word) : (s.loaded v).fault = s.fault := rfl
@[simp] theorem State.loaded_last (s : State) (v : Word) : (s.loaded v).last = s.last := rfl
@[simp] theorem State.loaded_history (s : State) (v : Word) : (s.loaded v).history = s.history := rfl
@[simp] theorem State.loaded_program (s : State) (v : Word) : (s.loaded v).program = s.program := rfl
@[simp] theorem State.loaded_memCapacity (s : State) (v : Word) : (s.loaded v).memCapacity = s.memCapacity := rfl
@[simp] theorem State.loaded_historyMax (s : State) (v : Word) : (s.loaded v).historyMax = s.historyMax := rfl
@[simp] theorem State.loaded_freeTexts (s : State) (v : Word) : (s.loaded v).freeTexts = s.freeTexts := rfl

@[simp] theorem State.loaded_reg (s : State) (v : Word) (r : Reg) : (s.loaded v).reg r = s.reg r := rfl

/-! ### stored -/

@[simp] theorem State.stored_regs (s : State) : s.stored.regs = s.regs := rfl
@[simp] theorem State.stored_pc (s : State) : s.stored.pc = s.pc := rfl
@[simp] theorem State.stored_flags (s : State) : s.stored.flags = s.flags := rfl
@[simp] theorem State.stored_mem (s : State) : s.stored.mem = s.mem := rfl
@[simp] theorem State.stored_lat (s : State) : s.stored.lat = { s.lat with idx := 5 } := rfl
@[simp] theorem State.stored_finished (s : State) : s.stored.finished = s.finished := rfl
@[simp] theorem State.stored_fault (s : State) : s.stored.fault = s.fault := rfl
@[simp] theorem State.stored_last (s : State) : s.stored.last = s.last := rfl
@[simp] theorem State.stored_history (s : State) : s.stored.history = s.history := rfl
@[simp] theorem State.stored_program (s : State) : s.stored.program = s.program := rfl
@[simp] theorem State.stored_memCapacity (s : State) : s.stored.memCapacity = s.memCapacity := rfl
@[simp] theorem State.stored_historyMax (s : State) : s.stored.historyMax = s.historyMax := rfl
@[simp] theorem State.stored_freeTexts (s : State) : s.stored.freeTexts = s.freeTexts := rfl

@[simp] theorem State.stored_reg (s : State) (r : Reg) : s.stored.reg r = s.reg r := rfl

/-! ### setReg -/

@[simp] theorem State.setReg_pc (s : State) (r : Reg) (v : Word) : (s.setReg r v).pc = s.pc := by
  unfold State.setReg; split <;> rfl
@[simp] theorem State.setReg_flags (s : State) (r : Reg) (v : Word) : (s.setReg r v).flags = s.flags := by
  unfold State.setReg; split <;> rfl
@[simp] theorem State.setReg_mem (s : State) (r : Reg) (v : Word) : (s.setReg r v).mem = s.mem := by
  unfold State.setReg; split <;> rfl
@[simp] theorem State.setReg_lat (s : State) (r : Reg) (v : Word) : (s.setReg r v).lat = s.lat := by
  unfold State.setReg; split <;> rfl
@[simp] theorem State.setReg_finished (s : State) (r : Reg) (v : Word) : (s.setReg r v).finished = s.finished := by
  unfold State.setReg; split <;> rfl
@[simp] theorem State.setReg_fault (s : State) (r : Reg) (v : Word) : (s.setReg r v).fault = s.fault := by
  unfold State.setReg; split <;> rfl
@[simp] theorem State.setReg_last (s : State) (r : Reg) (v : Word) : (s.setReg r v).last = s.last := by
  unfold State.setReg; split <;> rfl
@[simp] theorem State.setReg_history (s : State) (r : Reg) (v : Word) : (s.setReg r v).history = s.history := by
  unfold State.setReg; split <;> rfl
@[simp] theorem State.setReg_program (s : State) (r : Reg) (v : Word) : (s.setReg r v).program = s.program := by
  unfold State.setReg; split <;> rfl
@[simp] theorem State.setReg_memCapacity (s : State) (r : Reg) (v : Word) : (s.setReg r v).memCapacity = s.memCapacity := by
  unfold State.setReg; split <;> rfl
@[simp] theorem State.setReg_historyMax (s : State) (r : Reg) (v : Word) : (s.setReg r v).historyMax = s.historyMax := by
  unfold State.setReg; split <;> rfl
@[simp] theorem State.setReg_freeTexts (s : State) (r : Reg) (v : Word) : (s.setReg r v).freeTexts = s.freeTexts := by
  unfold State.setReg; split <;> rfl

/-- Register 31 reads 0 in every state (10_state.md R21). -/
@[simp] theorem State.reg_31 (s : State) : s.reg 31#5 = 0#64 := rfl

/-- A write to register 31 leaves all state unchanged (R22). -/
@[simp] theorem State.setReg_31 (s : State) (v : Word) : s.setReg 31#5 v = s := rfl

/-- A register below 31 reads the value written to it. -/
theorem State.reg_setReg_same (s : State) (r : Reg) (v : Word) :
    (s.setReg r v).reg r = if r = 31#5 then 0#64 else v := by
  by_cases h : r = 31#5
  · subst h; rfl
  · have hlt : r.toNat < 31 := by
      have h1 := r.isLt
      have h2 : r.toNat ≠ 31 := fun e => h (BitVec.eq_of_toNat_eq e)
      omega
    simp [State.setReg, State.reg, hlt, h]

/-- A register write leaves every other register. -/
theorem State.reg_setReg_other (s : State) (r q : Reg) (v : Word) (h : q ≠ r) :
    (s.setReg r v).reg q = s.reg q := by
  have hne : r.toNat ≠ q.toNat := fun e => h (BitVec.eq_of_toNat_eq e.symm)
  unfold State.setReg
  split
  · unfold State.reg
    split
    · simp [hne]
    · rfl
  · rfl

end Sys2Proof.Machine
end

