-- ==== Sys2Proof/Laws/Cycle.lean ====
section
/-! SUPPORT. What each shared instruction shape can do, said once: it completes with its whole effect, or it
faults having committed nothing (41_control_and_sequencer.md R178, R179). -/

namespace Sys2Proof.Machine

open Sys2Proof

/-- Ending an instruction, as `EndsAt` says it. -/
theorem endsAt_of (s u : State) (next : Word) (text : Text) (hfault : u.fault = s.fault)
    (hfin : u.finished = s.finished) (hprog : u.program = s.program) :
    EndsAt next s (u.endInstr next text).record := by
  refine ⟨rfl, rfl, hfault, ?_⟩
  simp [State.atEnd, hfin, hprog, BEq.beq]

/-- Writing a register and ending the instruction, as `WritesRegister` says it. -/
theorem writesRegister_of (s u : State) (rd : Reg) (v next : Word) (text : Text) (hu : u.regs = s.regs) :
    WritesRegister rd v s ((u.setReg rd v).endInstr next text).record := by
  have hu' (q : Reg) : u.reg q = s.reg q := by simp only [State.reg, hu]
  refine ⟨?_, fun q hq => ?_⟩
  · rw [State.record_reg, State.endInstr_reg, State.reg_setReg_same]
  · rw [State.record_reg, State.endInstr_reg, State.reg_setReg_other u rd q v hq, hu']

section Alu
variable (row : Row) (op : AluOp) (fw : Bool) (rd : Reg) (a b : Word) (text : Text) (s : State)

/-- The register shape completes whenever its ALU operation does. -/
theorem runAlu_completes (r : AluResult) (h : alu a b op = .ok r) :
    ∃ t, runAlu row op fw rd a b text s = .next t ∧ t.last = text ∧
      AluEffect rd r.value (if fw then r.flags else s.flags) s t := by
  simp only [runAlu, h]
  refine ⟨_, rfl, ?_, ?_, ?_, ?_, fun x => ?_, ?_⟩
  · simp
  · apply writesRegister_of; simp
  · simp
  · apply endsAt_of <;> simp
  · simp
  · simp [SameParameters]

/-- The register shape faults at Execute whenever its ALU operation does, having committed nothing. -/
theorem runAlu_faults (f : Fault) (h : alu a b op = .error f) :
    ∃ t, runAlu row op fw rd a b text s = .next t ∧ FaultEffect f 3 s t := by
  simp only [runAlu, h]
  refine ⟨_, rfl, ?_⟩
  simp [FaultEffect, SameRegisters, SameMemory, SameParameters]

/-- Everything the register shape can do. -/
theorem runAlu_cases :
    (∃ r t, alu a b op = .ok r ∧ runAlu row op fw rd a b text s = .next t ∧ t.last = text ∧
      AluEffect rd r.value (if fw then r.flags else s.flags) s t) ∨
    (∃ f t, alu a b op = .error f ∧ runAlu row op fw rd a b text s = .next t ∧ FaultEffect f 3 s t) := by
  cases h : alu a b op with
  | ok r =>
    obtain ⟨t, ht⟩ := runAlu_completes row op fw rd a b text s r h
    exact .inl ⟨r, t, rfl, ht⟩
  | error f =>
    obtain ⟨t, ht⟩ := runAlu_faults row op fw rd a b text s f h
    exact .inr ⟨f, t, rfl, ht⟩
end Alu

/-- A doubleword read that passes the check, in any state with the same memory. -/
theorem memRead_ok (s u : State) (addr : Word) (hm : u.mem = s.mem) (hc : u.memCapacity = s.memCapacity)
    (h : checkAccess s.memCapacity addr 8 = .ok ()) :
    memRead u addr .b8 = .ok (readBytes s.mem addr.toNat 8) := by
  unfold memRead; rw [hm, hc]; simp only [AccessSize.bytes]; rw [h]

/-- An access that fails the check, in any state with the same capacity. -/
theorem memRead_error (s u : State) (addr : Word) (hc : u.memCapacity = s.memCapacity) (f : Fault)
    (h : checkAccess s.memCapacity addr 8 = .error f) : memRead u addr .b8 = .error f := by
  unfold memRead; rw [hc]; simp only [AccessSize.bytes]; rw [h]

/-- A doubleword write that passes the check, in any state with the same capacity. -/
theorem memWrite_ok (s u : State) (addr v : Word) (hc : u.memCapacity = s.memCapacity)
    (h : checkAccess s.memCapacity addr 8 = .ok ()) :
    memWrite u addr .b8 v = .ok { u with mem := writeBytes u.mem addr.toNat v 8 } := by
  unfold memWrite; rw [hc]; simp only [AccessSize.bytes]; rw [h]

/-- A write that fails the check, in any state with the same capacity. -/
theorem memWrite_error (s u : State) (addr v : Word) (hc : u.memCapacity = s.memCapacity) (f : Fault)
    (h : checkAccess s.memCapacity addr 8 = .error f) : memWrite u addr .b8 v = .error f := by
  unfold memWrite; rw [hc]; simp only [AccessSize.bytes]; rw [h]

section Data
variable (row : Row) (rt rn : Reg) (off9 : BitVec 9) (text : Text) (s : State)

/-- A load completes whenever its access passes the check. -/
theorem runLoad_completes (h : checkAccess s.memCapacity (effectiveAddress s rn off9) 8 = .ok ()) :
    ∃ t, runLoad row rt rn off9 text s = .next t ∧ t.last = text ∧
      AluEffect rt (readBytes s.mem (effectiveAddress s rn off9).toNat 8) s.flags s t := by
  simp only [runLoad]
  rw [memRead_ok s _ _ (by simp) (by simp) h]
  dsimp only
  refine ⟨_, rfl, ?_, ?_, ?_, ?_, fun x => ?_, ?_⟩
  · simp
  · apply writesRegister_of; simp
  · simp
  · apply endsAt_of <;> simp
  · simp
  · simp [SameParameters]

/-- A load faults at Memory-Access whenever its access fails the check, having committed nothing. -/
theorem runLoad_faults (f : Fault) (h : checkAccess s.memCapacity (effectiveAddress s rn off9) 8 = .error f) :
    ∃ t, runLoad row rt rn off9 text s = .next t ∧ FaultEffect f 4 s t := by
  simp only [runLoad]
  rw [memRead_error s _ _ (by simp) f h]
  dsimp only
  refine ⟨_, rfl, ?_⟩
  simp [FaultEffect, SameRegisters, SameMemory, SameParameters]

/-- A store completes whenever its access passes the check: the eight bytes at its address are `x[Rt]`'s. -/
theorem runStore_completes (h : checkAccess s.memCapacity (effectiveAddress s rn off9) 8 = .ok ()) :
    ∃ t, runStore row rt rn off9 text s = .next t ∧ t.last = text ∧
      t.mem = writeBytes s.mem (effectiveAddress s rn off9).toNat (s.reg rt) 8 ∧
      EndsAt (s.pc + 4) s t ∧ SameRegisters s t ∧ t.flags = s.flags ∧ SameParameters s t := by
  simp only [runStore]
  rw [memWrite_ok s _ _ _ (by simp) h]
  dsimp only
  refine ⟨_, rfl, ?_, ?_, ?_, ?_⟩
  · simp
  · simp
  · apply endsAt_of <;> simp
  · simp [SameRegisters, SameParameters, State.reg]

/-- A store faults at Memory-Access whenever its access fails the check, having committed nothing. -/
theorem runStore_faults (f : Fault) (h : checkAccess s.memCapacity (effectiveAddress s rn off9) 8 = .error f) :
    ∃ t, runStore row rt rn off9 text s = .next t ∧ FaultEffect f 4 s t := by
  simp only [runStore]
  rw [memWrite_error s _ _ _ (by simp) f h]
  dsimp only
  refine ⟨_, rfl, ?_⟩
  simp [FaultEffect, SameRegisters, SameMemory, SameParameters]
end Data

/-- A branch completes in every state. -/
theorem runBranch_completes (row : Row) (off26 : BitVec 26) (taken : Bool) (text : Text) (s : State) :
    ∃ t, runBranch row off26 taken text s = .next t ∧ t.last = text ∧
      BranchEffect (if taken then branchTarget s.pc off26 else s.pc + 4) s t := by
  refine ⟨_, rfl, rfl, ?_, fun _ => rfl, rfl, fun _ => rfl, rfl, rfl, rfl⟩
  exact endsAt_of _ _ _ _ (by simp) (by simp) (by simp)

/-! ### Operand forms as integers -/

/-- The immediate operand is the immediate's number (30_encoding.md R98). -/
theorem immOperand_eq (imm12 : BitVec 12) : immOperand imm12 = BitVec.ofNat 64 imm12.toNat := by
  apply BitVec.eq_of_toNat_eq; simp [immOperand]

/-- The branch offset counts instructions, signed (30_encoding.md R100). -/
theorem branchTarget_eq (pc : Word) (off26 : BitVec 26) :
    branchTarget pc off26 = pc + BitVec.ofInt 64 (4 * off26.toInt) := by
  unfold branchTarget
  congr 1
  have h1 : -2 ^ 25 ≤ off26.toInt := by simpa using BitVec.le_toInt off26
  have h2 : off26.toInt < 2 ^ 25 := by simpa using BitVec.toInt_lt (x := off26)
  have e : off26.signExtend 64 = BitVec.ofInt 64 off26.toInt := rfl
  rw [e]
  apply BitVec.eq_of_toNat_eq
  rw [BitVec.toNat_shiftLeft, BitVec.toNat_ofInt, BitVec.toNat_ofInt, Nat.shiftLeft_eq]
  omega

end Sys2Proof.Machine
end

