-- ==== Sys2Proof/Laws/Decode.lean ====
section
/-! SUPPORT. What the decoder answers: it looks at the top eleven bits only, and the row it selects for a word
of each format (30_encoding.md R88, R90). -/

namespace Sys2Proof

/-- The row choice as a function of the top eleven bits: every opcode field is a prefix of them. -/
def selectKey {α : Type} (rowOf : α → Row) (l : List α) (key : List Bool) : Option α :=
  formatOrder.findSome? fun f =>
    l.find? fun x => decide ((rowOf x).format = f) && ((rowOf x).opcode == key.take f.opcodeWidth)

/-- A shorter opcode field is the beginning of a longer one. -/
theorem topBits_take (n m : Nat) (w : InstrWord) (h : m ≤ n) : topBits m w = (topBits n w).take m := by
  simp [topBits, ← List.map_take, List.take_range, Nat.min_eq_left h]

/-- No opcode field is wider than eleven bits (R88). -/
theorem opcodeWidth_le (f : Format) : f.opcodeWidth ≤ 11 := by cases f <;> decide

/-- The decoder looks at the top eleven bits only. -/
theorem selectBy_key {α : Type} (rowOf : α → Row) (l : List α) (w : InstrWord) :
    selectBy rowOf l w = selectKey rowOf l (topBits 11 w) := by
  unfold selectBy selectKey
  congr 1
  funext f
  rw [topBits_take 11 f.opcodeWidth w (opcodeWidth_le f)]

/-- The decoder under the default table, from the key. -/
theorem decode_key (w : InstrWord) :
    decode w = (selectKey Prod.fst decodeEntries (topBits 11 w)).map fun e => e.2 w := by
  rw [decode, selectBy_key]

/-- The bits of a vector, most significant first. -/
def msbList {n : Nat} (x : BitVec n) : List Bool := (List.range n).map fun k => x.getMsbD k

/-- A bit of the upper part of a concatenation, from the top. -/
theorem getMsbD_append_left {n m : Nat} (x : BitVec n) (y : BitVec m) (k : Nat) (h : k < n) :
    (x ++ y).getMsbD k = x.getMsbD k := by simp [BitVec.getMsbD_append, h]

/-- A bit of the lower part of a concatenation, from the top. -/
theorem getMsbD_append_right {n m : Nat} (x : BitVec n) (y : BitVec m) (k : Nat) (h : n ≤ k) :
    (x ++ y).getMsbD k = y.getMsbD (k - n) := by simp [BitVec.getMsbD_append, Nat.not_lt.2 h]

/-- A field inside the lower part of a concatenation. -/
theorem extract_append_right {n m : Nat} (x : BitVec n) (y : BitVec m) (a k : Nat) (h : a + k ≤ m) :
    (x ++ y).extractLsb' a k = y.extractLsb' a k := by
  ext i hi
  have : a + i < m := by omega
  simp [BitVec.getLsbD_append, this]

/-- A field inside the upper part of a concatenation. -/
theorem extract_append_left {n m : Nat} (x : BitVec n) (y : BitVec m) (a k : Nat) (h : m ≤ a) :
    (x ++ y).extractLsb' a k = x.extractLsb' (a - m) k := by
  ext i hi
  have e : a + i - m = a - m + i := by omega
  simp [BitVec.getLsbD_append, show ¬ a + i < m by omega, e]

/-- A vector as its own field. -/
theorem extract_all {n : Nat} (x : BitVec n) : x.extractLsb' 0 n = x := by
  ext i hi; simp

/-! ### The opcode field of a word of each format -/

theorem topBits_encodeR (op : BitVec 11) (rm : Reg) (sh : BitVec 6) (rn rd : Reg) :
    topBits 11 (op ++ rm ++ sh ++ rn ++ rd) = msbList op := by
  refine List.map_congr_left fun k hk => ?_
  have h : k < 11 := by simpa using hk
  exact (getMsbD_append_left (op ++ rm ++ sh ++ rn) rd k (by omega)).trans
    ((getMsbD_append_left (op ++ rm ++ sh) rn k (by omega)).trans
      ((getMsbD_append_left (op ++ rm) sh k (by omega)).trans (getMsbD_append_left op rm k h)))

theorem topBits_encodeI (op : BitVec 10) (imm : BitVec 12) (rn rd : Reg) :
    topBits 11 (op ++ imm ++ rn ++ rd) = msbList op ++ [imm.getMsbD 0] := by
  have up (k : Nat) (h : k < 22) : (op ++ imm ++ rn ++ rd : InstrWord).getMsbD k = (op ++ imm).getMsbD k :=
    (getMsbD_append_left (op ++ imm ++ rn) rd k (by omega)).trans
      (getMsbD_append_left (op ++ imm) rn k h)
  rw [topBits, show List.range 11 = List.range 10 ++ [10] from rfl, List.map_append]
  refine congrArg₂ _ (List.map_congr_left fun k hk => ?_)
    (congrArg (· :: []) ((up 10 (by omega)).trans (getMsbD_append_right op imm 10 (by omega))))
  have h : k < 10 := by simpa using hk
  exact (up k (by omega)).trans (getMsbD_append_left op imm k h)

theorem topBits_encodeD (op : BitVec 11) (off : BitVec 9) (op2 : BitVec 2) (rn rt : Reg) :
    topBits 11 (op ++ off ++ op2 ++ rn ++ rt) = msbList op := by
  refine List.map_congr_left fun k hk => ?_
  have h : k < 11 := by simpa using hk
  exact (getMsbD_append_left (op ++ off ++ op2 ++ rn) rt k (by omega)).trans
    ((getMsbD_append_left (op ++ off ++ op2) rn k (by omega)).trans
      ((getMsbD_append_left (op ++ off) op2 k (by omega)).trans (getMsbD_append_left op off k h)))

theorem topBits_encodeB (op : BitVec 6) (off : BitVec 26) :
    topBits 11 (op ++ off) = msbList op ++
      [off.getMsbD 0, off.getMsbD 1, off.getMsbD 2, off.getMsbD 3, off.getMsbD 4] := by
  have low (k : Nat) (h : 6 ≤ k) : (op ++ off : InstrWord).getMsbD k = off.getMsbD (k - 6) :=
    getMsbD_append_right op off k h
  rw [topBits, show List.range 11 = List.range 6 ++ [6, 7, 8, 9, 10] from rfl, List.map_append]
  refine congrArg₂ _ (List.map_congr_left fun k hk => ?_) ?_
  · exact getMsbD_append_left op off k (by simpa using hk)
  · simp only [List.map_cons, List.map_nil]
    rw [low 6 (by omega), low 7 (by omega), low 8 (by omega), low 9 (by omega), low 10 (by omega)]

theorem topBits_encodeIM (op : BitVec 9) (hw : BitVec 2) (imm : BitVec 16) (rd : Reg) :
    topBits 11 (op ++ hw ++ imm ++ rd) = msbList op ++ [hw.getMsbD 0, hw.getMsbD 1] := by
  have up (k : Nat) (h : k < 11) : (op ++ hw ++ imm ++ rd : InstrWord).getMsbD k = (op ++ hw).getMsbD k :=
    (getMsbD_append_left (op ++ hw ++ imm) rd k (by omega)).trans
      (getMsbD_append_left (op ++ hw) imm k h)
  rw [topBits, show List.range 11 = List.range 9 ++ [9, 10] from rfl, List.map_append]
  refine congrArg₂ _ (List.map_congr_left fun k hk => ?_) ?_
  · have h : k < 9 := by simpa using hk
    exact (up k (by omega)).trans (getMsbD_append_left op hw k h)
  · simp only [List.map_cons, List.map_nil]
    rw [up 9 (by omega), up 10 (by omega), getMsbD_append_right op hw 9 (by omega),
      getMsbD_append_right op hw 10 (by omega)]

/-! ### The operand fields of a word of each format -/

section RFormat
variable (op : BitVec 11) (rm rn rd : Reg) (sh : BitVec 6)

@[simp] theorem fieldRd_R : fieldRd (op ++ rm ++ sh ++ rn ++ rd) = rd :=
  (extract_append_right (op ++ rm ++ sh ++ rn) rd 0 5 (by omega)).trans (extract_all rd)

@[simp] theorem fieldRn_R : fieldRn (op ++ rm ++ sh ++ rn ++ rd) = rn :=
  (extract_append_left (op ++ rm ++ sh ++ rn) rd 5 5 (by omega)).trans
    ((extract_append_right (op ++ rm ++ sh) rn 0 5 (by omega)).trans (extract_all rn))

@[simp] theorem fieldShamt_R : fieldShamt (op ++ rm ++ sh ++ rn ++ rd) = sh :=
  (extract_append_left (op ++ rm ++ sh ++ rn) rd 10 6 (by omega)).trans
    ((extract_append_left (op ++ rm ++ sh) rn 5 6 (by omega)).trans
      ((extract_append_right (op ++ rm) sh 0 6 (by omega)).trans (extract_all sh)))

@[simp] theorem fieldRm_R : fieldRm (op ++ rm ++ sh ++ rn ++ rd) = rm :=
  (extract_append_left (op ++ rm ++ sh ++ rn) rd 16 5 (by omega)).trans
    ((extract_append_left (op ++ rm ++ sh) rn 11 5 (by omega)).trans
      ((extract_append_left (op ++ rm) sh 6 5 (by omega)).trans
        ((extract_append_right op rm 0 5 (by omega)).trans (extract_all rm))))
end RFormat

section IFormat
variable (op : BitVec 10) (imm : BitVec 12) (rn rd : Reg)

@[simp] theorem fieldRd_I : fieldRd (op ++ imm ++ rn ++ rd) = rd :=
  (extract_append_right (op ++ imm ++ rn) rd 0 5 (by omega)).trans (extract_all rd)

@[simp] theorem fieldRn_I : fieldRn (op ++ imm ++ rn ++ rd) = rn :=
  (extract_append_left (op ++ imm ++ rn) rd 5 5 (by omega)).trans
    ((extract_append_right (op ++ imm) rn 0 5 (by omega)).trans (extract_all rn))

@[simp] theorem fieldImm12_I : fieldImm12 (op ++ imm ++ rn ++ rd) = imm :=
  (extract_append_left (op ++ imm ++ rn) rd 10 12 (by omega)).trans
    ((extract_append_left (op ++ imm) rn 5 12 (by omega)).trans
      ((extract_append_right op imm 0 12 (by omega)).trans (extract_all imm)))
end IFormat

section DFormat
variable (op : BitVec 11) (off : BitVec 9) (op2 : BitVec 2) (rn rt : Reg)

@[simp] theorem fieldRd_D : fieldRd (op ++ off ++ op2 ++ rn ++ rt) = rt :=
  (extract_append_right (op ++ off ++ op2 ++ rn) rt 0 5 (by omega)).trans (extract_all rt)

@[simp] theorem fieldRn_D : fieldRn (op ++ off ++ op2 ++ rn ++ rt) = rn :=
  (extract_append_left (op ++ off ++ op2 ++ rn) rt 5 5 (by omega)).trans
    ((extract_append_right (op ++ off ++ op2) rn 0 5 (by omega)).trans (extract_all rn))

@[simp] theorem fieldOff9_D : fieldOff9 (op ++ off ++ op2 ++ rn ++ rt) = off :=
  (extract_append_left (op ++ off ++ op2 ++ rn) rt 12 9 (by omega)).trans
    ((extract_append_left (op ++ off ++ op2) rn 7 9 (by omega)).trans
      ((extract_append_left (op ++ off) op2 2 9 (by omega)).trans
        ((extract_append_right op off 0 9 (by omega)).trans (extract_all off))))
end DFormat

section BFormat
variable (op : BitVec 6) (off : BitVec 26)

@[simp] theorem fieldOff26_B : fieldOff26 (op ++ off) = off :=
  (extract_append_right op off 0 26 (by omega)).trans (extract_all off)
end BFormat

section ImFormat
variable (op : BitVec 9) (hw : BitVec 2) (imm : BitVec 16) (rd : Reg)

@[simp] theorem fieldRd_IM : fieldRd (op ++ hw ++ imm ++ rd) = rd :=
  (extract_append_right (op ++ hw ++ imm) rd 0 5 (by omega)).trans (extract_all rd)

@[simp] theorem fieldImm16_IM : fieldImm16 (op ++ hw ++ imm ++ rd) = imm :=
  (extract_append_left (op ++ hw ++ imm) rd 5 16 (by omega)).trans
    ((extract_append_right (op ++ hw) imm 0 16 (by omega)).trans (extract_all imm))

@[simp] theorem fieldHw_IM : fieldHw (op ++ hw ++ imm ++ rd) = hw :=
  (extract_append_left (op ++ hw ++ imm) rd 21 2 (by omega)).trans
    ((extract_append_left (op ++ hw) imm 16 2 (by omega)).trans
      ((extract_append_right op hw 0 2 (by omega)).trans (extract_all hw)))
end ImFormat

/-! ### The entry selected for a word of each format -/

/-- An R-format or D-format word decodes by the entry of its opcode, its other bits whatever they are. -/
theorem decode_of_key (w : InstrWord) (e : DecodeEntry) (h : selectKey Prod.fst decodeEntries (topBits 11 w) = some e) :
    decode w = some (e.2 w) := by rw [decode_key, h]; rfl

/-- Selecting among elements and taking the row is selecting among the rows. -/
theorem select_map {α : Type} (rowOf : α → Row) (l : List α) (w : InstrWord) :
    Table.select (l.map rowOf) w = (selectBy rowOf l w).map rowOf := by
  unfold Table.select selectBy
  have key (f : Format) : ((l.map rowOf).find? fun x => decide ((id x).format = f) &&
        ((id x).opcode == topBits f.opcodeWidth w)) =
      (l.find? fun x => decide ((rowOf x).format = f) &&
        ((rowOf x).opcode == topBits f.opcodeWidth w)).map rowOf := by
    rw [List.find?_map]; rfl
  induction formatOrder with
  | nil => rfl
  | cons f fs ih =>
    rw [List.findSome?_cons, List.findSome?_cons, key, ih]
    cases l.find? fun x => decide ((rowOf x).format = f) &&
      ((rowOf x).opcode == topBits f.opcodeWidth w) <;> rfl

/-- The default table's selection and the decoder's are one. -/
theorem select_default (w : InstrWord) :
    Table.select idtDefault w = (selectBy Prod.fst decodeEntries w).map Prod.fst :=
  select_map Prod.fst decodeEntries w

/-- The table's own selection, from the entry. -/
theorem select_of_key (w : InstrWord) (e : DecodeEntry)
    (h : selectKey Prod.fst decodeEntries (topBits 11 w) = some e) :
    Table.select idtDefault w = some e.1 := by
  rw [select_default, selectBy_key, h]; rfl

end Sys2Proof
end

