-- ==== Sys2Proof/Laws/Micro.lean ====
section
/-! SUPPORT. What one micro-step does, by its kind, in the names of the instruction meanings; and the
micro-steps of a row put together (41_control_and_sequencer.md R165 to R179). -/

namespace Sys2Proof.Machine

open Sys2Proof

/-- The stepper is enabled with a micro-step of the given kind next. -/
structure Ready (s : State) (k : MicroKind) : Prop where
  finished : s.finished = false
  fault : s.fault = none
  kind : currentKind s.lat = some k

/-- An enabled micro-step is its body, recorded, or the fault it raises. -/
theorem microStep_ready {t : Table} {s : State} {k : MicroKind} (h : Ready s k) :
    microStep t s = match microBody t s k with
      | .error f => .next (s.raise f)
      | .ok s' => .next s'.record := by
  cases hb : microBody t s k <;> simp [microStep, h.finished, h.fault, h.kind, hb]

/-- Everything a micro-step can do. -/
theorem microStep_cases {t : Table} {s u : State} (h : microStep t s = .next u) :
    (s.finished = true ∧ u = s) ∨
    ∃ k, Ready s k ∧
      ((∃ f, microBody t s k = .error f ∧ u = s.raise f) ∨ ∃ s', microBody t s k = .ok s' ∧ u = s'.record) := by
  cases hfin : s.finished with
  | true => left; simp only [microStep, hfin, if_true] at h; cases h; exact ⟨rfl, rfl⟩
  | false =>
    right
    cases hflt : s.fault with
    | some r => simp [microStep, hfin, hflt] at h
    | none =>
      cases hk : currentKind s.lat with
      | none => simp [microStep, hfin, hflt, hk] at h
      | some k =>
        have hr : Ready s k := ⟨hfin, hflt, hk⟩
        rw [microStep_ready hr] at h
        refine ⟨k, hr, ?_⟩
        cases hb : microBody t s k with
        | error f => rw [hb] at h; cases h; exact .inl ⟨f, rfl, rfl⟩
        | ok s' => rw [hb] at h; cases h; exact .inr ⟨s', rfl, rfl⟩

/-- A run to the boundary goes on after a micro-step inside the instruction. -/
theorem runToBoundary_goesOn {t : Table} {n : Nat} {s u : State} (h : microStep t s = .next u)
    (hi : u.lat.idx ≠ 0) (hf : u.fault = none) : runToBoundary t (n + 1) s = runToBoundary t n u := by
  rw [runToBoundary, h]; simp [hi, hf]

/-- A run to the boundary stops after the micro-step that ends the instruction. -/
theorem runToBoundary_ends {t : Table} {n : Nat} {s u : State} (h : microStep t s = .next u)
    (hi : u.lat.idx = 0) : runToBoundary t (n + 1) s = .next u := by
  rw [runToBoundary, h]; simp [hi]

/-- A run to the boundary stops after a micro-step that faults. -/
theorem runToBoundary_faults {t : Table} {n : Nat} {s : State} {f : Fault}
    (h : microStep t s = .next (s.raise f)) : runToBoundary t (n + 1) s = .next (s.raise f) := by
  rw [runToBoundary, h]; simp [State.raise]

section Steps
variable {t : Table} {s : State} {row : Row}

/-- Fetch (R166). -/
theorem microStep_fetch (h : Ready s .fetch) (w : InstrWord) (hw : s.program[s.pc.toNat / 4]? = some w) :
    microStep t s = .next (s.fetched w).record := by
  have hb : microBody t s .fetch = .ok (s.fetched w) := by
    cases hrow : s.lat.row <;>
      simp [microBody, microLatches, State.fetchWord, hw, microCommit, hrow, commitRow, microAction,
        applyOptional, MicroKind.isLast, State.fetched]
  rw [microStep_ready h, hb]

/-- Fetch outside the program (60_exceptions.md R312). -/
theorem microStep_fetch_out (h : Ready s .fetch) (hw : s.program.length ≤ s.pc.toNat / 4) :
    microStep t s = .next (s.raise (.fetchOutOfProgram s.pc)) := by
  have hb : microBody t s .fetch = .error (.fetchOutOfProgram s.pc) := by
    simp [microBody, microLatches, State.fetchWord, hw]
  rw [microStep_ready h, hb]

/-- Decode (R167). -/
theorem microStep_decode (h : Ready s .decode) (hsel : Table.select t s.lat.word = some row) :
    microStep t s = .next ({ s with lat := operandLatches s row } : State).record := by
  have hrow : (operandLatches s row).row = some row := by
    unfold operandLatches; cases row.format <;> rfl
  have hb : microBody t s .decode = .ok { s with lat := operandLatches s row } := by
    simp [microBody, microLatches, decodeLatches, hsel, microCommit, hrow, commitRow, microAction,
      applyOptional, MicroKind.isLast]
  rw [microStep_ready h, hb]

/-- Decode of a word no row matches (60_exceptions.md R304). -/
theorem microStep_decode_none (h : Ready s .decode) (hsel : Table.select t s.lat.word = none) :
    microStep t s = .next (s.raise (.unknownOpcode (.word s.lat.word))) := by
  have hb : microBody t s .decode = .error (.unknownOpcode (.word s.lat.word)) := by
    simp [microBody, microLatches, decodeLatches, hsel]
  rw [microStep_ready h, hb]

/-- Control-Signal of a format other than B (R168). -/
theorem microStep_control (h : Ready s .control) (hrow : s.lat.row = some row) (hf : row.format ≠ .b) :
    microStep t s = .next s.latchSignals.record := by
  have hb : microBody t s .control = .ok s.latchSignals := by
    simp [microBody, microLatches, hrow, hf, microCommit, commitRow, microAction, applyOptional,
      MicroKind.isLast, State.latchSignals]
  rw [microStep_ready h, hb]

/-- Control-Signal of a branch (R168). -/
theorem microStep_control_branch (h : Ready s .control) (hrow : s.lat.row = some row)
    (hf : row.format = .b) : microStep t s = .next (s.latchTaken (rowTaken row s.flags)).record := by
  have hb : microBody t s .control = .ok (s.latchTaken (rowTaken row s.flags)) := by
    simp [microBody, microLatches, hrow, hf, microCommit, commitRow, microAction, applyOptional,
      MicroKind.isLast, State.latchTaken]
  rw [microStep_ready h, hb]

/-- Execute (R169). -/
theorem microStep_execute (h : Ready s .execute) (hrow : s.lat.row = some row) :
    microStep t s = match aluTag s.lat.a s.lat.b row.sig.operation with
      | .error f => .next (s.raise f)
      | .ok r => .next (s.executed r row.sig.flagWrite).record := by
  rw [microStep_ready h]
  cases ha : aluTag s.lat.a s.lat.b row.sig.operation with
  | error f => simp [microBody, microLatches, hrow, executeLatches, controlSignals, ha]
  | ok r =>
    cases hw : row.sig.flagWrite <;>
      simp [microBody, microLatches, hrow, executeLatches, controlSignals, ha, microCommit, commitRow,
        microAction, hw, applyOptional, applyAction, MicroKind.isLast, State.executed]

/-- Memory-Access of a load (R170). -/
theorem microStep_load (h : Ready s .memory) (hrow : s.lat.row = some row)
    (hr : row.sig.memRead = true) (hw : row.sig.memWrite = false) :
    microStep t s = match memRead s s.lat.res .b8 with
      | .error f => .next (s.raise f)
      | .ok v => .next (s.loaded v).record := by
  rw [microStep_ready h]
  cases hm : memRead s s.lat.res .b8 with
  | error f => simp [microBody, microLatches, hrow, memoryLatches, controlSignals, hr, hm]
  | ok v =>
    simp [microBody, microLatches, hrow, memoryLatches, controlSignals, hr, hm, microCommit, commitRow,
      microAction, hw, applyOptional, MicroKind.isLast, State.loaded]

/-- Memory-Access of a store (R170). -/
theorem microStep_store (h : Ready s .memory) (hrow : s.lat.row = some row)
    (hr : row.sig.memRead = false) (hw : row.sig.memWrite = true) :
    microStep t s = match memWrite s s.lat.res .b8 s.lat.data with
      | .error f => .next (s.raise f)
      | .ok s' => .next s'.stored.record := by
  rw [microStep_ready h]
  unfold memWrite
  cases hm : checkAccess s.memCapacity s.lat.res AccessSize.b8.bytes <;>
    simp [microBody, microLatches, hrow, memoryLatches, controlSignals, hr, hw, hm, microCommit, commitRow,
      microAction, applyOptional, applyAction, memWrite, MicroKind.isLast, State.stored]

/-- Write-Back, the end of its instruction (R171, R172, R176). -/
theorem microStep_writeBack (h : Ready s .writeBack) (hrow : s.lat.row = some row) :
    microStep t s = .next
      (((if row.sig.registerWrite then
          s.setReg (fieldRd s.lat.word) (if row.sig.memRead then s.lat.mem else s.lat.res)
        else s).endInstr (s.pc + 4) (disassemble row s.lat.word)).record) := by
  rw [microStep_ready h]
  cases hw : row.sig.registerWrite with
  | false =>
    simp [microBody, microLatches, hrow, controlSignals, hw, microCommit, commitRow, microAction,
      applyOptional, MicroKind.isLast, closeInstr]
  | true =>
    simp only [microBody, microLatches, hrow, controlSignals, hw, microCommit, commitRow, microAction,
      applyOptional, applyAction, MicroKind.isLast, closeInstr, if_true, State.setReg_lat, State.setReg_pc]
    rfl

/-- Branch, the end of its instruction (R173, R176). -/
theorem microStep_branch (h : Ready s .branch) (hrow : s.lat.row = some row) :
    microStep t s = .next
      ((s.endInstr (if s.lat.taken then s.lat.target else s.pc + 4) (disassemble row s.lat.word)).record) := by
  rw [microStep_ready h]
  cases hw : s.lat.taken <;>
    simp [microBody, microLatches, hrow, hw, microCommit, commitRow, microAction, applyOptional,
      applyAction, MicroKind.isLast, closeInstr, State.endInstr, State.atEnd]

end Steps

/-! ### Whole instructions, from the state Fetch left (R179) -/

section Whole
variable {t : Table} {s : State} {row : Row}

/-- The micro-steps of an R, I or IM row that writes its register are `runAlu`. -/
theorem run_alu (h : Ready s .decode) (hsel : Table.select t s.lat.word = some row)
    (hf : row.format = .r ∨ row.format = .i ∨ row.format = .im) (op : AluOp)
    (hop : aluOpOfTag row.sig.operation = some op) (hw : row.sig.registerWrite = true)
    (hr : row.sig.memRead = false) (a b : Word)
    (hlat : ({ s with lat := operandLatches s row } : State) = s.latchOperands row a b) :
    runToBoundary t 5 s =
      runAlu row op row.sig.flagWrite (fieldRd s.lat.word) a b (disassemble row s.lat.word) s := by
  have hb : row.format ≠ .b := by rintro e; rw [e] at hf; simp at hf
  have hk2 : (microList row.format)[2]? = some .control := by rcases hf with e | e | e <;> rw [e] <;> rfl
  have hk3 : (microList row.format)[3]? = some .execute := by rcases hf with e | e | e <;> rw [e] <;> rfl
  have hk4 : (microList row.format)[4]? = some .writeBack := by rcases hf with e | e | e <;> rw [e] <;> rfl
  have e2 := microStep_decode h hsel
  rw [hlat] at e2
  rw [runToBoundary_goesOn e2 (by simp [State.latchOperands]) (by simpa using h.fault)]
  have e3 : microStep t (s.latchOperands row a b).record = .next (s.latchOperands row a b).record.latchSignals.record :=
    microStep_control ⟨by simpa using h.finished, by simpa using h.fault, hk2⟩ rfl hb
  rw [runToBoundary_goesOn e3 (by simp [State.latchSignals]) (by simpa using h.fault)]
  generalize hs3 : (s.latchOperands row a b).record.latchSignals.record = s3 at e3
  have e4 : microStep t s3 = _ := microStep_execute (row := row)
    ⟨by simpa [← hs3] using h.finished, by simpa [← hs3] using h.fault, by rw [← hs3]; exact hk3⟩ (by rw [← hs3]; rfl)
  have ha : aluTag s3.lat.a s3.lat.b row.sig.operation = alu a b op := by
    rw [← hs3]; simp only [aluTag, hop]; rfl
  rw [ha] at e4
  simp only [runAlu, hs3]
  cases hr : alu a b op with
  | error f => rw [hr] at e4; exact runToBoundary_faults e4
  | ok r =>
    rw [hr] at e4
    rw [runToBoundary_goesOn e4 (by simp [State.executed]) (by simpa [← hs3] using h.fault)]
    generalize hs4 : (s3.executed r row.sig.flagWrite).record = s4
    have hrow : s4.lat.row = some row := by rw [← hs4, ← hs3]; rfl
    have e5 := microStep_writeBack (t := t) (s := s4) (row := row)
      ⟨by simpa [← hs4, ← hs3] using h.finished, by simpa [← hs4, ← hs3] using h.fault, by rw [← hs4, ← hs3]; exact hk4⟩ hrow
    rw [runToBoundary_ends e5 rfl]
    simp only [hw, if_true, ‹row.sig.memRead = false›, Bool.false_eq_true, if_false]
    rw [← hs4, ← hs3]; rfl

/-- The micro-steps of a D row as far as Memory-Access, from Decode: the address is computed. -/
theorem run_address (h : Ready s .decode) (hsel : Table.select t s.lat.word = some row)
    (hf : row.format = .d) (hop : row.sig.operation = "ADD".toList) (hw : row.sig.flagWrite = false)
    (n : Nat) (s2 : State) (hlat : ({ s with lat := operandLatches s row } : State) = s2) :
    runToBoundary t (n + 3) s =
      runToBoundary t n (s2.record.latchSignals.record.executed (aluAdd s2.lat.a s2.lat.b) false).record := by
  subst hlat
  have hrow : (operandLatches s row).row = some row := by unfold operandLatches; cases row.format <;> rfl
  have hidx : (operandLatches s row).idx = 2 := by unfold operandLatches; cases row.format <;> rfl
  have e2 := microStep_decode h hsel
  rw [runToBoundary_goesOn e2 (by simp [hidx]) (by simpa using h.fault)]
  generalize hs2 : ({ s with lat := operandLatches s row } : State).record = s2 at e2
  have e3 : microStep t s2 = .next s2.latchSignals.record :=
    microStep_control ⟨by simpa [← hs2] using h.finished, by simpa [← hs2] using h.fault,
      by simp [currentKind, ← hs2, hrow, hidx, hf, microList]⟩ (by simpa [← hs2] using hrow) (by simp [hf])
  rw [runToBoundary_goesOn e3 (by simp [State.latchSignals]) (by simpa [← hs2] using h.fault)]
  have e4 := microStep_execute (t := t) (s := s2.latchSignals.record) (row := row)
    ⟨by simpa [← hs2] using h.finished, by simpa [← hs2] using h.fault,
      by simp [currentKind, State.latchSignals, ← hs2, hrow, hf, microList]⟩
    (by simpa [← hs2, State.latchSignals] using hrow)
  have ha : ∀ a b, aluTag a b row.sig.operation = .ok (aluAdd a b) := by intro a b; rw [hop]; rfl
  rw [ha, hw] at e4
  rw [runToBoundary_goesOn e4 (by simp [State.executed]) (by simpa [← hs2] using h.fault)]
  rw [← hs2]; rfl

/-- The micro-steps of a load row are `runLoad`. -/
theorem run_load (h : Ready s .decode) (hsel : Table.select t s.lat.word = some row)
    (hf : row.format = .d) (hop : row.sig.operation = "ADD".toList) (hflag : row.sig.flagWrite = false)
    (hrw : row.sig.registerWrite = true) (hr : row.sig.memRead = true) (hw : row.sig.memWrite = false) :
    runToBoundary t 5 s =
      runLoad row (fieldRd s.lat.word) (fieldRn s.lat.word) (fieldOff9 s.lat.word)
        (disassemble row s.lat.word) s := by
  rw [run_address h hsel hf hop hflag 2
    (s.latchOperands row (s.reg (fieldRn s.lat.word)) (offsetOperand (fieldOff9 s.lat.word)))
    (by simp [State.latchOperands, operandLatches, hf, controlSignals, hw])]
  simp only [runLoad]
  generalize hs4 : State.record (State.executed _ _ _) = s4
  have hrow : s4.lat.row = some row := by rw [← hs4]; rfl
  have e5 := microStep_load (t := t) (s := s4) (row := row)
    ⟨by simpa [← hs4] using h.finished, by simpa [← hs4] using h.fault,
      by simp [currentKind, ← hs4, State.executed, State.latchSignals, State.latchOperands, hf, microList]⟩
    hrow hr hw
  have hres : s4.lat.res = effectiveAddress s (fieldRn s.lat.word) (fieldOff9 s.lat.word) := by rw [← hs4]; rfl
  rw [hres] at e5
  have hs4' : s4 = ((s.latchOperands row (s.reg (fieldRn s.lat.word))
      (offsetOperand (fieldOff9 s.lat.word))).record.latchSignals.record.executed
      (aluAdd (s.reg (fieldRn s.lat.word)) (offsetOperand (fieldOff9 s.lat.word))) false).record := by
    rw [← hs4]; rfl
  rw [← hs4']
  cases hm : memRead s4 (effectiveAddress s (fieldRn s.lat.word) (fieldOff9 s.lat.word)) .b8 with
  | error f => rw [hm] at e5; exact runToBoundary_faults e5
  | ok v =>
    rw [hm] at e5
    rw [runToBoundary_goesOn e5 (by simp [State.loaded]) (by simpa [← hs4] using h.fault)]
    have e6 := microStep_writeBack (t := t) (s := (s4.loaded v).record) (row := row)
      ⟨by simpa [← hs4] using h.finished, by simpa [← hs4] using h.fault,
        by simp [currentKind, State.loaded, hrow, hf, microList]⟩ hrow
    rw [runToBoundary_ends e6 rfl]
    simp only [hrw, hr, if_true]
    rw [← hs4]; rfl

/-- The micro-steps of a store row are `runStore`. -/
theorem run_store (h : Ready s .decode) (hsel : Table.select t s.lat.word = some row)
    (hf : row.format = .d) (hop : row.sig.operation = "ADD".toList) (hflag : row.sig.flagWrite = false)
    (hrw : row.sig.registerWrite = false) (hr : row.sig.memRead = false) (hw : row.sig.memWrite = true) :
    runToBoundary t 5 s =
      runStore row (fieldRd s.lat.word) (fieldRn s.lat.word) (fieldOff9 s.lat.word)
        (disassemble row s.lat.word) s := by
  rw [run_address h hsel hf hop hflag 2
    (s.latchStore row (s.reg (fieldRn s.lat.word)) (offsetOperand (fieldOff9 s.lat.word))
      (s.reg (fieldRd s.lat.word)))
    (by simp [State.latchStore, operandLatches, hf, controlSignals, hw])]
  simp only [runStore]
  generalize hs4 : State.record (State.executed _ _ _) = s4
  have hrow : s4.lat.row = some row := by rw [← hs4]; rfl
  have e5 := microStep_store (t := t) (s := s4) (row := row)
    ⟨by simpa [← hs4] using h.finished, by simpa [← hs4] using h.fault,
      by simp [currentKind, ← hs4, State.executed, State.latchSignals, State.latchStore, hf, microList]⟩
    hrow hr hw
  have hres : s4.lat.res = effectiveAddress s (fieldRn s.lat.word) (fieldOff9 s.lat.word) := by rw [← hs4]; rfl
  have hdat : s4.lat.data = s.reg (fieldRd s.lat.word) := by rw [← hs4]; rfl
  rw [hres, hdat] at e5
  have hs4' : s4 = ((s.latchStore row (s.reg (fieldRn s.lat.word)) (offsetOperand (fieldOff9 s.lat.word))
      (s.reg (fieldRd s.lat.word))).record.latchSignals.record.executed
      (aluAdd (s.reg (fieldRn s.lat.word)) (offsetOperand (fieldOff9 s.lat.word))) false).record := by
    rw [← hs4]; rfl
  rw [← hs4']
  rcases memWrite_cases s4 (effectiveAddress s (fieldRn s.lat.word) (fieldOff9 s.lat.word)) .b8
    (s.reg (fieldRd s.lat.word)) with ⟨-, hm⟩ | ⟨f, -, hm⟩
  · rw [hm] at e5 ⊢
    rw [runToBoundary_goesOn e5 (by simp [State.stored]) (by simpa [← hs4] using h.fault)]
    dsimp only
    generalize hs5 : State.record (State.stored _) = s5
    have e6 := microStep_writeBack (t := t) (s := s5) (row := row)
      ⟨by simpa [← hs5, ← hs4] using h.finished, by simpa [← hs5, ← hs4] using h.fault,
        by simp [← hs5, currentKind, State.stored, hrow, hf, microList]⟩ (by rw [← hs5]; exact hrow)
    rw [runToBoundary_ends e6 rfl]
    simp only [hrw, Bool.false_eq_true, if_false]
    rw [← hs5, ← hs4]; rfl
  · rw [hm] at e5 ⊢; exact runToBoundary_faults e5

/-- The micro-steps of a branch row are `runBranch`. -/
theorem run_branch (h : Ready s .decode) (hsel : Table.select t s.lat.word = some row)
    (hf : row.format = .b) :
    runToBoundary t 5 s =
      runBranch row (fieldOff26 s.lat.word) (rowTaken row s.flags) (disassemble row s.lat.word) s := by
  have e2 := microStep_decode h hsel
  have hlat : ({ s with lat := operandLatches s row } : State) =
      s.latchBranch row (branchTarget s.pc (fieldOff26 s.lat.word)) := by
    simp [State.latchBranch, operandLatches, hf]
  rw [hlat] at e2
  rw [runToBoundary_goesOn e2 (by simp [State.latchBranch]) (by simpa using h.fault)]
  simp only [runBranch]
  generalize hs2 : State.record (State.latchBranch _ _ _) = s2
  have hrow : s2.lat.row = some row := by rw [← hs2]; rfl
  have e3 := microStep_control_branch (t := t) (s := s2) (row := row)
    ⟨by simpa [← hs2] using h.finished, by simpa [← hs2] using h.fault,
      by simp [currentKind, ← hs2, State.latchBranch, hf, microList]⟩ hrow hf
  rw [runToBoundary_goesOn e3 (by simp [State.latchTaken]) (by simpa [← hs2] using h.fault)]
  generalize hs3 : State.record (State.latchTaken _ _) = s3
  have e4 := microStep_branch (t := t) (s := s3) (row := row)
    ⟨by simpa [← hs3, ← hs2] using h.finished, by simpa [← hs3, ← hs2] using h.fault,
      by simp [← hs3, currentKind, State.latchTaken, hrow, hf, microList]⟩ (by rw [← hs3]; exact hrow)
  rw [runToBoundary_ends e4 rfl, ← hs3, ← hs2]; rfl

end Whole

end Sys2Proof.Machine
end

