-- ==== Sys2Proof/Laws/PerInstr.lean ====
section
/-! SUPPORT. Per-instruction family RowSelection: the decoder, on the word the encoder writes for an
instruction, selects that instruction's own row of the default table (30_encoding.md R90, R97). -/

namespace Sys2Proof.Laws.RowSelection

open Sys2Proof

/-- The word of an instruction selects its row. -/
def Statement (i : Instr) : Prop := Table.select idtDefault (encode i) = some i.row

theorem add (rd rn rm : Reg) : Statement (.add rd rn rm) := by
  unfold Statement
  rw [select_default, selectBy_key, show topBits 11 (encode (.add rd rn rm)) = _ from topBits_encodeR 0x458 rm 0 rn rd]
  rfl

theorem sub (rd rn rm : Reg) : Statement (.sub rd rn rm) := by
  unfold Statement
  rw [select_default, selectBy_key, show topBits 11 (encode (.sub rd rn rm)) = _ from topBits_encodeR 0x658 rm 0 rn rd]
  rfl

theorem adds (rd rn rm : Reg) : Statement (.adds rd rn rm) := by
  unfold Statement
  rw [select_default, selectBy_key, show topBits 11 (encode (.adds rd rn rm)) = _ from topBits_encodeR 0x558 rm 0 rn rd]
  rfl

theorem subs (rd rn rm : Reg) : Statement (.subs rd rn rm) := by
  unfold Statement
  rw [select_default, selectBy_key, show topBits 11 (encode (.subs rd rn rm)) = _ from topBits_encodeR 0x758 rm 0 rn rd]
  rfl

theorem and (rd rn rm : Reg) : Statement (.and rd rn rm) := by
  unfold Statement
  rw [select_default, selectBy_key, show topBits 11 (encode (.and rd rn rm)) = _ from topBits_encodeR 0x450 rm 0 rn rd]
  rfl

theorem orr (rd rn rm : Reg) : Statement (.orr rd rn rm) := by
  unfold Statement
  rw [select_default, selectBy_key, show topBits 11 (encode (.orr rd rn rm)) = _ from topBits_encodeR 0x550 rm 0 rn rd]
  rfl

theorem eor (rd rn rm : Reg) : Statement (.eor rd rn rm) := by
  unfold Statement
  rw [select_default, selectBy_key, show topBits 11 (encode (.eor rd rn rm)) = _ from topBits_encodeR 0x650 rm 0 rn rd]
  rfl

theorem ands (rd rn rm : Reg) : Statement (.ands rd rn rm) := by
  unfold Statement
  rw [select_default, selectBy_key, show topBits 11 (encode (.ands rd rn rm)) = _ from topBits_encodeR 0x750 rm 0 rn rd]
  rfl

theorem mul (rd rn rm : Reg) : Statement (.mul rd rn rm) := by
  unfold Statement
  rw [select_default, selectBy_key, show topBits 11 (encode (.mul rd rn rm)) = _ from topBits_encodeR 0x4D8 rm 0 rn rd]
  rfl

theorem smulh (rd rn rm : Reg) : Statement (.smulh rd rn rm) := by
  unfold Statement
  rw [select_default, selectBy_key, show topBits 11 (encode (.smulh rd rn rm)) = _ from topBits_encodeR 0x4DA rm 0 rn rd]
  rfl

theorem umulh (rd rn rm : Reg) : Statement (.umulh rd rn rm) := by
  unfold Statement
  rw [select_default, selectBy_key, show topBits 11 (encode (.umulh rd rn rm)) = _ from topBits_encodeR 0x4DE rm 0 rn rd]
  rfl

theorem sdiv (rd rn rm : Reg) : Statement (.sdiv rd rn rm) := by
  unfold Statement
  rw [select_default, selectBy_key, show topBits 11 (encode (.sdiv rd rn rm)) = _ from topBits_encodeR 0x4D6 rm 0 rn rd]
  rfl

theorem udiv (rd rn rm : Reg) : Statement (.udiv rd rn rm) := by
  unfold Statement
  rw [select_default, selectBy_key, show topBits 11 (encode (.udiv rd rn rm)) = _ from topBits_encodeR 0x4D7 rm 0 rn rd]
  rfl

theorem lsl (rd rn : Reg) (shamt : BitVec 6) : Statement (.lsl rd rn shamt) := by
  unfold Statement
  rw [select_default, selectBy_key, show topBits 11 (encode (.lsl rd rn shamt)) = _ from topBits_encodeR 0x69B 0 shamt rn rd]
  rfl

theorem lsr (rd rn : Reg) (shamt : BitVec 6) : Statement (.lsr rd rn shamt) := by
  unfold Statement
  rw [select_default, selectBy_key, show topBits 11 (encode (.lsr rd rn shamt)) = _ from topBits_encodeR 0x69A 0 shamt rn rd]
  rfl

theorem asr (rd rn : Reg) (shamt : BitVec 6) : Statement (.asr rd rn shamt) := by
  unfold Statement
  rw [select_default, selectBy_key, show topBits 11 (encode (.asr rd rn shamt)) = _ from topBits_encodeR 0x69C 0 shamt rn rd]
  rfl

theorem addi (rd rn : Reg) (imm12 : BitVec 12) : Statement (.addi rd rn imm12) := by
  unfold Statement
  rw [select_default, selectBy_key, show topBits 11 (encode (.addi rd rn imm12)) = _ from topBits_encodeI 0x244 imm12 rn rd]
  cases imm12.getMsbD 0 <;> rfl

theorem subi (rd rn : Reg) (imm12 : BitVec 12) : Statement (.subi rd rn imm12) := by
  unfold Statement
  rw [select_default, selectBy_key, show topBits 11 (encode (.subi rd rn imm12)) = _ from topBits_encodeI 0x344 imm12 rn rd]
  cases imm12.getMsbD 0 <;> rfl

theorem addis (rd rn : Reg) (imm12 : BitVec 12) : Statement (.addis rd rn imm12) := by
  unfold Statement
  rw [select_default, selectBy_key, show topBits 11 (encode (.addis rd rn imm12)) = _ from topBits_encodeI 0x2C4 imm12 rn rd]
  cases imm12.getMsbD 0 <;> rfl

theorem subis (rd rn : Reg) (imm12 : BitVec 12) : Statement (.subis rd rn imm12) := by
  unfold Statement
  rw [select_default, selectBy_key, show topBits 11 (encode (.subis rd rn imm12)) = _ from topBits_encodeI 0x3C4 imm12 rn rd]
  cases imm12.getMsbD 0 <;> rfl

theorem andi (rd rn : Reg) (imm12 : BitVec 12) : Statement (.andi rd rn imm12) := by
  unfold Statement
  rw [select_default, selectBy_key, show topBits 11 (encode (.andi rd rn imm12)) = _ from topBits_encodeI 0x248 imm12 rn rd]
  cases imm12.getMsbD 0 <;> rfl

theorem orri (rd rn : Reg) (imm12 : BitVec 12) : Statement (.orri rd rn imm12) := by
  unfold Statement
  rw [select_default, selectBy_key, show topBits 11 (encode (.orri rd rn imm12)) = _ from topBits_encodeI 0x2C8 imm12 rn rd]
  cases imm12.getMsbD 0 <;> rfl

theorem eori (rd rn : Reg) (imm12 : BitVec 12) : Statement (.eori rd rn imm12) := by
  unfold Statement
  rw [select_default, selectBy_key, show topBits 11 (encode (.eori rd rn imm12)) = _ from topBits_encodeI 0x348 imm12 rn rd]
  cases imm12.getMsbD 0 <;> rfl

theorem andis (rd rn : Reg) (imm12 : BitVec 12) : Statement (.andis rd rn imm12) := by
  unfold Statement
  rw [select_default, selectBy_key, show topBits 11 (encode (.andis rd rn imm12)) = _ from topBits_encodeI 0x3C8 imm12 rn rd]
  cases imm12.getMsbD 0 <;> rfl

theorem ldur (rt rn : Reg) (off9 : BitVec 9) : Statement (.ldur rt rn off9) := by
  unfold Statement
  rw [select_default, selectBy_key, show topBits 11 (encode (.ldur rt rn off9)) = _ from topBits_encodeD 0x7C2 off9 0 rn rt]
  rfl

theorem stur (rt rn : Reg) (off9 : BitVec 9) : Statement (.stur rt rn off9) := by
  unfold Statement
  rw [select_default, selectBy_key, show topBits 11 (encode (.stur rt rn off9)) = _ from topBits_encodeD 0x7C0 off9 0 rn rt]
  rfl

theorem b (off26 : BitVec 26) : Statement (.b off26) := by
  unfold Statement
  rw [select_default, selectBy_key, show topBits 11 (encode (.b off26)) = _ from topBits_encodeB 0x5 off26]
  generalize off26.getMsbD 0 = b0, off26.getMsbD 1 = b1, off26.getMsbD 2 = b2, off26.getMsbD 3 = b3,
    off26.getMsbD 4 = b4
  revert b0 b1 b2 b3 b4
  change ∀ b0 b1 b2 b3 b4 : Bool, _ = some DefaultRow.b
  decide

theorem bEq (off26 : BitVec 26) : Statement (.bEq off26) := by
  unfold Statement
  rw [select_default, selectBy_key, show topBits 11 (encode (.bEq off26)) = _ from topBits_encodeB 0x10 off26]
  generalize off26.getMsbD 0 = b0, off26.getMsbD 1 = b1, off26.getMsbD 2 = b2, off26.getMsbD 3 = b3,
    off26.getMsbD 4 = b4
  revert b0 b1 b2 b3 b4
  change ∀ b0 b1 b2 b3 b4 : Bool, _ = some DefaultRow.bEq
  decide

theorem bNe (off26 : BitVec 26) : Statement (.bNe off26) := by
  unfold Statement
  rw [select_default, selectBy_key, show topBits 11 (encode (.bNe off26)) = _ from topBits_encodeB 0x11 off26]
  generalize off26.getMsbD 0 = b0, off26.getMsbD 1 = b1, off26.getMsbD 2 = b2, off26.getMsbD 3 = b3,
    off26.getMsbD 4 = b4
  revert b0 b1 b2 b3 b4
  change ∀ b0 b1 b2 b3 b4 : Bool, _ = some DefaultRow.bNe
  decide

theorem bGe (off26 : BitVec 26) : Statement (.bGe off26) := by
  unfold Statement
  rw [select_default, selectBy_key, show topBits 11 (encode (.bGe off26)) = _ from topBits_encodeB 0x1A off26]
  generalize off26.getMsbD 0 = b0, off26.getMsbD 1 = b1, off26.getMsbD 2 = b2, off26.getMsbD 3 = b3,
    off26.getMsbD 4 = b4
  revert b0 b1 b2 b3 b4
  change ∀ b0 b1 b2 b3 b4 : Bool, _ = some DefaultRow.bGe
  decide

theorem bLt (off26 : BitVec 26) : Statement (.bLt off26) := by
  unfold Statement
  rw [select_default, selectBy_key, show topBits 11 (encode (.bLt off26)) = _ from topBits_encodeB 0x1B off26]
  generalize off26.getMsbD 0 = b0, off26.getMsbD 1 = b1, off26.getMsbD 2 = b2, off26.getMsbD 3 = b3,
    off26.getMsbD 4 = b4
  revert b0 b1 b2 b3 b4
  change ∀ b0 b1 b2 b3 b4 : Bool, _ = some DefaultRow.bLt
  decide

theorem bGt (off26 : BitVec 26) : Statement (.bGt off26) := by
  unfold Statement
  rw [select_default, selectBy_key, show topBits 11 (encode (.bGt off26)) = _ from topBits_encodeB 0x1C off26]
  generalize off26.getMsbD 0 = b0, off26.getMsbD 1 = b1, off26.getMsbD 2 = b2, off26.getMsbD 3 = b3,
    off26.getMsbD 4 = b4
  revert b0 b1 b2 b3 b4
  change ∀ b0 b1 b2 b3 b4 : Bool, _ = some DefaultRow.bGt
  decide

theorem bLe (off26 : BitVec 26) : Statement (.bLe off26) := by
  unfold Statement
  rw [select_default, selectBy_key, show topBits 11 (encode (.bLe off26)) = _ from topBits_encodeB 0x1D off26]
  generalize off26.getMsbD 0 = b0, off26.getMsbD 1 = b1, off26.getMsbD 2 = b2, off26.getMsbD 3 = b3,
    off26.getMsbD 4 = b4
  revert b0 b1 b2 b3 b4
  change ∀ b0 b1 b2 b3 b4 : Bool, _ = some DefaultRow.bLe
  decide

theorem movz (rd : Reg) (imm16 : BitVec 16) (hw : BitVec 2) : Statement (.movz rd imm16 hw) := by
  unfold Statement
  rw [select_default, selectBy_key, show topBits 11 (encode (.movz rd imm16 hw)) = _ from topBits_encodeIM 0x1A5 hw imm16 rd]
  cases hw.getMsbD 0 <;> cases hw.getMsbD 1 <;> rfl

end Sys2Proof.Laws.RowSelection
end

