-- ==== Sys2Proof/Laws/Text.lean ====
section
/-! SUPPORT. The canonical text of a word of each format, whatever its ignored bits are (30_encoding.md R93,
R111). -/

namespace Sys2Proof.Machine

open Sys2Proof

/-- R format, operation no shift. -/
theorem disassemble_R (row : Row) (hf : row.format = .r) (hs : isShiftTag row.sig.operation = false)
    (op : BitVec 11) (rm : Reg) (sh : BitVec 6) (rn rd : Reg) :
    disassemble row (op ++ rm ++ sh ++ rn ++ rd) = textR row.mnemonic rd rn rm := by
  unfold disassemble
  simp only [hf, hs, Bool.false_eq_true, if_false, fieldRd_R, fieldRn_R, fieldRm_R]

/-- R format, operation a shift. -/
theorem disassemble_shift (row : Row) (hf : row.format = .r) (hs : isShiftTag row.sig.operation = true)
    (op : BitVec 11) (rm : Reg) (sh : BitVec 6) (rn rd : Reg) :
    disassemble row (op ++ rm ++ sh ++ rn ++ rd) = textShift row.mnemonic rd rn sh := by
  unfold disassemble
  simp only [hf, hs, if_true, fieldRd_R, fieldRn_R, fieldShamt_R]

/-- I format. -/
theorem disassemble_I (row : Row) (hf : row.format = .i) (op : BitVec 10) (imm : BitVec 12) (rn rd : Reg) :
    disassemble row (op ++ imm ++ rn ++ rd) = textI row.mnemonic rd rn imm := by
  unfold disassemble
  simp only [hf, fieldRd_I, fieldRn_I, fieldImm12_I]

/-- D format. -/
theorem disassemble_D (row : Row) (hf : row.format = .d) (op : BitVec 11) (off : BitVec 9) (op2 : BitVec 2)
    (rn rt : Reg) : disassemble row (op ++ off ++ op2 ++ rn ++ rt) = textD row.mnemonic rt rn off := by
  unfold disassemble
  simp only [hf, fieldRd_D, fieldRn_D, fieldOff9_D]

/-- B format. -/
theorem disassemble_B (row : Row) (hf : row.format = .b) (op : BitVec 6) (off : BitVec 26) :
    disassemble row (op ++ off) = textB row.mnemonic off := by
  unfold disassemble
  simp only [hf, fieldOff26_B]

/-- IM format. -/
theorem disassemble_IM (row : Row) (hf : row.format = .im) (op : BitVec 9) (hw : BitVec 2)
    (imm : BitVec 16) (rd : Reg) :
    disassemble row (op ++ hw ++ imm ++ rd) = textIM row.mnemonic rd imm hw := by
  unfold disassemble
  simp only [hf, fieldRd_IM, fieldImm16_IM, fieldHw_IM]

end Sys2Proof.Machine
end

