-- ==== Sys2Proof/Tests/Slice0.lean ====
section
/-! SUPPORT. The model's own tests. Expected values come from spec/95_test_vectors.md (the program, vector or
example named) or from the encoding tables of spec/30_encoding.md, written out by hand. -/

namespace Sys2Proof.Tests

open Sys2Proof Sys2Proof.Machine

/-! ### Well-formedness: a term each check refuses (30_encoding.md R95, 00_scope.md R8) -/

theorem test_default_table_well_formed : Table.wellFormed idtDefault = true := by decide

/-- R95 clause 1: a pattern one bit short. -/
theorem test_refuses_short_pattern :
    Row.patternOk { DefaultRow.add with opcode := DefaultRow.add.opcode.take 10 } = false := by decide

/-- R95 clause 2: two rows with one pattern, and two with one mnemonic. -/
theorem test_refuses_equal_patterns :
    Table.patternsDistinct [DefaultRow.add, { DefaultRow.add with mnemonic := "TWIN".toList }] = false := by decide

theorem test_refuses_equal_mnemonics :
    Table.mnemonicsDistinct [DefaultRow.add, { DefaultRow.sub with mnemonic := "ADD".toList }] = false := by decide

/-- R95 clause 3, R96: a compare-and-branch row. -/
theorem test_refuses_zero_branch :
    Row.zeroBranchOk { DefaultRow.b with sig := { DefaultRow.b.sig with zeroBranch := true } } = false := by decide

/-- R95 clause 4: a B row with both branch signals, one that writes a register, an R row that branches. -/
theorem test_refuses_bad_branch_rows :
    Row.branchOk { DefaultRow.b with sig := { DefaultRow.b.sig with flagBranch := true } } = false ∧
    Row.branchOk { DefaultRow.b with sig := { DefaultRow.b.sig with registerWrite := true } } = false ∧
    Row.branchOk { DefaultRow.add with sig := { DefaultRow.add.sig with uncondBranch := true } } = false := by decide

/-- R95 clause 5: a D row that loads and stores, and one that writes flags. -/
theorem test_refuses_bad_data_rows :
    Row.dataOk { DefaultRow.ldur with sig := { DefaultRow.ldur.sig with memWrite := true } } = false ∧
    Row.dataOk { DefaultRow.stur with sig := { DefaultRow.stur.sig with flagWrite := true } } = false := by decide

/-- R95 clause 6: an R row that reads memory. -/
theorem test_refuses_memory_in_register_row :
    Row.noMemoryOk { DefaultRow.add with sig := { DefaultRow.add.sig with memRead := true } } = false := by decide

/-- R95 clause 7: an IM row whose operation is not PASS. -/
theorem test_refuses_move_without_pass :
    Row.passOk { DefaultRow.movz with sig := { DefaultRow.movz.sig with operation := "ADD".toList } } = false := by decide

theorem test_refuses_bad_capacity :
    memCapacityOk 12 = false ∧ memCapacityOk 0 = false ∧ memCapacityOk (2 ^ 63) = false := by decide

theorem test_refuses_empty_history : historyMaxOk 0 = false := by decide

/-- Every field value is encodable: nothing of `Instr` is ill-formed (log entry 11). -/
theorem test_every_instruction_well_formed : Instr.wellFormed (.movz 31 65535 3) = true := rfl

/-! ### Decoding: each constructor's word, field by field (30_encoding.md R83 to R87, R97) -/

theorem test_decode_add :
    decode (0b10001011000#11 ++ 0b00010#5 ++ 0b101010#6 ++ 0b00001#5 ++ 0b11110#5) = some (.add 30 1 2) := by decide

theorem test_decode_sub :
    decode (0b11001011000#11 ++ 0b00010#5 ++ 0b101010#6 ++ 0b00001#5 ++ 0b11110#5) = some (.sub 30 1 2) := by decide

theorem test_decode_adds :
    decode (0b10101011000#11 ++ 0b00010#5 ++ 0b101010#6 ++ 0b00001#5 ++ 0b11110#5) = some (.adds 30 1 2) := by decide

theorem test_decode_subs :
    decode (0b11101011000#11 ++ 0b00010#5 ++ 0b101010#6 ++ 0b00001#5 ++ 0b11110#5) = some (.subs 30 1 2) := by decide

theorem test_decode_and :
    decode (0b10001010000#11 ++ 0b00010#5 ++ 0b101010#6 ++ 0b00001#5 ++ 0b11110#5) = some (.and 30 1 2) := by decide

theorem test_decode_orr :
    decode (0b10101010000#11 ++ 0b00010#5 ++ 0b101010#6 ++ 0b00001#5 ++ 0b11110#5) = some (.orr 30 1 2) := by decide

theorem test_decode_eor :
    decode (0b11001010000#11 ++ 0b00010#5 ++ 0b101010#6 ++ 0b00001#5 ++ 0b11110#5) = some (.eor 30 1 2) := by decide

theorem test_decode_ands :
    decode (0b11101010000#11 ++ 0b00010#5 ++ 0b101010#6 ++ 0b00001#5 ++ 0b11110#5) = some (.ands 30 1 2) := by decide

theorem test_decode_mul :
    decode (0b10011011000#11 ++ 0b00010#5 ++ 0b101010#6 ++ 0b00001#5 ++ 0b11110#5) = some (.mul 30 1 2) := by decide

theorem test_decode_smulh :
    decode (0b10011011010#11 ++ 0b00010#5 ++ 0b101010#6 ++ 0b00001#5 ++ 0b11110#5) = some (.smulh 30 1 2) := by decide

theorem test_decode_umulh :
    decode (0b10011011110#11 ++ 0b00010#5 ++ 0b101010#6 ++ 0b00001#5 ++ 0b11110#5) = some (.umulh 30 1 2) := by decide

theorem test_decode_sdiv :
    decode (0b10011010110#11 ++ 0b00010#5 ++ 0b101010#6 ++ 0b00001#5 ++ 0b11110#5) = some (.sdiv 30 1 2) := by decide

theorem test_decode_udiv :
    decode (0b10011010111#11 ++ 0b00010#5 ++ 0b101010#6 ++ 0b00001#5 ++ 0b11110#5) = some (.udiv 30 1 2) := by decide

theorem test_decode_lsl :
    decode (0b11010011011#11 ++ 0b10101#5 ++ 0b111110#6 ++ 0b00001#5 ++ 0b11110#5) = some (.lsl 30 1 62) := by decide

theorem test_decode_lsr :
    decode (0b11010011010#11 ++ 0b10101#5 ++ 0b111110#6 ++ 0b00001#5 ++ 0b11110#5) = some (.lsr 30 1 62) := by decide

theorem test_decode_asr :
    decode (0b11010011100#11 ++ 0b10101#5 ++ 0b111110#6 ++ 0b00001#5 ++ 0b11110#5) = some (.asr 30 1 62) := by decide

theorem test_decode_addi :
    decode (0b1001000100#10 ++ 0b100000000001#12 ++ 0b00001#5 ++ 0b11110#5) = some (.addi 30 1 2049) := by decide

theorem test_decode_subi :
    decode (0b1101000100#10 ++ 0b100000000001#12 ++ 0b00001#5 ++ 0b11110#5) = some (.subi 30 1 2049) := by decide

theorem test_decode_addis :
    decode (0b1011000100#10 ++ 0b100000000001#12 ++ 0b00001#5 ++ 0b11110#5) = some (.addis 30 1 2049) := by decide

theorem test_decode_subis :
    decode (0b1111000100#10 ++ 0b100000000001#12 ++ 0b00001#5 ++ 0b11110#5) = some (.subis 30 1 2049) := by decide

theorem test_decode_andi :
    decode (0b1001001000#10 ++ 0b100000000001#12 ++ 0b00001#5 ++ 0b11110#5) = some (.andi 30 1 2049) := by decide

theorem test_decode_orri :
    decode (0b1011001000#10 ++ 0b100000000001#12 ++ 0b00001#5 ++ 0b11110#5) = some (.orri 30 1 2049) := by decide

theorem test_decode_eori :
    decode (0b1101001000#10 ++ 0b100000000001#12 ++ 0b00001#5 ++ 0b11110#5) = some (.eori 30 1 2049) := by decide

theorem test_decode_andis :
    decode (0b1111001000#10 ++ 0b100000000001#12 ++ 0b00001#5 ++ 0b11110#5) = some (.andis 30 1 2049) := by decide

theorem test_decode_ldur :
    decode (0b11111000010#11 ++ 0b111111000#9 ++ 0b11#2 ++ 0b00001#5 ++ 0b11110#5) = some (.ldur 30 1 504) := by decide

theorem test_decode_stur :
    decode (0b11111000000#11 ++ 0b111111000#9 ++ 0b11#2 ++ 0b00001#5 ++ 0b11110#5) = some (.stur 30 1 504) := by decide

theorem test_decode_b :
    decode (0b000101#6 ++ 0b11111111111111111111111101#26) = some (.b 67108861) := by decide

theorem test_decode_bEq :
    decode (0b010000#6 ++ 0b11111111111111111111111101#26) = some (.bEq 67108861) := by decide

theorem test_decode_bNe :
    decode (0b010001#6 ++ 0b11111111111111111111111101#26) = some (.bNe 67108861) := by decide

theorem test_decode_bGe :
    decode (0b011010#6 ++ 0b11111111111111111111111101#26) = some (.bGe 67108861) := by decide

theorem test_decode_bLt :
    decode (0b011011#6 ++ 0b11111111111111111111111101#26) = some (.bLt 67108861) := by decide

theorem test_decode_bGt :
    decode (0b011100#6 ++ 0b11111111111111111111111101#26) = some (.bGt 67108861) := by decide

theorem test_decode_bLe :
    decode (0b011101#6 ++ 0b11111111111111111111111101#26) = some (.bLe 67108861) := by decide

theorem test_decode_movz :
    decode (0b110100101#9 ++ 0b10#2 ++ 0b0001001000110100#16 ++ 0b00010#5) = some (.movz 2 4660 2) := by decide

/-- 95_test_vectors.md section 3: illegal words, near misses among them. -/
theorem test_illegal_words :
    [0x00000000#32, 0xFFFFFFFF#32, 0x54000040#32, 0x94000000#32, 0xD6000000#32, 0xB4000000#32, 0xB5000000#32,
      0xF2800000#32, 0x38400000#32, 0xD3A00000#32, 0x9B200000#32, 0x7C000000#32, 0x48000000#32].all
      (fun w => (decode w).isNone) = true := by decide

/-- 95_test_vectors.md section 3: MOVZ and EORI differ in bit 23 only; MUL with its usual shamt. -/
theorem test_near_words :
    decode 0xD2800000#32 = some (.movz 0 0 0) ∧ decode 0xD2000000#32 = some (.eori 0 0 0) ∧
    decode 0x9B027C23#32 = some (.mul 3 1 2) := by decide

/-- The table's numbering of bits: word bit 0 is bit 0; an operand word that is not there is 0. -/
theorem test_decode_table_word :
    decodeTableWord 32 0x8B020023 = some (.add 3 1 2) ∧ decodeTableWord 64 0x8B020023 = none := by decide

/-! ### The encoder, the assembler and the disassembler (95_test_vectors.md section 3) -/

theorem test_encode :
    encode (.subs 31 3 4) = 0xEB04007F#32 ∧ encode (.lsr 3 1 63) = 0xD340FC23#32 ∧
    encode (.eori 2 1 4095) = 0xD23FFC22#32 ∧ encode (.movz 1 65535 3) = 0xD2FFFFE1#32 ∧
    encode (.ldur 3 1 504) = 0xF85F8023#32 ∧ encode (.bLt 67108861) = 0x6FFFFFFD#32 := by decide

theorem test_assemble_data :
    assemble idtDefault "STUR XZR, [XZR, #-256]".toList = .ok 0xF81003FF#32 := by decide

theorem test_assemble_move :
    assemble idtDefault "MOVZ X2, #4660, LSL #32".toList = .ok 0xD2C24682#32 := by decide

theorem test_assemble_branch : assemble idtDefault "B.NE #-2".toList = .ok 0x47FFFFFE#32 := by decide

/-- "`ADDI X2, X1, #-1` assembles to `0x913FFC22`". -/
theorem test_assemble_masks_immediate :
    assemble idtDefault "ADDI X2, X1, #-1".toList = .ok 0x913FFC22#32 := by decide

/-- "`ADD X3, X1, X32` raises `InvalidOperand`"; "`MOVZ X1, #1, LSL #8` raises `InvalidOperand`". -/
theorem test_assemble_rejects_operand :
    assemble idtDefault "ADD X3, X1, X32".toList = .error (.invalidOperand "ADD X3, X1, X32".toList) ∧
    assemble idtDefault "MOVZ X1, #1, LSL #8".toList =
      .error (.invalidOperand "MOVZ X1, #1, LSL #8".toList) := by decide

/-- "`CBZ X1, #2` raises `UnknownOpcode`". -/
theorem test_assemble_rejects_mnemonic :
    assemble idtDefault "CBZ X1, #2".toList = .error (.unknownOpcode (.line "CBZ X1, #2".toList)) := by decide

theorem test_canonical_text :
    instrText (.ldur 3 1 504) = "LDUR X3, [X1, #-8]".toList ∧
    instrText (.movz 2 4660 2) = "MOVZ X2, #4660, LSL #32".toList ∧
    instrText (.subs 31 3 4) = "SUBS XZR, X3, X4".toList ∧ instrText (.lsl 3 1 0) = "LSL X3, X1, #0".toList := by
  decide

/-! ### One step of each instruction (operands and results: 95_test_vectors.md sections 2 and 5) -/

/-- A machine with the given program loaded: 4096 bytes of memory and 100 snapshots. -/
def machine (program : List InstrWord) : State :=
  { State.reset with program := program, finished := program.isEmpty, memCapacity := 4096, historyMax := 100 }

/-- A machine about to run one word, with `X1`, `X2` and the flags set. -/
def oneWord (w : InstrWord) (x1 x2 : Word) (nzcv : Flags) : State :=
  { ((machine [w]).setReg 1 x1).setReg 2 x2 with flags := nzcv }

/-- What one step shows of `X3`, the flags, the pc and `finished`; nothing when it faults. -/
def shown (s : State) : Option (Word × Flags × Word × Bool) :=
  match step s with
  | .next t => if t.fault.isSome then none else some (t.reg 3, t.flags, t.pc, t.finished)
  | .fault _ => none
  | .refused _ => none

/-- Flags from four bits, in the order N Z C V. -/
def nzcv (n z c v : Bool) : Flags := { n := n, z := z, c := c, v := v }

/-- Some flags that a wrong write would change. -/
def before : Flags := nzcv true false true false

theorem test_step_add :
    shown (oneWord 0x8B020023#32 0xFFFFFFFFFFFFFFFF 1 before) = some (0, before, 4, true) := by decide

theorem test_step_sub :
    shown (oneWord 0xCB020023#32 0 1 before) = some (0xFFFFFFFFFFFFFFFF, before, 4, true) := by decide

theorem test_step_adds :
    shown (oneWord 0xAB020023#32 0xFFFFFFFFFFFFFFFF 0xFFFFFFFFFFFFFFFF before) = some (0xFFFFFFFFFFFFFFFE, (nzcv true false true false), 4, true) := by decide

theorem test_step_adds_overflow :
    shown (oneWord 0xAB020023#32 0x7FFFFFFFFFFFFFFF 0x7FFFFFFFFFFFFFFF before) = some (0xFFFFFFFFFFFFFFFE, (nzcv true false false true), 4, true) := by decide

theorem test_step_subs :
    shown (oneWord 0xEB020023#32 0x8000000000000000 1 before) = some (0x7FFFFFFFFFFFFFFF, (nzcv false false true true), 4, true) := by decide

theorem test_step_subs_borrow :
    shown (oneWord 0xEB020023#32 3 5 before) = some (0xFFFFFFFFFFFFFFFE, (nzcv true false false false), 4, true) := by decide

theorem test_step_and :
    shown (oneWord 0x8A020023#32 0xF0F0 0xFF0 before) = some (0xF0, before, 4, true) := by decide

theorem test_step_orr :
    shown (oneWord 0xAA020023#32 0xF0F0 0xFF0 before) = some (0xFFF0, before, 4, true) := by decide

theorem test_step_eor :
    shown (oneWord 0xCA020023#32 0xF0F0 0xFF0 before) = some (0xFF00, before, 4, true) := by decide

theorem test_step_ands :
    shown (oneWord 0xEA020023#32 0xFFFFFFFFFFFFFFFF 0x8000000000000000 before) = some (0x8000000000000000, (nzcv true false false false), 4, true) := by decide

theorem test_step_mul :
    shown (oneWord 0x9B020023#32 0x123456789ABCDEF0 0x0FEDCBA987654321 before) = some (0x2236D88FE5618CF0, before, 4, true) := by decide

theorem test_step_smulh :
    shown (oneWord 0x9B420023#32 0xFFFFFFFFFFFFFFFD 7 before) = some (0xFFFFFFFFFFFFFFFF, before, 4, true) := by decide

theorem test_step_umulh :
    shown (oneWord 0x9BC20023#32 0xFFFFFFFFFFFFFFFD 7 before) = some (6, before, 4, true) := by decide

/-- Toward zero, and the quotient that does not fit wraps. -/
theorem test_step_sdiv :
    shown (oneWord 0x9AC20023#32 0xFFFFFFFFFFFFFFF9 2 before) = some (0xFFFFFFFFFFFFFFFD, before, 4, true) ∧
    shown (oneWord 0x9AC20023#32 0x8000000000000000 0xFFFFFFFFFFFFFFFF before) =
      some (0x8000000000000000, before, 4, true) := by decide

theorem test_step_udiv :
    shown (oneWord 0x9AE20023#32 0xFFFFFFFFFFFFFFF9 2 before) = some (0x7FFFFFFFFFFFFFFC, before, 4, true) := by decide

/-- The word is LSL X3, X1, #63. -/
theorem test_step_lsl :
    shown (oneWord 0xD360FC23#32 3 0 before) = some (0x8000000000000000, before, 4, true) := by decide

theorem test_step_lsr :
    shown (oneWord 0xD340FC23#32 0x8000000000000000 0 before) = some (1, before, 4, true) := by decide

theorem test_step_asr :
    shown (oneWord 0xD3800423#32 0x8000000000000000 0 before) = some (0xC000000000000000, before, 4, true) := by decide

/-- The immediate 4095 is zero-extended (30_encoding.md R98). -/
theorem test_step_addi :
    shown (oneWord 0x913ffc23#32 1 0 before) = some (4096, before, 4, true) := by decide

theorem test_step_subi :
    shown (oneWord 0xd1000423#32 0 0 before) = some (0xFFFFFFFFFFFFFFFF, before, 4, true) := by decide

theorem test_step_addis :
    shown (oneWord 0xb1000423#32 0xFFFFFFFFFFFFFFFF 0 before) = some (0, (nzcv false true true false), 4, true) := by decide

theorem test_step_subis :
    shown (oneWord 0xf1000423#32 0x8000000000000000 0 before) = some (0x7FFFFFFFFFFFFFFF, (nzcv false false true true), 4, true) := by decide

theorem test_step_andi :
    shown (oneWord 0x9203fc23#32 0xFFFF 0 before) = some (0xFF, before, 4, true) := by decide

theorem test_step_orri :
    shown (oneWord 0xb2000423#32 0xF0F0 0 before) = some (0xF0F1, before, 4, true) := by decide

theorem test_step_eori :
    shown (oneWord 0xd23ffc23#32 0xFFFFFFFFFFFFFFFF 0 before) = some (0xFFFFFFFFFFFFF000, before, 4, true) := by decide

theorem test_step_andis :
    shown (oneWord 0xf2200023#32 0x7FF 0 before) = some (0, (nzcv false true false false), 4, true) := by decide

/-- The word is MOVZ X3, #65535, LSL #48. -/
theorem test_step_movz :
    shown (oneWord 0xD2FFFFE3#32 0 0 before) = some (0xFFFF000000000000, before, 4, true) := by decide

theorem test_step_b_taken :
    shown (oneWord 0x14000005#32 0 0 (nzcv false false false false)) = some (0, (nzcv false false false false), 20, false) := by decide

theorem test_step_bEq_taken :
    shown (oneWord 0x40000005#32 0 0 (nzcv false true false false)) = some (0, (nzcv false true false false), 20, false) := by decide

theorem test_step_bEq_not_taken :
    shown (oneWord 0x40000005#32 0 0 (nzcv true false true true)) = some (0, (nzcv true false true true), 4, true) := by decide

theorem test_step_bNe_taken :
    shown (oneWord 0x44000005#32 0 0 (nzcv false false true true)) = some (0, (nzcv false false true true), 20, false) := by decide

theorem test_step_bNe_not_taken :
    shown (oneWord 0x44000005#32 0 0 (nzcv false true false false)) = some (0, (nzcv false true false false), 4, true) := by decide

theorem test_step_bGe_taken :
    shown (oneWord 0x68000005#32 0 0 (nzcv true false false true)) = some (0, (nzcv true false false true), 20, false) := by decide

theorem test_step_bGe_not_taken :
    shown (oneWord 0x68000005#32 0 0 (nzcv true false true false)) = some (0, (nzcv true false true false), 4, true) := by decide

theorem test_step_bLt_taken :
    shown (oneWord 0x6c000005#32 0 0 (nzcv true false true false)) = some (0, (nzcv true false true false), 20, false) := by decide

theorem test_step_bLt_not_taken :
    shown (oneWord 0x6c000005#32 0 0 (nzcv true true false true)) = some (0, (nzcv true true false true), 4, true) := by decide

theorem test_step_bGt_taken :
    shown (oneWord 0x70000005#32 0 0 (nzcv true false false true)) = some (0, (nzcv true false false true), 20, false) := by decide

theorem test_step_bGt_not_taken :
    shown (oneWord 0x70000005#32 0 0 (nzcv true true false true)) = some (0, (nzcv true true false true), 4, true) := by decide

theorem test_step_bLe_taken :
    shown (oneWord 0x74000005#32 0 0 (nzcv false true false false)) = some (0, (nzcv false true false false), 20, false) := by decide

theorem test_step_bLe_not_taken :
    shown (oneWord 0x74000005#32 0 0 (nzcv true false false true)) = some (0, (nzcv true false false true), 4, true) := by decide

/-- P5: `STUR X2, [X1, #0]` then the doubleword reads 7, least significant byte first. -/
theorem test_step_stur :
    (match step (oneWord 0xF8000022#32 16 0x0706 before) with
     | .next t => (t.mem, t.reg 2, t.flags == before)
     | .fault _ => ([], 0, false)
     | .refused _ => ([], 0, false)) = ([(16, 0x06), (17, 0x07)], 0x0706, true) := by decide

/-- P6d: the last doubleword of a 4096-byte memory reads 0, the offset -8 being sign-extended; and a load gives
byte `k` of memory at bits `8k+7` to `8k` (20_memory.md R56). -/
theorem test_step_ldur :
    shown (oneWord 0xF85F8023#32 4096 0 before) = some (0, before, 4, true) ∧
    shown { oneWord 0xF8400023#32 8 0 before with mem := [(8, 0x21), (15, 0x84)] } =
      some (0x8400000000000021, before, 4, true) := by decide

/-- The fault record a step leaves, and whether registers and memory are as before. -/
def faulted (s : State) : Option (FaultRecord × Bool) :=
  match step s with
  | .next t => t.fault.map fun r => (r, t.regs == s.regs && t.mem == s.mem && t.flags == s.flags && t.pc == s.pc)
  | .fault _ => none
  | .refused _ => none

/-- P6a: SDIV by zero faults at micro-step 3; S5: UDIV does too. -/
theorem test_step_division_by_zero :
    faulted (oneWord 0x9ADF0023#32 9 0 before) =
      some ({ kind := .divisionByZero, pc := 0, idx := 3 }, true) ∧
    faulted (oneWord 0x9AE20023#32 0 0 before) =
      some ({ kind := .divisionByZero, pc := 0, idx := 3 }, true) := by decide

/-- P6b: a load from address 4; P6c: a store to address -8; P6d: 4092 is out of bounds, not misaligned. -/
theorem test_step_memory_faults :
    faulted (oneWord 0xF8400022#32 4 0 before) =
      some ({ kind := .memoryMisaligned 4 8, pc := 0, idx := 4 }, true) ∧
    faulted (oneWord 0xF8000021#32 0xFFFFFFFFFFFFFFF8 0 before) =
      some ({ kind := .memoryOutOfBounds 0xFFFFFFFFFFFFFFF8 8, pc := 0, idx := 4 }, true) ∧
    faulted (oneWord 0xF8400022#32 4092 0 before) =
      some ({ kind := .memoryOutOfBounds 4092 8, pc := 0, idx := 4 }, true) := by decide

/-- P6f: `B #2` in a program of one instruction leaves pc 8, whose fetch faults at micro-step 0. -/
theorem test_step_fetch_out_of_program :
    faulted { machine [0x14000002#32] with pc := 8 } =
      some ({ kind := .fetchOutOfProgram 8, pc := 8, idx := 0 }, true) := by decide

/-- 30_encoding.md R91: a word no row matches faults at Decode. -/
theorem test_step_unknown_opcode :
    faulted (machine [0#32]) = some ({ kind := .unknownOpcode (.word 0), pc := 0, idx := 1 }, true) := by decide

/-- S6: `MOVZ XZR, #1, LSL #16` leaves every register unchanged. -/
theorem test_step_zero_register :
    (match step (machine [0xD2A0003F#32]) with
     | .next t => (t.regs == State.reset.regs, t.reg 31, t.pc)
     | .fault _ => (false, 1, 0)
     | .refused _ => (false, 1, 0)) = (true, 0, 4) := by decide

/-- 41_control_and_sequencer.md R176: `last` is the canonical text of the instruction. -/
theorem test_step_last :
    (match step (machine [0xD28000A1#32]) with
     | .next t => t.last
     | .fault _ => []
     | .refused _ => []) = "MOVZ X1, #5".toList := by decide

/-- 95_test_vectors.md section 2: a tag outside the seventeen. -/
theorem test_unknown_tag :
    aluTag 1 2 "NOP".toList = .error (.unsupportedOperation "NOP".toList) ∧
    aluTag 1 2 "add".toList = .error (.unsupportedOperation "add".toList) := by decide

/-- 95_test_vectors.md section 2: `ALU(1, 0x40, LSL)` is 1, and CMP is SUBS. -/
theorem test_alu_only :
    aluTag 1 0x40 "LSL".toList = .ok { value := 1, flags := nzcv false false false false } ∧
    aluTag 0xFFFFFFFFFFFFFFFF 0x7FFFFFFFFFFFFFFF "CMP".toList =
      .ok { value := 0x8000000000000000, flags := nzcv true false true false } ∧
    aluTag 0xDEAD 5 "PASS".toList = .ok { value := 5, flags := nzcv false false false false } := by decide

/-! ### The host's moves (60_exceptions.md R326, 70_reset_and_hazards.md R353; H1 and H3 of section 6) -/

/-- P2 loaded as text: one snapshot, pc 0, not finished. -/
theorem test_load_text :
    (match hostLoadText idtDefault ["// P2".toList, [], " SUBS X0, X1, X1 ".toList] (machine []) with
     | .next t => (t.program, t.history.states.length, t.history.cursor, t.finished)
     | .fault _ => ([], 0, 0, false)
     | .refused _ => ([], 0, 0, false)) = ([0xEB010020#32], 1, 0, false) := by decide

theorem test_load_refuses_illegal_word :
    hostLoadWords idtDefault [0x8B020023#32, 0#32] (machine []) = .fault (.unknownOpcode (.word 0)) := by rfl

theorem test_load_refuses_bad_table :
    hostLoadWords [DefaultRow.add, DefaultRow.add] [] (machine []) = .refused .illFormedTable := by rfl

/-- 10_state.md R23: index 32 raises. -/
theorem test_preset_register_range :
    hostPresetReg 32 5 (machine [0x8B020023#32]) = .fault (.invalidRegisterIndex 32) := by rfl

/-- 60_exceptions.md R320: a step back at the boundary. -/
theorem test_step_back_at_boundary : hostStepBack idtDefault (machine []) = .fault .noHistory := by rfl

/-- 00_scope.md R13: memory words are exported as aligned doublewords. -/
theorem test_export_words : memoryWords [(16, 0xFD), (17, 0xFF), (24, 7)] = [(16, 0xFFFD), (24, 7)] := by decide

/-- `withFetchWord` places the word the next step runs; here at the pc of the machine after power-on. -/
theorem test_with_fetch_word :
    (match step (State.reset.withFetchWord 32 0xD28000A1) with
     | .next t => (t.reg 1, t.pc, t.finished)
     | .fault _ => (0, 0, false)
     | .refused _ => (0, 0, false)) = (5, 4, true) := by decide


/-! ### Witnesses: a state and operands that meet the hypotheses of each statement that has some -/

theorem test_witness_codec_ranges :
    (0 ≤ 0 ∧ 0 ≤ 31) ∧ (0 ≤ 31 ∧ 31 ≤ 31) ∧ (31 ≤ 31 ∧ 31 ≤ 31) ∧ (4 < 5 ∨ 31 < 4) ∧ (32 < 0 ∨ 31 < 32) := by
  decide

theorem test_witness_DecoderTakesFirstMatch : Table.select idtDefault 0x8B020023#32 = some DefaultRow.add := by decide

theorem test_witness_UnmatchedWordIsIllegal :
    ∀ r ∈ idtDefault, ¬ r.opcode = topBits r.format.opcodeWidth 0xF2800000#32 := by decide

theorem test_witness_DefaultTableIsUnambiguous :
    DefaultRow.movz ∈ idtDefault ∧ DefaultRow.movz.opcode = topBits DefaultRow.movz.format.opcodeWidth 0xD2FFFFE1#32 := by
  decide

theorem test_witness_decoding_words :
    decode 0x9B027C23#32 = some (.mul 3 1 2) ∧
    0x9B027C23#32 &&& keptBits (Instr.mul 3 1 2).row = 0x9B020023#32 &&& keptBits (Instr.mul 3 1 2).row ∧
    assemble idtDefault "MUL X3, X1, X2".toList = .ok 0x9B020023#32 := by decide

/-- A machine about to run the first of those two words. -/
theorem test_witness_IgnoredBitsDoNotAffectDecoding :
    Enabled (machine [0x9B027C23#32]) ∧ AtBoundary (machine [0x9B027C23#32]) ∧
    (machine [0x9B027C23#32]).program[(machine [0x9B027C23#32]).pc.toNat / 4]? = some 0x9B027C23#32 :=
  ⟨⟨rfl, rfl⟩, rfl, rfl⟩

/-- Log entry 10: leading zeros in a register number and in an immediate. -/
theorem test_leading_zeros :
    assemble idtDefault "ADDI X02, X031, #010".toList = assemble idtDefault "ADDI X2, X31, #10".toList := by decide

theorem test_witness_WellFormedTableMeansSevenClauses : Table.wellFormed [DefaultRow.add, DefaultRow.add] = false := by
  decide

theorem test_witness_SubtractionFlagsTellTheOrder :
    aluTag 3 5 "SUBS".toList =
      .ok { value := 0xFFFFFFFFFFFFFFFE, flags := nzcv true false false false } := by decide

/-- A zero divisor; a nonzero one; the quotient that does not fit; one that fits. -/
theorem test_witness_AluDivision :
    (0#64 = 0#64) ∧ (1#64 ≠ 0#64) ∧
    ((0x8000000000000000#64).toInt = -2 ^ 63 ∧ (0xFFFFFFFFFFFFFFFF#64).toInt = -1) ∧
    ¬ ((0x8000000000000000#64).toInt = -2 ^ 63 ∧ (1#64).toInt = -1) := by decide

theorem test_witness_AluLaws :
    (∃ r, alu 5 3 .and = .ok r) ∧ AluOp.and ∉ [AluOp.add, .adds, .sub, .subs, .cmp] := ⟨⟨_, rfl⟩, by decide⟩

theorem test_witness_registers : (30#5 ≠ 31) ∧ (0#5 ≠ 30#5) ∧ (31#5 ≠ 30#5) := by decide

/-- In a 4096-byte memory: the first and the last doubleword pass; 4089 and -8 are out; 4 is misaligned. -/
theorem test_witness_access_checks :
    checkAccess 4096 0 8 = .ok () ∧ checkAccess 4096 4088 8 = .ok () ∧
    checkAccess 4096 4089 8 = .error (.memoryOutOfBounds 4089 8) ∧
    checkAccess 4096 0xFFFFFFFFFFFFFFF8 8 = .error (.memoryOutOfBounds 0xFFFFFFFFFFFFFFF8 8) ∧
    checkAccess 4096 4 8 = .error (.memoryMisaligned 4 8) := by decide

theorem test_witness_WritePlacesBytesLittleEndian :
    Memory.wf [(16, 6), (17, 7)] = true ∧ checkAccess 4096 16 AccessSize.b2.bytes = .ok () ∧
    checkAccess 4096 4095 AccessSize.b2.bytes = .error (.memoryOutOfBounds 4095 2) := by decide

/-- A store that completes: `STUR X2, [X1, #0]` at the last doubleword. -/
def storing : State := oneWord 0xF8000022#32 4088 7 before

theorem test_witness_LoadSeesTheLatestStore :
    Memory.wf storing.mem = true ∧ checkAccess storing.memCapacity (effectiveAddress storing 1 0) 8 = .ok () ∧
    ∃ t, exec (.stur 2 1 0) storing = .next t := ⟨by decide, by decide, _, rfl⟩

/-- The divisor `X2` is 7, `X3` is 0. -/
theorem test_witness_DivideRule : storing.reg 2 ≠ 0#64 ∧ storing.reg 3 = 0#64 := by decide

/-- With `X1` = 4088: offset 0 is the last doubleword, 1 is out of bounds, -1 misaligned; from `X0` = 0, offset
0 is the first doubleword and -8 is negative. -/
theorem test_witness_LdurRule_SturRule :
    Memory.wf storing.mem = true ∧
    (0 ≤ (effectiveAddress storing 1 0).toInt ∧ (effectiveAddress storing 1 0).toInt + 8 ≤ storing.memCapacity ∧
      (effectiveAddress storing 1 0).toNat % 8 = 0) ∧
    (0 ≤ (effectiveAddress storing 0 0).toInt ∧ (effectiveAddress storing 0 0).toInt + 8 ≤ storing.memCapacity ∧
      (effectiveAddress storing 0 0).toNat % 8 = 0) ∧
    ¬ (0 ≤ (effectiveAddress storing 1 1).toInt ∧
      (effectiveAddress storing 1 1).toInt + 8 ≤ storing.memCapacity) ∧
    ¬ (0 ≤ (effectiveAddress storing 0 504).toInt ∧
      (effectiveAddress storing 0 504).toInt + 8 ≤ storing.memCapacity) ∧
    (0 ≤ (effectiveAddress storing 1 511).toInt ∧
      (effectiveAddress storing 1 511).toInt + 8 ≤ storing.memCapacity ∧
      (effectiveAddress storing 1 511).toNat % 8 ≠ 0) := by decide

/-- The bytes just below and just above the stored doubleword. -/
theorem test_witness_StoreFrame :
    (∃ t, exec (.stur 2 1 0) storing = .next t) ∧ (effectiveAddress storing 1 0).toNat = 4088 ∧
    (4087 < 4088 ∨ 4088 + 8 ≤ 4087) ∧ (4096 < 4088 ∨ 4088 + 8 ≤ 4096) := ⟨⟨_, rfl⟩, by decide⟩

/-- A machine at the Control-Signal micro-step of a branch, `B.EQ #5`, and of `SUBS X0, X1, X1`. -/
def atControl (row : Row) : State :=
  { machine [0x40000005#32] with lat := { Latches.blank with idx := 2, word := 0x40000005#32, row := some row } }

theorem test_witness_BranchRule :
    (Enabled (atControl DefaultRow.bEq) ∧ currentKind (atControl DefaultRow.bEq).lat = some .control ∧
      (atControl DefaultRow.bEq).lat.row = some DefaultRow.bEq ∧ DefaultRow.bEq.format = .b ∧
      ∃ u, microStep idtDefault (atControl DefaultRow.bEq) = .next u) ∧
    ∃ t, exec (.subs 31 1 2) storing = .next t := ⟨⟨⟨rfl, rfl⟩, rfl, rfl, rfl, _, rfl⟩, _, rfl⟩

theorem test_witness_ConditionCodeTable :
    (Enabled (atControl DefaultRow.bEq) ∧ currentKind (atControl DefaultRow.bEq).lat = some .control ∧
      (atControl DefaultRow.bEq).lat.row = some DefaultRow.bEq) ∧
    (Enabled (atControl DefaultRow.subs) ∧ currentKind (atControl DefaultRow.subs).lat = some .control ∧
      (atControl DefaultRow.subs).lat.row = some DefaultRow.subs) :=
  ⟨⟨⟨rfl, rfl⟩, rfl, rfl⟩, ⟨rfl, rfl⟩, rfl, rfl⟩

/-- A machine at the Execute micro-step of `SUBS X0, X1, X1` (P2), no flag set before. -/
def atExecute : State :=
  { machine [0xEB010020#32] with
    lat := { Latches.blank with idx := 3, word := 0xEB010020#32, row := some DefaultRow.subs } }

theorem test_witness_OnlyFlagWritersChangeFlags :
    (∃ u, microStep idtDefault atExecute = .next u ∧ u.flags ≠ atExecute.flags) ∧
    (Enabled atExecute ∧ currentKind atExecute.lat = some .execute ∧ atExecute.lat.row = some DefaultRow.subs ∧
      DefaultRow.subs.sig.flagWrite = true ∧
      ∃ r, aluTag atExecute.lat.a atExecute.lat.b DefaultRow.subs.sig.operation = .ok r) ∧
    (∃ t, exec (.sub 0 1 1) storing = .next t) ∧ writesFlags (.sub 0 1 1) = false :=
  ⟨⟨_, rfl, by decide⟩, ⟨⟨rfl, rfl⟩, rfl, rfl, rfl, _, rfl⟩, ⟨_, rfl⟩, rfl⟩

theorem test_witness_OnlyTheStoreWritesMemory :
    (∃ t, exec (.ldur 2 1 0) storing = .next t) ∧ isStore (.ldur 2 1 0) = false := ⟨⟨_, rfl⟩, rfl⟩

theorem test_witness_NoInstructionReadsCarry :
    (∃ t, exec (.bLe 5) storing = .next t) ∧ (∃ t, exec (.adds 3 1 2) storing = .next t) ∧
    writesFlags (.adds 3 1 2) = true := ⟨⟨_, rfl⟩, ⟨_, rfl⟩, rfl⟩

/-- A machine at the Decode micro-step of a word no row matches. -/
def atDecode : State := { machine [0#32] with lat := { Latches.blank with idx := 1 } }

/-- A micro-step that raises; `SDIV X3, X2, XZR`; a load from a misaligned address. -/
theorem test_witness_FaultChangesOnlyTheRecord :
    (Enabled atDecode ∧ currentKind atDecode.lat = some .decode ∧
      microBody idtDefault atDecode .decode = .error (.unknownOpcode (.word 0))) ∧
    (∃ t, exec (.sdiv 3 2 31) storing = .next t ∧ storing.fault = none ∧ t.fault ≠ none) ∧
    ∃ t, exec (.ldur 3 1 1) storing = .next t ∧ t.fault ≠ none :=
  ⟨⟨⟨rfl, rfl⟩, rfl, rfl⟩, ⟨_, rfl, rfl, by decide⟩, _, rfl, by decide⟩

theorem test_witness_StepRunsTheDecodedInstruction :
    Enabled storing ∧ AtBoundary storing ∧ storing.program[storing.pc.toNat / 4]? = some 0xF8000022#32 ∧
    decode 0xF8000022#32 = some (.stur 2 1 0) ∧ Instr.wellFormed (.stur 2 1 0) = true :=
  ⟨⟨rfl, rfl⟩, rfl, rfl, by decide, rfl⟩

/-- Past the end of a one-word program, and on a word no row matches. -/
theorem test_witness_FetchAndDecodeFaults :
    (Enabled { machine [0#32] with pc := 8 } ∧ AtBoundary { machine [0#32] with pc := 8 } ∧
      (machine [0#32]).program.length ≤ (8#64).toNat / 4) ∧
    (Enabled (machine [0#32]) ∧ AtBoundary (machine [0#32]) ∧
      (machine [0#32]).program[(machine [0#32]).pc.toNat / 4]? = some 0#32 ∧ decode 0#32 = none) :=
  ⟨⟨⟨rfl, rfl⟩, rfl, by decide⟩, ⟨rfl, rfl⟩, rfl, rfl, by decide⟩

theorem test_witness_TerminalMachineTakesNoStep :
    (machine []).finished = true ∧ (storing.raise .divisionByZero).finished = false ∧
    (storing.raise .divisionByZero).fault = some { kind := .divisionByZero, pc := 0, idx := 0 } := by decide

/-- None, one and all of the six micro-steps of the store. -/
theorem test_witness_MicroStepsPerInstruction :
    Enabled storing ∧ AtBoundary storing ∧ storing.program[storing.pc.toNat / 4]? = some 0xF8000022#32 ∧
    decode 0xF8000022#32 = some (.stur 2 1 0) ∧ 6 ≤ (microList (Instr.stur 2 1 0).row.format).length ∧
    (∃ u, runMicro idtDefault 0 storing = .next u ∧ u.fault = none) ∧
    (∃ u, runMicro idtDefault 1 storing = .next u ∧ u.fault = none) ∧
    (∃ u, runMicro idtDefault 6 storing = .next u ∧ u.fault = none) :=
  ⟨⟨rfl, rfl⟩, rfl, rfl, by decide, by decide, ⟨_, rfl, rfl⟩, ⟨_, rfl, by decide⟩, ⟨_, rfl, by decide⟩⟩

/-- `SDIV X3, X1, XZR`, whose program decodes, faults. -/
theorem test_witness_CheckedProgramFaultKinds :
    ProgramDecodes (machine [0x9ADF0023#32]) ∧ Enabled (machine [0x9ADF0023#32]) ∧
    AtBoundary (machine [0x9ADF0023#32]) ∧
    ∃ t, step (machine [0x9ADF0023#32]) = .next t ∧
      t.fault = some { kind := .divisionByZero, pc := 0, idx := 3 } :=
  ⟨fun w hw => by
      have e : w = 0x9ADF0023#32 := by simpa [machine] using hw
      have d : decode 0x9ADF0023#32 = some (.sdiv 3 1 31) := by decide
      rw [e, d]; exact Option.some_ne_none _,
    ⟨rfl, rfl⟩, rfl, _, rfl, by decide⟩

/-- A step that ends the run, one that does not, and a branch past the end (P6f) and below 0 (P6e). -/
theorem test_witness_FinishedExactlyPastTheEnd :
    (Enabled storing ∧ AtBoundary storing ∧ ∃ t, step storing = .next t ∧ t.fault = none ∧ t.finished = true) ∧
    (∃ t, step (machine [0x8B020023#32, 0x8B020023#32]) = .next t ∧ t.fault = none ∧ t.finished = false) ∧
    (∃ t, step (machine [0x14000002#32]) = .next t ∧ t.fault = none ∧ t.pc.toNat ≠ 4 * 1 ∧
      ¬ t.pc.toNat < 4 * 1) ∧
    ∃ t, step (machine [0x17FFFFFF#32]) = .next t ∧ t.fault = none ∧ t.pc.toNat ≠ 4 * 1 ∧ ¬ t.pc.toNat < 4 * 1 :=
  ⟨⟨⟨rfl, rfl⟩, rfl, _, rfl, by decide, by decide⟩, ⟨_, rfl, by decide, by decide⟩,
    ⟨_, rfl, by decide, by decide, by decide⟩, _, rfl, by decide, by decide, by decide⟩

/-- The machine `storing` is legal, and its step answers a next state; so does every move of the host. -/
theorem test_storing_legal : LegalState storing :=
  ⟨by decide, by decide, ⟨by decide, by decide⟩, by decide, by decide, by decide, by decide,
    fun _ h => (List.not_mem_nil h).elim⟩

theorem test_witness_StepKeepsInvariant : LegalState storing ∧ ∃ t, step storing = .next t := ⟨test_storing_legal, _, rfl⟩

/-- P2 loaded: one snapshot recorded. -/
def loaded : State :=
  { machine [0xEB010020#32] with history := { states := [(machine [0xEB010020#32]).snapshot], cursor := 0 } }

theorem test_witness_HostMovesKeepInvariant :
    LegalState storing ∧ (∃ t, hostLoadWords idtDefault [0x8B020023#32] storing = .next t) ∧
    (∃ t, hostLoadText idtDefault ["B #0".toList] storing = .next t) ∧
    (∃ t, hostPresetReg 31 1 storing = .next t) ∧ (∃ t, hostPresetMem 8 .b8 1 storing = .next t) ∧
    (∃ t, hostPresetFlags before storing = .next t) ∧ (∃ t, microStep idtDefault storing = .next t) :=
  ⟨test_storing_legal, ⟨_, rfl⟩, ⟨_, rfl⟩, ⟨_, rfl⟩, ⟨_, rfl⟩, ⟨_, rfl⟩, ⟨_, rfl⟩⟩

/-- A history of two snapshots with the cursor on the first. -/
def rewound : State :=
  { loaded with history := { states := [loaded.snapshot, loaded.snapshot], cursor := 0 } }

/-- The same with the cursor on the last. -/
def advanced : State :=
  { loaded with history := { states := [loaded.snapshot, loaded.snapshot], cursor := 1 } }

theorem test_witness_HostMovesKeepInvariant_navigation :
    LegalState rewound ∧ (∃ t, hostStepForward idtDefault rewound = .next t) ∧
    LegalState advanced ∧ (∃ t, hostStepBack idtDefault advanced = .next t) := by
  have h (x : Snapshot) (hx : x ∈ [loaded.snapshot, loaded.snapshot]) : SnapshotLegal x 1 4096 := by
    have e : x = loaded.snapshot := by simpa using hx
    rw [e]
    exact ⟨by decide, by decide, by decide, by decide⟩
  exact ⟨⟨by decide, by decide, ⟨by decide, by decide⟩, by decide, by decide, by decide, by decide, h⟩, ⟨_, rfl⟩,
    ⟨by decide, by decide, ⟨by decide, by decide⟩, by decide, by decide, by decide, by decide, h⟩, ⟨_, rfl⟩⟩

theorem test_witness_LoadChecksEveryWord :
    Table.wellFormed idtDefault = true ∧ (∀ w ∈ [0x8B020023#32], Table.select idtDefault w ≠ none) ∧
    (∀ w ∈ ([] : List InstrWord), Table.select idtDefault w ≠ none) ∧ 1 ≤ storing.historyMax ∧
    (0x48000000#32 ∈ [0x8B020023#32, 0x48000000#32] ∧ Table.select idtDefault 0x48000000#32 = none) := by
  have e : Table.select idtDefault 0x8B020023#32 = some DefaultRow.add := by decide
  refine ⟨by decide, fun w hw => ?_, fun _ h => (List.not_mem_nil h).elim, by decide, by decide, by decide⟩
  rw [List.mem_singleton.1 hw, e]
  exact Option.some_ne_none _

theorem test_witness_PresetRegisterRule :
    atStart storing = true ∧ 31 < 32 ∧ (31 : Nat) = 31 ∧ 30 < 31 ∧ 0 < 31 := by decide

/-- Room left, and a history at its maximum. -/
theorem test_witness_RecordTruncatesAndEvicts :
    (History.wf rewound.history 2 = true ∧ 1 ≤ 2 ∧ rewound.history.cursor + 1 < (2 : Nat)) ∧
    (History.wf advanced.history 2 = true ∧ advanced.history.cursor + 1 = (2 : Nat)) ∧ 2 ≤ 2 := by decide

/-- A micro-step that completes, one that faults, a load from words and one from text. -/
theorem test_witness_CompletedMicroStepIsRecorded :
    (Enabled storing ∧ History.wf storing.history storing.historyMax = true ∧ 1 ≤ storing.historyMax ∧
      ∃ u, microStep idtDefault storing = .next u ∧ u.fault = none) ∧
    (Enabled { machine [0#32] with pc := 8 } ∧
      ∃ u, microStep idtDefault { machine [0#32] with pc := 8 } = .next u ∧ u.fault ≠ none) ∧
    (∃ u, hostLoadWords idtDefault [0x8B020023#32] storing = .next u) ∧
    ∃ u, hostLoadText idtDefault ["B #0".toList] storing = .next u :=
  ⟨⟨⟨rfl, rfl⟩, by decide, by decide, _, rfl, by decide⟩, ⟨⟨rfl, rfl⟩, _, rfl, by decide⟩, ⟨_, rfl⟩, _, rfl⟩

theorem test_witness_BackAndForwardReproduces :
    advanced.history.current = some loaded.snapshot ∧ Shows loaded.snapshot advanced ∧
    ∃ u, hostStepBack idtDefault advanced = .next u ∧ (∃ v, hostStepForward idtDefault u = .next v) ∧
      Enabled u ∧ ∃ v, microStep idtDefault u = .next v ∧ v.fault = none :=
  ⟨rfl, ⟨rfl, rfl, rfl, rfl, rfl, rfl, rfl⟩, _, rfl, ⟨_, rfl⟩, ⟨rfl, rfl⟩, _, rfl, by decide⟩

/-- `storing` with latches that an earlier branch left. -/
def usedLatches : State :=
  { storing with lat := { Latches.blank with word := 0x14000002#32, row := some DefaultRow.b, target := 8, taken := true } }

/-- Four micro-steps into the store, its address computed: begun with blank latches, and with an earlier
instruction's. -/
theorem test_witness_RestoreRebuildsLatches :
    Table.wellFormed idtDefault = true ∧
    (AtBoundary storing ∧ storing.lat = Latches.blank ∧
      ∃ u, runMicro idtDefault 4 storing = .next u ∧ u.fault = none ∧ u.lat.idx = 4) ∧
    (AtBoundary usedLatches ∧ usedLatches.lat ≠ Latches.blank ∧
      ∃ u, runMicro idtDefault 4 usedLatches = .next u ∧ u.fault = none ∧ u.lat.idx = 4) :=
  ⟨by decide, ⟨rfl, rfl, _, rfl, by decide, by decide⟩, rfl, by decide, _, rfl, by decide, by decide⟩

/-- A micro-step index that no run reaches is refused by name. -/
theorem test_refused_index :
    step { storing with lat := { Latches.blank with idx := 9 } } = .refused .noSuchMicroStep := by rfl

end Sys2Proof.Tests
end

/-! PROOFS. The family 10_state.md: register 31 as the structural zero (R21, R22), the host's preset (R23, 60 R326),
and who changes the flags (R31). -/

namespace Sys2Proof.Machine

open Sys2Proof

/-! ### Registers (10_state.md R21 to R23) -/

/-- Settles O19, by the rules for a register read after a register write. -/
theorem registerThirtyOneIsStructuralZero : Obligations.RegisterThirtyOneIsStructuralZero := by
  intro s v
  exact ⟨State.reg_31 s, State.setReg_31 s v, fun r hr =>
    ⟨(State.reg_setReg_same s r v).trans (if_neg hr), fun q hq => State.reg_setReg_other s r q v hq⟩⟩

/-- Before the first micro-step a preset of an index up to 31 is the register write. -/
theorem hostPresetReg_eq_setReg {s : State} {index : Nat} (v : Word) (hs : atStart s = true)
    (hi : index ≤ 31) : hostPresetReg index v s = .next (s.setReg (BitVec.ofNat 5 index) v) := by
  simp [hostPresetReg, hs, hi]

/-- Before the first micro-step a preset of an index above 31 raises. -/
theorem hostPresetReg_eq_fault {s : State} {index : Nat} (v : Word) (hs : atStart s = true)
    (hi : 31 < index) : hostPresetReg index v s = .fault (.invalidRegisterIndex index) := by
  simp [hostPresetReg, hs, hi]

/-- An index below 31 does not name the structural zero. -/
theorem ofNat_ne_31 {index : Nat} (hi : index < 31) : BitVec.ofNat 5 index ≠ 31#5 := by
  bv_omega

/-- Settles O54: the three ranges of the index, each by what the preset answers there. -/
theorem presetRegisterRule : Obligations.PresetRegisterRule := by
  intro s index v hs
  refine ⟨hostPresetReg_eq_fault v hs, ?_, fun hi => ?_⟩
  · rintro rfl
    rw [hostPresetReg_eq_setReg v hs le_rfl, State.setReg_31]
  · refine ⟨_, hostPresetReg_eq_setReg v hs hi.le, ?_, fun q hq => State.reg_setReg_other s _ q v hq,
      fun x => ?_, State.setReg_flags s _ v, State.setReg_pc s _ v⟩
    · rw [State.reg_setReg_same, if_neg (ofNat_ne_31 hi)]
    · rw [State.setReg_mem]

/-! ### The flags under one micro-step (R31, 41_control_and_sequencer.md R169) -/

/-- A memory write leaves the flags. -/
theorem memWrite_flags {s u : State} {addr v : Word} {size : AccessSize}
    (h : memWrite s addr size v = .ok u) : u.flags = s.flags := by
  rcases memWrite_cases s addr size v with ⟨-, hm⟩ | ⟨f, -, hm⟩
  · rw [hm] at h; cases h; rfl
  · rw [hm] at h; cases h

/-- Every action but `updateFlags` leaves the flags. -/
theorem applyAction_flags {s u : State} {action : Action} (h : applyAction s action = .ok u)
    (ha : ∀ f, action ≠ .updateFlags f) : u.flags = s.flags := by
  cases action with
  | writeRegister index value => cases h; exact State.setReg_flags s index value
  | writeMemory addr value size => exact memWrite_flags h
  | updateFlags f => exact absurd rfl (ha f)
  | setBranchTarget pc => cases h; rfl

/-- Only Execute has `updateFlags` for its action. -/
theorem microAction_ne_updateFlags {l : Latches} {row : Row} {k : MicroKind} (hk : k ≠ .execute)
    {action : Action} (h : microAction l row k = some action) (f : Flags) :
    action ≠ .updateFlags f := by
  rintro rfl
  cases k <;> simp [microAction] at h hk

/-- The end of an instruction leaves the flags. -/
@[simp] theorem closeInstr_flags (s : State) (row : Row) (k : MicroKind) :
    (closeInstr s row k).flags = s.flags := rfl

/-- What a micro-step other than Execute commits leaves the flags. -/
theorem commitRow_flags {s u : State} {row : Row} {k : MicroKind} (hk : k ≠ .execute)
    (h : commitRow s row k = .ok u) : u.flags = s.flags := by
  unfold commitRow at h
  cases ha : applyOptional s (microAction s.lat row k) with
  | error f => rw [ha] at h; cases h
  | ok s' =>
    have hs' : s'.flags = s.flags := by
      cases hact : microAction s.lat row k with
      | none => rw [hact] at ha; cases ha; rfl
      | some action => rw [hact] at ha; exact applyAction_flags ha (microAction_ne_updateFlags hk hact)
    rw [ha] at h
    cases h
    split <;> simp [hs']

/-- A micro-step other than Execute leaves the flags. -/
theorem microBody_flags {t : Table} {s u : State} {k : MicroKind} (hk : k ≠ .execute)
    (h : microBody t s k = .ok u) : u.flags = s.flags := by
  unfold microBody at h
  cases hl : microLatches t s k with
  | error f => rw [hl] at h; cases h
  | ok l =>
    rw [hl] at h
    unfold microCommit at h
    cases hrow : l.row with
    | none => simp only [hrow] at h; cases h; rfl
    | some row => simp only [hrow] at h; exact (commitRow_flags hk h :)

/-- The stepper is at Execute only with a row latched: before Decode it is at Fetch or Decode. -/
theorem row_of_currentKind_execute {l : Latches} (h : currentKind l = some .execute) :
    ∃ row, l.row = some row := by
  cases hrow : l.row with
  | some row => exact ⟨row, rfl⟩
  | none =>
    unfold currentKind at h
    split at h <;> simp [hrow] at h

/-- What Execute does to the flags: they become the ALU's when the row has `flagWrite`, else they stay. -/
theorem microStep_execute_flags {t : Table} {s u : State} {row : Row} (hr : Ready s .execute)
    (hrow : s.lat.row = some row) (h : microStep t s = .next u) :
    u.flags = s.flags ∨ ∃ r, row.sig.flagWrite = true ∧
      aluTag s.lat.a s.lat.b row.sig.operation = .ok r ∧ u.flags = r.flags := by
  rw [microStep_execute hr hrow] at h
  cases ha : aluTag s.lat.a s.lat.b row.sig.operation with
  | error f => rw [ha] at h; cases h; exact .inl rfl
  | ok r =>
    rw [ha] at h
    cases h
    cases hw : row.sig.flagWrite with
    | false => exact .inl rfl
    | true => exact .inr ⟨r, rfl, rfl, rfl⟩

/-- A micro-step that changes the flags is Execute of a row with `flagWrite`, and they become the ALU's. -/
theorem execute_of_flags_ne {t : Table} {s u : State} (h : microStep t s = .next u)
    (hne : u.flags ≠ s.flags) :
    currentKind s.lat = some .execute ∧ ∃ row r, s.lat.row = some row ∧ row.sig.flagWrite = true ∧
      aluTag s.lat.a s.lat.b row.sig.operation = .ok r ∧ u.flags = r.flags := by
  rcases microStep_cases h with ⟨-, rfl⟩ | ⟨k, hr, ⟨f, -, rfl⟩ | ⟨s', hb, rfl⟩⟩
  · exact absurd rfl hne
  · exact absurd rfl hne
  · by_cases hk : k = .execute
    · subst hk
      obtain ⟨row, hrow⟩ := row_of_currentKind_execute hr.kind
      obtain hsame | ⟨r, hw, ha, hf⟩ := microStep_execute_flags hr hrow h
      · exact absurd hsame hne
      · exact ⟨hr.kind, row, r, hrow, hw, ha, hf⟩
    · exact absurd (microBody_flags hk hb) hne

/-- Execute of a row with `flagWrite` gives the flags the ALU's, when the ALU raises nothing. -/
theorem microStep_execute_writes_flags {t : Table} {s : State} {row : Row} {r : AluResult}
    (hr : Ready s .execute) (hrow : s.lat.row = some row) (hw : row.sig.flagWrite = true)
    (ha : aluTag s.lat.a s.lat.b row.sig.operation = .ok r) :
    ∃ u, microStep t s = .next u ∧ u.flags = r.flags := by
  rw [microStep_execute hr hrow, ha]
  exact ⟨_, rfl, by simp [hw]⟩

/-! ### The flags under a whole instruction -/

/-- The four shapes of an instruction's meaning: the register shape, the load, the store and the branch. -/
inductive ExecShape (i : Instr) (s : State) : Host.Outcome State Fault Refusal → Prop
  | alu (op : AluOp) (rd : Reg) (a b : Word) (text : Text) :
      ExecShape i s (runAlu i.row op (writesFlags i) rd a b text s)
  | load (rt rn : Reg) (off9 : BitVec 9) (text : Text) (hi : i = .ldur rt rn off9) :
      ExecShape i s (runLoad i.row rt rn off9 text s)
  | store (rt rn : Reg) (off9 : BitVec 9) (text : Text) (hi : i = .stur rt rn off9) :
      ExecShape i s (runStore i.row rt rn off9 text s)
  | branch (off26 : BitVec 26) (taken : Bool) (text : Text) :
      ExecShape i s (runBranch i.row off26 taken text s)

/-- Every instruction has one of the four shapes. -/
theorem exec_shape (i : Instr) (s : State) : ExecShape i s (exec i s) := by
  unfold exec
  cases i with
  | ldur rt rn off9 => exact .load rt rn off9 _ rfl
  | stur rt rn off9 => exact .store rt rn off9 _ rfl
  | b off26 | bEq off26 | bNe off26 | bGe off26 | bLt off26 | bGt off26 | bLe off26 =>
    exact .branch off26 _ _
  | _ => exact .alu _ _ _ _ _

/-- The register shape without `flagWrite` leaves the flags, whether it completes or faults. -/
theorem runAlu_flags {row : Row} {op : AluOp} {rd : Reg} {a b : Word} {text : Text} {s t : State}
    (h : runAlu row op false rd a b text s = .next t) : t.flags = s.flags := by
  rcases runAlu_cases row op false rd a b text s with ⟨r, u, -, hu, -, he⟩ | ⟨f, u, -, hu, he⟩
  · obtain ⟨-, hf, -⟩ := he
    rw [hu] at h; cases h; exact hf
  · obtain ⟨-, -, -, -, -, -, hf, -⟩ := he
    rw [hu] at h; cases h; exact hf

/-- A load leaves the flags, whether it completes or faults. -/
theorem runLoad_flags {row : Row} {rt rn : Reg} {off9 : BitVec 9} {text : Text} {s t : State}
    (h : runLoad row rt rn off9 text s = .next t) : t.flags = s.flags := by
  cases hc : checkAccess s.memCapacity (effectiveAddress s rn off9) 8 with
  | ok _ =>
    obtain ⟨u, hu, -, -, hf, -⟩ := runLoad_completes row rt rn off9 text s hc
    rw [hu] at h; cases h; exact hf
  | error f =>
    obtain ⟨u, hu, -, -, -, -, -, -, hf, -⟩ := runLoad_faults row rt rn off9 text s f hc
    rw [hu] at h; cases h; exact hf

/-- A store leaves the flags, whether it completes or faults. -/
theorem runStore_flags {row : Row} {rt rn : Reg} {off9 : BitVec 9} {text : Text} {s t : State}
    (h : runStore row rt rn off9 text s = .next t) : t.flags = s.flags := by
  cases hc : checkAccess s.memCapacity (effectiveAddress s rn off9) 8 with
  | ok _ =>
    obtain ⟨u, hu, -, -, -, -, hf, -⟩ := runStore_completes row rt rn off9 text s hc
    rw [hu] at h; cases h; exact hf
  | error f =>
    obtain ⟨u, hu, -, -, -, -, -, -, hf, -⟩ := runStore_faults row rt rn off9 text s f hc
    rw [hu] at h; cases h; exact hf

/-- A branch leaves the flags. -/
theorem runBranch_flags {row : Row} {off26 : BitVec 26} {taken : Bool} {text : Text} {s t : State}
    (h : runBranch row off26 taken text s = .next t) : t.flags = s.flags := by
  obtain ⟨u, hu, -, -, -, hf, -⟩ := runBranch_completes row off26 taken text s
  rw [hu] at h; cases h; exact hf

/-- An instruction outside the six flag writers leaves the flags. -/
theorem exec_flags {i : Instr} {s t : State} (h : exec i s = .next t) (hw : writesFlags i = false) :
    t.flags = s.flags := by
  have hshape := exec_shape i s
  generalize exec i s = o at h hshape
  cases hshape with
  | alu op rd a b text => rw [hw] at h; exact runAlu_flags h
  | load rt rn off9 text hi => exact runLoad_flags h
  | store rt rn off9 text hi => exact runStore_flags h
  | branch off26 taken text => exact runBranch_flags h

/-- The six flag writers are the instructions whose row of the default table has `flagWrite`. -/
theorem writesFlags_eq_flagWrite (i : Instr) : writesFlags i = i.row.sig.flagWrite := by
  cases i <;> rfl

/-- Settles O37: at the grain of micro-steps under any table by the action of each kind of micro-step, at the
grain of instructions by the four shapes. -/
theorem onlyFlagWritersChangeFlags : Obligations.OnlyFlagWritersChangeFlags :=
  ⟨fun _ _ _ => execute_of_flags_ne,
    fun _ _ _ _ ⟨hfin, hflt⟩ hk => microStep_execute_writes_flags ⟨hfin, hflt, hk⟩,
    fun _ _ _ => exec_flags, writesFlags_eq_flagWrite⟩

end Sys2Proof.Machine

/-! PROOFS. The family 20_memory.md: the access check (R53 to R55), the read (R56) and the write (R57, R58). -/

namespace Sys2Proof.Machine

open Sys2Proof

/-! ### The access check (20_memory.md R53 to R55) -/

/-- The alignment as R54 writes it, on the unsigned address. -/
theorem isAligned_iff (addr : Word) (n : Nat) : isAligned addr n = true ↔ addr.toNat % n = 0 :=
  beq_iff_eq

/-- Settles O20, by the three answers of the access check. -/
theorem accessCheckIsBoundsThenAlignment : Obligations.AccessCheckIsBoundsThenAlignment := by
  intro capacity addr size
  have hbound := inBounds_iff capacity addr size.bytes
  have halign := isAligned_iff addr size.bytes
  rcases checkAccess_cases capacity addr size.bytes with ⟨hb, ha, h⟩ | ⟨hb, ha, h⟩ | ⟨hb, h⟩
  · rw [h, if_pos (hbound.1 hb), if_pos (halign.1 ha)]
  · rw [h, if_pos (hbound.1 hb), if_neg fun hmod => Bool.eq_false_iff.1 ha (halign.2 hmod)]
  · rw [h, if_neg fun hin => Bool.eq_false_iff.1 hb (hbound.2 hin)]

/-! ### The read (20_memory.md R56) -/

/-- No access is wider than a doubleword (20_memory.md R62). -/
theorem AccessSize.bytes_le_eight (size : AccessSize) : size.bytes ≤ 8 := by
  cases size <;> decide

/-- A `k`-byte read has no bit above its `k` bytes. -/
theorem toNat_readBytes_lt (m : Memory) (a k : Nat) (hk : k ≤ 8) : (readBytes m a k).toNat < 2 ^ (8 * k) := by
  refine Nat.lt_pow_two_of_testBit _ fun i hi => ?_
  rw [BitVec.testBit_toNat, getLsbD_readBytes m a k i hk, decide_eq_false (Nat.not_lt.2 hi), Bool.false_and]

/-- Settles O21: a read that passes is `readBytes`, whose bytes and whose width its lemmas give. -/
theorem readAssemblesBytesLittleEndian : Obligations.ReadAssemblesBytesLittleEndian := by
  intro s addr size
  have hsize := size.bytes_le_eight
  rcases memRead_cases s addr size with ⟨hpass, hread⟩ | ⟨f, hfail, hread⟩
  · exact ⟨fun f hf => (nomatch hpass.symm.trans hf), fun _ => ⟨_, hread, toNat_readBytes_lt s.mem _ _ hsize,
      fun k hk => extract_readBytes s.mem _ _ k hsize hk⟩⟩
  · exact ⟨fun g hg => by cases hfail.symm.trans hg; exact hread, fun h => nomatch hfail.symm.trans h⟩

/-! ### The write (20_memory.md R57, R58) -/

/-- Settles O22: a write that passes is `writeBytes`, whose bytes and whose canonical form its lemmas give. -/
theorem writePlacesBytesLittleEndian : Obligations.WritePlacesBytesLittleEndian := by
  intro s addr v size hwf
  rcases memWrite_cases s addr size v with ⟨hpass, hwrite⟩ | ⟨f, hfail, hwrite⟩
  · exact ⟨fun f hf => (nomatch hpass.symm.trans hf), fun _ => ⟨_, hwrite, wf_writeBytes s.mem _ v _ hwf, rfl,
      fun x => (getByte_writeBytes s.mem _ v _ x hwf).2⟩⟩
  · exact ⟨fun g hg => by cases hfail.symm.trans hg; exact hwrite, fun h => nomatch hfail.symm.trans h⟩

end Sys2Proof.Machine

/-! PROOFS. The family 30_encoding.md: the bit-field codec (R80, R81), words that no row matches (R91) and the
ignored bits (R93). -/

namespace Sys2Proof.Machine

open Sys2Proof

/-! ### The bit-field codec (30_encoding.md R80, R81) -/

/-- The range check as R80 and R81 write it. -/
theorem bitRangeOk_iff (low high : Nat) : bitRangeOk low high = true ↔ low ≤ high ∧ high ≤ 31 := by
  simp [bitRangeOk]

/-- A bad range fails the range check. -/
theorem bitRangeOk_of_bad {low high : Nat} (h : high < low ∨ 31 < high) : bitRangeOk low high = false := by
  rw [Bool.eq_false_iff, Ne, bitRangeOk_iff]
  omega

/-- The mask of a range has exactly the bits of the range. -/
theorem getLsbD_rangeMask {low high i : Nat} (hl : low ≤ high) (hi : i < 32) :
    (((BitVec.allOnes (high - low + 1)).setWidth 32 : InstrWord) <<< low).getLsbD i =
      decide (low ≤ i ∧ i ≤ high) := by
  rw [Bool.eq_iff_iff]
  simp only [BitVec.getLsbD_shiftLeft, BitVec.getLsbD_setWidth, BitVec.getLsbD_allOnes, Bool.and_eq_true,
    Bool.not_eq_true', decide_eq_true_eq, decide_eq_false_iff_not]
  omega

/-- `extractBits` on a good range: the bits of the range, zero elsewhere. -/
theorem codecExtract_bits (w : InstrWord) {low high : Nat} (h : low ≤ high ∧ high ≤ 31) :
    ∃ r, codecExtract w low high = .ok r ∧
      ∀ i, r.getLsbD i = (decide (i ≤ high - low) && w.getLsbD (low + i)) := by
  refine ⟨_, by rw [codecExtract, extractBits, if_pos ((bitRangeOk_iff low high).2 h)], fun i => ?_⟩
  have hrange : i ≤ high - low → i < 32 := by omega
  by_cases hi : i ≤ high - low
  · simp [hi, hrange hi]
  · simp [hi]

/-- `setBits` on a good range: the bits of the range from the value, the others untouched. -/
theorem codecSet_bits (w v : InstrWord) {low high : Nat} (h : low ≤ high ∧ high ≤ 31) :
    ∃ r, codecSet w v low high = .ok r ∧
      ∀ i < 32, r.getLsbD i = if low ≤ i ∧ i ≤ high then v.getLsbD (i - low) else w.getLsbD i := by
  refine ⟨_, by rw [codecSet, setBits, if_pos ((bitRangeOk_iff low high).2 h)], fun i hi => ?_⟩
  simp only [BitVec.getLsbD_or, BitVec.getLsbD_and, BitVec.getLsbD_not, getLsbD_rangeMask h.1 hi]
  by_cases hin : low ≤ i ∧ i ≤ high
  · simp [hin, hi, Nat.not_lt.2 hin.1, BitVec.getLsbD_eq_getElem (Nat.lt_of_le_of_lt (Nat.sub_le i low) hi)]
  · simp [hin, hi]

/-- Both operations of the codec fail on a bad range. -/
theorem codec_invalidRange (w v : InstrWord) {low high : Nat} (h : high < low ∨ 31 < high) :
    codecExtract w low high = .error (.invalidRange low high) ∧
      codecSet w v low high = .error (.invalidRange low high) := by
  simp [codecExtract, codecSet, extractBits, setBits, bitRangeOk_of_bad h]

/-- Settles O1, by the codec's two operations on a good range and on a bad one. -/
theorem codecReadsAndReplacesBits : Obligations.CodecReadsAndReplacesBits := by
  intro w v low high
  exact ⟨fun h => ⟨codecExtract_bits w h, codecSet_bits w v h⟩, codec_invalidRange w v⟩

/-! ### The row choice (30_encoding.md R90, R91) -/

/-- Every format is tried. -/
theorem mem_formatOrder (f : Format) : f ∈ formatOrder := by
  cases f <;> decide

/-- Nothing is selected exactly when no element's row matches. -/
theorem selectBy_eq_none_iff {α : Type} (rowOf : α → Row) (l : List α) (w : InstrWord) :
    selectBy rowOf l w = none ↔ ∀ x ∈ l, ¬ RowMatches (rowOf x) w := by
  simp only [selectBy, List.findSome?_eq_none_iff, List.find?_eq_none, RowMatches, Bool.and_eq_true,
    decide_eq_true_eq, beq_iff_eq, not_and]
  exact ⟨fun h x hx => h _ (mem_formatOrder _) x hx rfl, fun h f _ x hx hf => hf ▸ h x hx⟩

/-- What is selected is in the list, and its row matches. -/
theorem selectBy_mem_matches {α : Type} {rowOf : α → Row} {l : List α} {w : InstrWord} {x : α}
    (h : selectBy rowOf l w = some x) : x ∈ l ∧ RowMatches (rowOf x) w := by
  obtain ⟨f, -, hf⟩ := List.exists_of_findSome?_eq_some h
  have hp := List.find?_some hf
  simp only [Bool.and_eq_true, decide_eq_true_eq, beq_iff_eq] at hp
  obtain ⟨hformat, hopcode⟩ := hp
  exact ⟨List.mem_of_find?_eq_some hf, by rw [RowMatches, hformat]; exact hopcode⟩

/-- Decode of a word that selects no row raises `UnknownOpcode` with the word. -/
theorem microBody_decode_of_select_none {t : Table} {s : State} (h : Table.select t s.lat.word = none) :
    microBody t s .decode = .error (.unknownOpcode (.word s.lat.word)) := by
  simp only [microBody, microLatches, decodeLatches, h]

/-- Settles O3, by what it means that the row choice answers none. -/
theorem unmatchedWordIsIllegal : Obligations.UnmatchedWordIsIllegal := by
  intro t s
  have hnone : Table.select t s.lat.word = none ↔ ∀ r ∈ t, ¬ RowMatches r s.lat.word :=
    selectBy_eq_none_iff id t s.lat.word
  exact ⟨hnone.symm, fun h => microBody_decode_of_select_none (hnone.2 h)⟩

/-! ### The bits a row ignores (30_encoding.md R93) -/

/-- Is bit `i` one that a word of the row ignores: shamt of an R row that is no shift, Rm of a shift row, op2 of
a D row (R93)? -/
def ignoresBit (row : Row) (i : Nat) : Bool :=
  match row.format with
  | .r => if isShiftTag row.sig.operation then decide (16 ≤ i ∧ i < 21) else decide (10 ≤ i ∧ i < 16)
  | .d => decide (10 ≤ i ∧ i < 12)
  | .i | .b | .im => false

section IgnoresBit
variable {row : Row} (i : Nat)

theorem ignoresBit_register (hf : row.format = .r) (hs : isShiftTag row.sig.operation = false) :
    ignoresBit row i = decide (10 ≤ i ∧ i < 16) := by
  simp only [ignoresBit, hf, hs, Bool.false_eq_true, if_false]

theorem ignoresBit_shift (hf : row.format = .r) (hs : isShiftTag row.sig.operation = true) :
    ignoresBit row i = decide (16 ≤ i ∧ i < 21) := by
  simp only [ignoresBit, hf, hs, if_true]

theorem ignoresBit_data (hf : row.format = .d) : ignoresBit row i = decide (10 ≤ i ∧ i < 12) := by
  simp only [ignoresBit, hf]

theorem ignoresBit_full (hf : row.format = .i ∨ row.format = .b ∨ row.format = .im) :
    ignoresBit row i = false := by
  rcases hf with hf | hf | hf <;> simp only [ignoresBit, hf]

/-- No row ignores a bit of the widest opcode field or one of the two register fields at the bottom. -/
theorem ignoresBit_eq_false {i : Nat} (h : 21 ≤ i ∨ i < 10) : ignoresBit row i = false := by
  unfold ignoresBit
  split
  · split <;> exact decide_eq_false (by omega)
  · exact decide_eq_false (by omega)
  all_goals rfl
end IgnoresBit

/-- `keptBits` has exactly the bits its row does not ignore. -/
theorem getLsbD_keptBits (row : Row) {i : Nat} (hi : i < 32) :
    (keptBits row).getLsbD i = !ignoresBit row i := by
  have hrm : ∀ i < 32, (~~~(0x1F#32 <<< 16)).getLsbD i = !decide (16 ≤ i ∧ i < 21) := by decide
  have hshamt : ∀ i < 32, (~~~(0x3F#32 <<< 10)).getLsbD i = !decide (10 ≤ i ∧ i < 16) := by decide
  have hop2 : ∀ i < 32, (~~~(0x3#32 <<< 10)).getLsbD i = !decide (10 ≤ i ∧ i < 12) := by decide
  unfold keptBits ignoresBit
  cases row.format with
  | r =>
    cases isShiftTag row.sig.operation with
    | true => exact hrm i hi
    | false => exact hshamt i hi
  | d => exact hop2 i hi
  | i | b | im => exact BitVec.getLsbD_allOnes.trans (decide_eq_true hi)

/-- Words that agree on the kept bits agree at every bit that is not ignored. -/
theorem getLsbD_eq_of_kept {row : Row} {w w' : InstrWord} (h : w &&& keptBits row = w' &&& keptBits row)
    {i : Nat} (hi : i < 32) (hkept : ignoresBit row i = false) : w.getLsbD i = w'.getLsbD i := by
  have hbit := congrArg (BitVec.getLsbD · i) h
  simpa [BitVec.getLsbD_and, getLsbD_keptBits row hi, hkept] using hbit

/-- A word has 0 in every ignored bit when it has 0 at each of them. -/
theorem ignored_eq_zero {row : Row} {w : InstrWord}
    (h : ∀ i < 32, ignoresBit row i = true → w.getLsbD i = false) : w &&& ~~~(keptBits row) = 0#32 := by
  refine BitVec.eq_of_getLsbD_eq fun i hi => ?_
  rw [BitVec.getLsbD_and, BitVec.getLsbD_not, getLsbD_keptBits row hi]
  cases hb : ignoresBit row i with
  | true => simp [h i hi hb]
  | false => simp

/-- A field is the same in words that agree on its bits. -/
theorem extractLsb'_congr {w w' : InstrWord} {a k : Nat}
    (h : ∀ i, a ≤ i → i < a + k → w.getLsbD i = w'.getLsbD i) : w.extractLsb' a k = w'.extractLsb' a k := by
  ext j hj
  simpa using h (a + j) (Nat.le_add_right a j) (Nat.add_lt_add_left hj a)

/-- The bits of a field that is 0. -/
theorem getLsbD_of_extractLsb'_eq_zero {w : InstrWord} {a k : Nat} (h : w.extractLsb' a k = 0) {i : Nat}
    (ha : a ≤ i) (hk : i < a + k) : w.getLsbD i = false := by
  have hbit := congrArg (BitVec.getLsbD · (i - a)) h
  simpa [show i - a < k by omega, Nat.add_sub_cancel' ha] using hbit

/-- The opcode field is the same in words that agree on the top bits. -/
theorem topBits_congr {n : Nat} {w w' : InstrWord}
    (h : ∀ i < 32, 32 - n ≤ i → w.getLsbD i = w'.getLsbD i) : topBits n w = topBits n w' := by
  refine List.map_congr_left fun k hk => ?_
  have hk : k < n := List.mem_range.1 hk
  rw [BitVec.getMsbD, BitVec.getMsbD]
  by_cases hk32 : k < 32
  · rw [h (32 - 1 - k) (by omega) (by omega)]
  · simp [hk32]

section Kept
variable {row : Row} {w w' : InstrWord} (h : w &&& keptBits row = w' &&& keptBits row)
include h

/-- A field of which the row ignores no bit is kept. -/
theorem extractLsb'_eq_of_kept {a k : Nat} (hle : a + k ≤ 32)
    (hkept : ∀ i, a ≤ i → i < a + k → ignoresBit row i = false) : w.extractLsb' a k = w'.extractLsb' a k :=
  extractLsb'_congr fun i hlow hhigh => getLsbD_eq_of_kept h (by omega) (hkept i hlow hhigh)

/-- The key of the row choice is kept. -/
theorem topBits_eq_of_kept : topBits 11 w = topBits 11 w' :=
  topBits_congr fun _ hi htop => getLsbD_eq_of_kept h hi (ignoresBit_eq_false (.inl htop))

theorem fieldRd_eq_of_kept : fieldRd w = fieldRd w' :=
  extractLsb'_eq_of_kept h (by omega) fun _ _ _ => ignoresBit_eq_false (by omega)

theorem fieldRn_eq_of_kept : fieldRn w = fieldRn w' :=
  extractLsb'_eq_of_kept h (by omega) fun _ _ _ => ignoresBit_eq_false (by omega)

/-- Rm is kept by an R row that is no shift. -/
theorem fieldRm_eq_of_kept (hf : row.format = .r) (hs : isShiftTag row.sig.operation = false) :
    fieldRm w = fieldRm w' :=
  extractLsb'_eq_of_kept h (by omega) fun i _ _ =>
    (ignoresBit_register i hf hs).trans (decide_eq_false (by omega))

/-- shamt is kept by a shift row. -/
theorem fieldShamt_eq_of_kept (hf : row.format = .r) (hs : isShiftTag row.sig.operation = true) :
    fieldShamt w = fieldShamt w' :=
  extractLsb'_eq_of_kept h (by omega) fun i _ _ =>
    (ignoresBit_shift i hf hs).trans (decide_eq_false (by omega))

/-- off9 is kept by a D row. -/
theorem fieldOff9_eq_of_kept (hf : row.format = .d) : fieldOff9 w = fieldOff9 w' :=
  extractLsb'_eq_of_kept h (by omega) fun i _ _ =>
    (ignoresBit_data i hf).trans (decide_eq_false (by omega))

/-- A row that ignores nothing keeps the word. -/
theorem eq_of_kept (hf : keptBits row = BitVec.allOnes 32) : w = w' := by
  simpa only [hf, BitVec.and_allOnes] using h
end Kept

/-- The entries of the default table by the bits they ignore: shamt, Rm, op2, none. -/
theorem mem_decodeEntries {e : DecodeEntry} (he : e ∈ decodeEntries) :
    e ∈ regEntries.take 13 ∨ e ∈ regEntries.drop 13 ∨ e ∈ memEntries ∨
      e ∈ immEntries ++ branchEntries ++ movEntries := by
  have hreg : e ∈ regEntries → e ∈ regEntries.take 13 ∨ e ∈ regEntries.drop 13 := fun h =>
    List.mem_append.1 ((List.take_append_drop 13 regEntries).symm ▸ h)
  simp only [decodeEntries, List.mem_append] at he ⊢
  tauto

/-- An entry of the default table reads only bits its row keeps. -/
theorem entry_eq_of_kept {e : DecodeEntry} (he : e ∈ decodeEntries) {w w' : InstrWord}
    (h : w &&& keptBits e.1 = w' &&& keptBits e.1) : e.2 w = e.2 w' := by
  have harith : ∀ e ∈ regEntries.take 13, e.1.format = .r ∧ isShiftTag e.1.sig.operation = false := by decide
  have hshift : ∀ e ∈ regEntries.drop 13, e.1.format = .r ∧ isShiftTag e.1.sig.operation = true := by decide
  have hdata : ∀ e ∈ memEntries, e.1.format = .d := by decide
  have hfull : ∀ e ∈ immEntries ++ branchEntries ++ movEntries, keptBits e.1 = BitVec.allOnes 32 := by decide
  have hrd := fieldRd_eq_of_kept h
  have hrn := fieldRn_eq_of_kept h
  have agree {l : List DecodeEntry} (hl : l.map (·.2 w) = l.map (·.2 w')) (he : e ∈ l) : e.2 w = e.2 w' :=
    List.map_inj_left.1 hl e he
  rcases mem_decodeEntries he with he | he | he | he
  · obtain ⟨hf, hs⟩ := harith e he
    exact agree (by simp [regEntries, hrd, hrn, fieldRm_eq_of_kept h hf hs]) he
  · obtain ⟨hf, hs⟩ := hshift e he
    exact agree (by simp [regEntries, hrd, hrn, fieldShamt_eq_of_kept h hf hs]) he
  · exact agree (by simp [memEntries, hrd, hrn, fieldOff9_eq_of_kept h (hdata e he)]) he
  · rw [eq_of_kept h (hfull e he)]

/-! ### Decoding and the row selected -/

/-- The instruction an entry gives belongs to the entry's row. -/
theorem row_of_entry {e : DecodeEntry} (he : e ∈ decodeEntries) (w : InstrWord) : (e.2 w).row = e.1 :=
  (List.map_inj_left (f := fun e : DecodeEntry => (e.2 w).row) (g := Prod.fst) (l := decodeEntries)).1 rfl e he

/-- What decodes is the selected entry's instruction. -/
theorem decode_eq_some_iff {w : InstrWord} {i : Instr} :
    decode w = some i ↔ ∃ e, selectBy Prod.fst decodeEntries w = some e ∧ e.2 w = i :=
  Option.map_eq_some_iff

/-- A word selects a row of the default table exactly when it decodes to an instruction of that row. -/
theorem select_default_eq_some_iff {w : InstrWord} {r : Row} :
    Table.select idtDefault w = some r ↔ ∃ i, decode w = some i ∧ i.row = r := by
  rw [select_default, Option.map_eq_some_iff]
  constructor
  · rintro ⟨e, hsel, rfl⟩
    exact ⟨e.2 w, decode_eq_some_iff.2 ⟨e, hsel, rfl⟩, row_of_entry (selectBy_mem_matches hsel).1 w⟩
  · rintro ⟨i, hdec, rfl⟩
    obtain ⟨e, hsel, rfl⟩ := decode_eq_some_iff.1 hdec
    exact ⟨e, hsel, (row_of_entry (selectBy_mem_matches hsel).1 w).symm⟩

/-- A matching row's pattern is the beginning of the word's top eleven bits. -/
theorem RowMatches.opcode_isPrefix {r : Row} {w : InstrWord} (h : RowMatches r w) : r.opcode <+: topBits 11 w := by
  rw [h, topBits_take 11 _ w (opcodeWidth_le r.format)]
  exact List.take_prefix _ _

/-- No pattern of the default table begins another row's (30_encoding.md section 4). -/
theorem eq_of_opcode_prefix : ∀ q ∈ idtDefault, ∀ r ∈ idtDefault, q.opcode <+: r.opcode → q = r := by
  decide

/-- At most one row of the default table matches a word. -/
theorem RowMatches.unique {q r : Row} {w : InstrWord} (hq : q ∈ idtDefault) (hr : r ∈ idtDefault)
    (hqw : RowMatches q w) (hrw : RowMatches r w) : q = r := by
  rcases List.prefix_or_prefix_of_prefix hqw.opcode_isPrefix hrw.opcode_isPrefix with h | h
  · exact eq_of_opcode_prefix q hq r hr h
  · exact (eq_of_opcode_prefix r hr q hq h).symm

/-- A row of the default table that matches a word is the one selected for it. -/
theorem select_default_of_matches {r : Row} {w : InstrWord} (hr : r ∈ idtDefault) (hm : RowMatches r w) :
    Table.select idtDefault w = some r := by
  cases hsel : Table.select idtDefault w with
  | none => exact absurd hm ((selectBy_eq_none_iff id idtDefault w).1 hsel r hr)
  | some q =>
    obtain ⟨hq, hqw⟩ := selectBy_mem_matches hsel
    rw [RowMatches.unique hq hr hqw hm]

/-- R93: a word that differs only in bits its row ignores decodes to the same instruction. -/
theorem decode_of_kept {w w' : InstrWord} {i : Instr} (hdec : decode w = some i)
    (h : w &&& keptBits i.row = w' &&& keptBits i.row) : decode w' = some i := by
  obtain ⟨e, hsel, rfl⟩ := decode_eq_some_iff.1 hdec
  have he : e ∈ decodeEntries := (selectBy_mem_matches hsel).1
  rw [row_of_entry he] at h
  rw [selectBy_key, topBits_eq_of_kept h, ← selectBy_key] at hsel
  exact decode_eq_some_iff.2 ⟨e, hsel, (entry_eq_of_kept he h).symm⟩

/-! ### The encoder writes 0 into the ignored bits -/

/-- An R word with shamt 0, under a row that is no shift. -/
theorem encodeR_ignored {row : Row} (hf : row.format = .r) (hs : isShiftTag row.sig.operation = false)
    (op : BitVec 11) (rm rn rd : Reg) : encodeR op rm 0 rn rd &&& ~~~(keptBits row) = 0#32 := by
  refine ignored_eq_zero fun i _ hi => ?_
  obtain ⟨hlow, hhigh⟩ : 10 ≤ i ∧ i < 16 := by
    simpa only [ignoresBit_register i hf hs, decide_eq_true_eq] using hi
  exact getLsbD_of_extractLsb'_eq_zero (fieldShamt_R op rm rn rd 0) hlow hhigh

/-- An R word with Rm 0, under a shift row. -/
theorem encodeR_shift_ignored {row : Row} (hf : row.format = .r) (hs : isShiftTag row.sig.operation = true)
    (op : BitVec 11) (sh : BitVec 6) (rn rd : Reg) : encodeR op 0 sh rn rd &&& ~~~(keptBits row) = 0#32 := by
  refine ignored_eq_zero fun i _ hi => ?_
  obtain ⟨hlow, hhigh⟩ : 16 ≤ i ∧ i < 21 := by simpa only [ignoresBit_shift i hf hs, decide_eq_true_eq] using hi
  exact getLsbD_of_extractLsb'_eq_zero (fieldRm_R op 0 rn rd sh) hlow hhigh

/-- The bits op2 of a D word. -/
theorem op2_encodeD (op : BitVec 11) (off9 : BitVec 9) (rn rt : Reg) :
    (encodeD op off9 rn rt).extractLsb' 10 2 = 0#2 :=
  (extract_append_left (op ++ off9 ++ 0#2 ++ rn) rt 10 2 (by omega)).trans
    ((extract_append_left (op ++ off9 ++ 0#2) rn 5 2 (by omega)).trans
      ((extract_append_right (op ++ off9) 0#2 0 2 (by omega)).trans (extract_all 0#2)))

/-- A D word, under a D row. -/
theorem encodeD_ignored {row : Row} (hf : row.format = .d) (op : BitVec 11) (off9 : BitVec 9) (rn rt : Reg) :
    encodeD op off9 rn rt &&& ~~~(keptBits row) = 0#32 := by
  refine ignored_eq_zero fun i _ hi => ?_
  obtain ⟨hlow, hhigh⟩ : 10 ≤ i ∧ i < 12 := by simpa only [ignoresBit_data i hf, decide_eq_true_eq] using hi
  exact getLsbD_of_extractLsb'_eq_zero (op2_encodeD op off9 rn rt) hlow hhigh

/-- Any word, under a row that ignores no bit. -/
theorem ignored_of_allKept {row : Row} (hf : keptBits row = BitVec.allOnes 32) (w : InstrWord) :
    w &&& ~~~(keptBits row) = 0#32 := by
  simp [hf]

/-- Every encoding has 0 in the bits its row ignores. -/
theorem encode_ignored (i : Instr) : encode i &&& ~~~(keptBits i.row) = 0#32 := by
  cases i with
  | lsl rd rn shamt | lsr rd rn shamt | asr rd rn shamt => exact encodeR_shift_ignored rfl rfl _ shamt rn rd
  | ldur rt rn off9 | stur rt rn off9 => exact encodeD_ignored rfl _ off9 rn rt
  | addi | subi | addis | subis | andi | orri | eori | andis => exact ignored_of_allKept rfl _
  | b | bEq | bNe | bGe | bLt | bGt | bLe => exact ignored_of_allKept rfl _
  | movz => exact ignored_of_allKept rfl _
  | _ => exact encodeR_ignored rfl rfl _ _ _ _

/-! ### The assembler writes 0 into the ignored bits (30_encoding.md R93, R109) -/

/-- What a `setBits` that does not fail has written. -/
theorem getLsbD_of_codecSet {w v r : InstrWord} {low high : Nat} (h : codecSet w v low high = .ok r) {i : Nat}
    (hi : i < 32) : r.getLsbD i = if low ≤ i ∧ i ≤ high then v.getLsbD (i - low) else w.getLsbD i := by
  by_cases hok : low ≤ high ∧ high ≤ 31
  · obtain ⟨r', hr', hbits⟩ := codecSet_bits w v hok
    cases h.symm.trans hr'
    exact hbits i hi
  · cases h.symm.trans (codec_invalidRange w v (by omega)).2

/-- Writing fields one after another. -/
theorem putFields_cons {w r : InstrWord} {f : FieldValue} {fs : List FieldValue}
    (h : putFields w (f :: fs) = .ok r) :
    ∃ w', codecSet w f.value f.low f.high = .ok w' ∧ putFields w' fs = .ok r := by
  unfold putFields at h
  split at h
  · cases h
  · next w' hw' => exact ⟨w', hw', h⟩

/-- `putFields` leaves every bit outside its fields. -/
theorem getLsbD_of_putFields {fs : List FieldValue} {w r : InstrWord} (h : putFields w fs = .ok r) {i : Nat}
    (hi : i < 32) (hout : ∀ f ∈ fs, ¬ (f.low ≤ i ∧ i ≤ f.high)) : r.getLsbD i = w.getLsbD i := by
  induction fs generalizing w with
  | nil => cases h; rfl
  | cons f fs ih =>
    rw [List.forall_mem_cons] at hout
    obtain ⟨hf, hfs⟩ := hout
    obtain ⟨w', hw', hr⟩ := putFields_cons h
    rw [ih hr hfs, getLsbD_of_codecSet hw' hi, if_neg hf]

/-- The operand fields of a line under a row, one constructor per form (30_encoding.md R107). -/
inductive OperandForm (row : Row) : List FieldValue → Prop
  | register (rd rn rm : Reg) (hf : row.format = .r) (hs : isShiftTag row.sig.operation = false) :
      OperandForm row [regField 0 rd, regField 5 rn, regField 16 rm]
  | shift (rd rn : Reg) (sh : Int) (hf : row.format = .r) (hs : isShiftTag row.sig.operation = true) :
      OperandForm row [regField 0 rd, regField 5 rn, immField 10 15 sh]
  | immediate (rd rn : Reg) (imm : Int) (hf : row.format = .i) :
      OperandForm row [regField 0 rd, regField 5 rn, immField 10 21 imm]
  | data (rt rn : Reg) (off : Int) (hf : row.format = .d) :
      OperandForm row [regField 0 rt, regField 5 rn, immField 12 20 off]
  | branch (off : Int) (hf : row.format = .b) : OperandForm row [immField 0 25 off]
  | move (rd : Reg) (imm : Int) (hf : row.format = .im) :
      OperandForm row [regField 0 rd, immField 5 20 imm]
  | moveShifted (rd : Reg) (imm hw : Int) (hf : row.format = .im) :
      OperandForm row [regField 0 rd, immField 5 20 imm, immField 21 22 hw]

/-- Everything `operandFields` can answer. -/
theorem operandFields_form {row : Row} {ops : List Text} {fs : List FieldValue}
    (h : operandFields row ops = some fs) : OperandForm row fs := by
  unfold operandFields at h
  split at h
  · next hf =>
    split at h
    · next hs => split at h <;> cases h; exact .shift _ _ _ hf hs
    · next hs => split at h <;> cases h; exact .register _ _ _ hf (Bool.eq_false_iff.2 hs)
  · next hf => split at h <;> cases h; exact .immediate _ _ _ hf
  · next hf => split at h <;> cases h; exact .data _ _ _ hf
  · next hf => split at h <;> cases h; exact .branch _ hf
  · next hf => split at h <;> cases h; exact .move _ _ hf
  · next hf => split at h <;> cases h; exact .moveShifted _ _ _ hf
  · cases h

/-- Where an operand's field may stand: below the opcode field, on no bit the row ignores. -/
def OperandPlace (row : Row) (f : FieldValue) : Prop :=
  f.high < 32 - row.format.opcodeWidth ∧ ∀ i, f.low ≤ i → i ≤ f.high → ignoresBit row i = false

/-- The two register fields at the bottom of a word. -/
theorem operandPlace_regField {row : Row} {low : Nat} (r : Reg) (hlow : low ≤ 5) :
    OperandPlace row (regField low r) := by
  have hwidth := opcodeWidth_le row.format
  exact ⟨show low + 4 < _ by omega, fun i _ (hi : i ≤ low + 4) => ignoresBit_eq_false (.inr (by omega))⟩

/-- A field of a row that ignores no bit, below the opcode field. -/
theorem operandPlace_of_full {row : Row} {f : FieldValue}
    (hf : row.format = .i ∨ row.format = .b ∨ row.format = .im)
    (hhigh : f.high < 32 - row.format.opcodeWidth) : OperandPlace row f :=
  ⟨hhigh, fun i _ _ => ignoresBit_full i hf⟩

/-- The operands of a line go below the opcode field and beside the bits the row ignores. -/
theorem OperandForm.place {row : Row} {fs : List FieldValue} (h : OperandForm row fs) :
    ∀ f ∈ fs, OperandPlace row f := by
  have hreg (r : Reg) : OperandPlace row (regField 0 r) ∧ OperandPlace row (regField 5 r) :=
    ⟨operandPlace_regField r (by omega), operandPlace_regField r (by omega)⟩
  cases h with
  | register rd rn rm hf hs =>
    have hrm : OperandPlace row (regField 16 rm) := by
      refine ⟨by simp [regField, hf, Format.opcodeWidth], fun i hlow _ => ?_⟩
      have hlow : 16 ≤ i := hlow
      exact (ignoresBit_register i hf hs).trans (decide_eq_false (by omega))
    simp [hreg, hrm]
  | shift rd rn sh hf hs =>
    have hsh : OperandPlace row (immField 10 15 sh) := by
      refine ⟨by simp [immField, hf, Format.opcodeWidth], fun i _ hhigh => ?_⟩
      have hhigh : i ≤ 15 := hhigh
      exact (ignoresBit_shift i hf hs).trans (decide_eq_false (by omega))
    simp [hreg, hsh]
  | immediate rd rn imm hf =>
    have himm : OperandPlace row (immField 10 21 imm) :=
      operandPlace_of_full (.inl hf) (by simp [immField, hf, Format.opcodeWidth])
    simp [hreg, himm]
  | data rt rn off hf =>
    have hoff : OperandPlace row (immField 12 20 off) := by
      refine ⟨by simp [immField, hf, Format.opcodeWidth], fun i hlow _ => ?_⟩
      have hlow : 12 ≤ i := hlow
      exact (ignoresBit_data i hf).trans (decide_eq_false (by omega))
    simp [hreg, hoff]
  | branch off hf =>
    have hoff : OperandPlace row (immField 0 25 off) :=
      operandPlace_of_full (.inr (.inl hf)) (by simp [immField, hf, Format.opcodeWidth])
    simp [hoff]
  | move rd imm hf =>
    have himm : OperandPlace row (immField 5 20 imm) :=
      operandPlace_of_full (.inr (.inr hf)) (by simp [immField, hf, Format.opcodeWidth])
    simp [hreg, himm]
  | moveShifted rd imm hw hf =>
    have himm : OperandPlace row (immField 5 20 imm) :=
      operandPlace_of_full (.inr (.inr hf)) (by simp [immField, hf, Format.opcodeWidth])
    have hhw : OperandPlace row (immField 21 22 hw) :=
      operandPlace_of_full (.inr (.inr hf)) (by simp [immField, hf, Format.opcodeWidth])
    simp [hreg, himm, hhw]

/-- Everything an `assemble` that answers a word has done (30_encoding.md R106 to R109). -/
theorem assemble_cases {t : Table} {line : Text} {w : InstrWord} (h : assemble t line = .ok w) :
    ∃ row ∈ t, ∃ fs, OperandForm row fs ∧ putFields 0 (opcodeField row :: fs) = .ok w := by
  unfold assemble at h
  dsimp only at h
  split at h
  · cases h
  · next row hrow =>
    split at h
    · cases h
    · next fs hfs => exact ⟨row, List.mem_of_find?_eq_some hrow, fs, operandFields_form hfs, h⟩

/-- The pattern of a row of the default table, as a number in the top bits, is the opcode field. -/
theorem topBits_patternValue : ∀ row ∈ idtDefault,
    topBits row.format.opcodeWidth ((opcodeField row).value <<< (opcodeField row).low) = row.opcode := by
  decide

section Assembled
variable {row : Row} {fs : List FieldValue} {w : InstrWord} (hfs : ∀ f ∈ fs, OperandPlace row f)
  (h : putFields 0 (opcodeField row :: fs) = .ok w)
include hfs h

/-- The opcode field of a word written from 0 is the row's pattern. -/
theorem rowMatches_assembled (hrow : row ∈ idtDefault) : RowMatches row w := by
  obtain ⟨w', hw', hw⟩ := putFields_cons h
  refine (topBits_patternValue row hrow).symm.trans (topBits_congr fun i hi htop => ?_)
  have hin : (opcodeField row).low ≤ i ∧ i ≤ (opcodeField row).high := ⟨htop, Nat.le_of_lt_succ hi⟩
  have hout : ∀ f ∈ fs, ¬ (f.low ≤ i ∧ i ≤ f.high) := by
    intro f hf hbit
    obtain ⟨hhigh, -⟩ := hfs f hf
    omega
  rw [getLsbD_of_putFields hw hi hout, getLsbD_of_codecSet hw' hi, if_pos hin, BitVec.getLsbD_shiftLeft]
  simp [hi, Nat.not_lt.2 hin.1]

/-- A word written from 0 has 0 in the bits its row ignores. -/
theorem ignored_assembled : w &&& ~~~(keptBits row) = 0#32 := by
  obtain ⟨w', hw', hw⟩ := putFields_cons h
  refine ignored_eq_zero fun i hi hign => ?_
  have hopcode : ¬ ((opcodeField row).low ≤ i ∧ i ≤ (opcodeField row).high) := by
    rintro ⟨hlow, -⟩
    have htop : 32 - row.format.opcodeWidth ≤ i := hlow
    have hwidth := opcodeWidth_le row.format
    rw [ignoresBit_eq_false (.inl (by omega))] at hign
    cases hign
  have hout : ∀ f ∈ fs, ¬ (f.low ≤ i ∧ i ≤ f.high) := by
    rintro f hf ⟨hlow, hhigh⟩
    obtain ⟨-, hkept⟩ := hfs f hf
    rw [hkept i hlow hhigh] at hign
    cases hign
  rw [getLsbD_of_putFields hw hi hout, getLsbD_of_codecSet hw' hi, if_neg hopcode]
  exact BitVec.getLsbD_zero
end Assembled

/-- Every word the assembler builds under the default table decodes, with 0 in the bits its row ignores. -/
theorem assemble_decodes_ignored {line : Text} {w : InstrWord} (h : assemble idtDefault line = .ok w) :
    ∃ i, decode w = some i ∧ w &&& ~~~(keptBits i.row) = 0#32 := by
  obtain ⟨row, hrow, fs, hform, hput⟩ := assemble_cases h
  have hsel := select_default_of_matches hrow (rowMatches_assembled hform.place hput hrow)
  obtain ⟨i, hdec, rfl⟩ := select_default_eq_some_iff.1 hsel
  exact ⟨i, hdec, ignored_assembled hform.place hput⟩

/-! ### The effect of a step reads only the decoded instruction (30_encoding.md R93) -/

/-- The state with another program and another word in the latch Fetch loads. -/
def State.withCode (s : State) (program : List InstrWord) (w : InstrWord) : State :=
  { s with program := program, lat := { s.lat with word := w } }

section WithCode
variable (s : State) (p : List InstrWord) (w : InstrWord)

@[simp] theorem State.withCode_pc : (s.withCode p w).pc = s.pc := rfl
@[simp] theorem State.withCode_memCapacity : (s.withCode p w).memCapacity = s.memCapacity := rfl
@[simp] theorem State.withCode_reg (r : Reg) : (s.withCode p w).reg r = s.reg r := rfl

@[simp] theorem State.withCode_record : (s.withCode p w).record = s.record.withCode p w := rfl
@[simp] theorem State.withCode_raise (f : Fault) : (s.withCode p w).raise f = (s.raise f).withCode p w := rfl
@[simp] theorem State.withCode_latchOperands (row : Row) (a b : Word) :
    (s.withCode p w).latchOperands row a b = (s.latchOperands row a b).withCode p w := rfl
@[simp] theorem State.withCode_latchStore (row : Row) (a b d : Word) :
    (s.withCode p w).latchStore row a b d = (s.latchStore row a b d).withCode p w := rfl
@[simp] theorem State.withCode_latchBranch (row : Row) (target : Word) :
    (s.withCode p w).latchBranch row target = (s.latchBranch row target).withCode p w := rfl
@[simp] theorem State.withCode_latchSignals :
    (s.withCode p w).latchSignals = s.latchSignals.withCode p w := rfl
@[simp] theorem State.withCode_latchTaken (taken : Bool) :
    (s.withCode p w).latchTaken taken = (s.latchTaken taken).withCode p w := rfl
@[simp] theorem State.withCode_executed (r : AluResult) (fw : Bool) :
    (s.withCode p w).executed r fw = (s.executed r fw).withCode p w := rfl
@[simp] theorem State.withCode_loaded (v : Word) : (s.withCode p w).loaded v = (s.loaded v).withCode p w := rfl
@[simp] theorem State.withCode_stored : (s.withCode p w).stored = s.stored.withCode p w := rfl

@[simp] theorem State.withCode_setReg (r : Reg) (v : Word) :
    (s.withCode p w).setReg r v = (s.setReg r v).withCode p w := by
  unfold State.setReg
  split <;> rfl

@[simp] theorem withCode_effectiveAddress (rn : Reg) (off9 : BitVec 9) :
    effectiveAddress (s.withCode p w) rn off9 = effectiveAddress s rn off9 := rfl

@[simp] theorem withCode_memRead (addr : Word) (size : AccessSize) :
    memRead (s.withCode p w) addr size = memRead s addr size := rfl

/-- A memory write reads nothing of the code and leaves it. -/
@[simp] theorem withCode_memWrite (addr v : Word) (size : AccessSize) :
    memWrite (s.withCode p w) addr size v = (memWrite s addr size v).map (·.withCode p w) := by
  simp only [memWrite, State.withCode_memCapacity]
  cases checkAccess s.memCapacity addr size.bytes <;> rfl

/-- A memory write leaves the program. -/
theorem memWrite_program {s u : State} {addr v : Word} {size : AccessSize}
    (h : memWrite s addr size v = .ok u) : u.program = s.program := by
  rcases memWrite_cases s addr size v with ⟨-, hm⟩ | ⟨f, -, hm⟩
  · cases h.symm.trans hm; rfl
  · cases h.symm.trans hm

variable {s p}

/-- The end of an instruction reads of the code the program's length only. -/
@[simp] theorem State.withCode_endInstr (hp : p.length = s.program.length) (next : Word) (text : Text) :
    (s.withCode p w).endInstr next text = (s.endInstr next text).withCode p w := by
  simp only [State.endInstr, State.atEnd, State.withCode, hp]

variable (hp : p.length = s.program.length)
include hp

theorem runAlu_withCode (row : Row) (op : AluOp) (fw : Bool) (rd : Reg) (a b : Word) (text : Text) :
    ∃ t, runAlu row op fw rd a b text s = .next t ∧
      runAlu row op fw rd a b text (s.withCode p w) = .next (t.withCode p w) := by
  unfold runAlu
  cases alu a b op with
  | error f => exact ⟨_, rfl, by simp⟩
  | ok r => exact ⟨_, rfl, by simp [hp]⟩

theorem runLoad_withCode (row : Row) (rt rn : Reg) (off9 : BitVec 9) (text : Text) :
    ∃ t, runLoad row rt rn off9 text s = .next t ∧
      runLoad row rt rn off9 text (s.withCode p w) = .next (t.withCode p w) := by
  simp only [runLoad, withCode_effectiveAddress, State.withCode_reg, State.withCode_latchOperands,
    State.withCode_record, State.withCode_latchSignals, State.withCode_executed, withCode_memRead]
  split
  · exact ⟨_, rfl, by simp⟩
  · exact ⟨_, rfl, by simp [hp]⟩

theorem runStore_withCode (row : Row) (rt rn : Reg) (off9 : BitVec 9) (text : Text) :
    ∃ t, runStore row rt rn off9 text s = .next t ∧
      runStore row rt rn off9 text (s.withCode p w) = .next (t.withCode p w) := by
  simp only [runStore, withCode_effectiveAddress, State.withCode_reg, State.withCode_latchStore,
    State.withCode_record, State.withCode_latchSignals, State.withCode_executed, withCode_memWrite]
  split
  · next f h => rw [h]; exact ⟨_, rfl, by simp [Except.map]⟩
  · next u h =>
    have hu : u.program = s.program := (memWrite_program h).trans (by simp)
    rw [h]; exact ⟨_, rfl, by simp [Except.map, hp, hu]⟩

theorem runBranch_withCode (row : Row) (off26 : BitVec 26) (taken : Bool) (text : Text) :
    ∃ t, runBranch row off26 taken text s = .next t ∧
      runBranch row off26 taken text (s.withCode p w) = .next (t.withCode p w) := by
  refine ⟨_, rfl, ?_⟩
  simp only [runBranch, State.withCode_pc, State.withCode_latchBranch, State.withCode_record,
    State.withCode_latchTaken]
  rw [State.withCode_endInstr w (by simpa using hp)]
  rfl

/-- Two states that differ in code only answer next states that differ in the same code only. -/
theorem exec_withCode (i : Instr) :
    ∃ t, exec i s = .next t ∧ exec i (s.withCode p w) = .next (t.withCode p w) := by
  unfold exec
  cases i with
  | ldur rt rn off9 => exact runLoad_withCode w hp _ rt rn off9 _
  | stur rt rn off9 => exact runStore_withCode w hp _ rt rn off9 _
  | b off26 | bEq off26 | bNe off26 | bGe off26 | bLt off26 | bGt off26 | bLe off26 =>
    exact runBranch_withCode w hp _ off26 _ _
  | _ => exact runAlu_withCode w hp _ _ _ _ _ _ _
end WithCode

/-- A step at an enabled boundary whose word decodes is the effect of its instruction. -/
theorem step_of_decode {s : State} {w : InstrWord} {i : Instr} (hen : Enabled s) (hb : AtBoundary s)
    (hw : s.program[s.pc.toNat / 4]? = some w) (hdec : decode w = some i) :
    step s = exec i (s.fetched w).record := by
  obtain ⟨hfin, hflt⟩ := hen
  have hidx : s.lat.idx = 0 := hb
  simp [step, hfin, hflt, hidx, instrStep, State.fetchWord, hw, hdec]

/-- R93: a step with another word at the pc that decodes to the same instruction answers the same next state but for
that word. -/
theorem step_withCode {s : State} {w w' : InstrWord} {i : Instr} (hen : Enabled s) (hb : AtBoundary s)
    (hw : s.program[s.pc.toNat / 4]? = some w) (hdec : decode w = some i) (hdec' : decode w' = some i) :
    ∃ t, step s = .next t ∧
      step { s with program := s.program.set (s.pc.toNat / 4) w' } =
        .next (t.withCode (s.program.set (s.pc.toNat / 4) w') w') := by
  have hpos : s.pc.toNat / 4 < s.program.length := (List.getElem?_eq_some_iff.1 hw).1
  have hw' : (s.program.set (s.pc.toNat / 4) w')[s.pc.toNat / 4]? = some w' := List.getElem?_set_self hpos
  rw [step_of_decode hen hb hw hdec,
    step_of_decode (s := { s with program := s.program.set (s.pc.toNat / 4) w' }) hen hb hw' hdec']
  exact exec_withCode (s := (s.fetched w).record) w' List.length_set i

/-- Settles O8: the key of the row choice and the fields its row reads are kept bits; an instruction's effect reads
of the code only the program's length; the encoder and the assembler write on no ignored bit. -/
theorem ignoredBitsDoNotAffectDecoding : Obligations.IgnoredBitsDoNotAffectDecoding :=
  ⟨fun _ _ _ => decode_of_kept,
    fun _ _ _ _ hen hb hw hdec h => step_withCode hen hb hw hdec (decode_of_kept hdec h),
    fun _ _ => assemble_decodes_ignored, encode_ignored, by decide⟩

end Sys2Proof.Machine

/-! PROOFS. The family 40_alu.md: the tags (R120, R139), the add and subtract family (R121 to R123), the products (R127
to R129), the quotients (R130, R131), the shifts (R132 to R134), the bitwise operations and PASS (R124 to R126, R135). -/

namespace Sys2Proof.Machine

open Sys2Proof

/-! ### Tags and faults (40_alu.md R120, R139) -/

/-- A text names no operation exactly when it is none of the table's spellings. -/
theorem aluOpOfTag_eq_none_iff (tag : Text) : aluOpOfTag tag = none ↔ tag ∉ aluTags.map Prod.fst := by
  rw [aluOpOfTag, Option.map_eq_none_iff, List.find?_eq_none, List.mem_map]
  exact ⟨fun h ⟨p, hp, he⟩ => h p hp (beq_iff_eq.2 he), fun h p hp he => h ⟨p, hp, beq_iff_eq.1 he⟩⟩

/-- The one fault of a defined operation is a zero divisor (R120). -/
theorem alu_eq_error_iff (a b : Word) (op : AluOp) (f : Fault) :
    alu a b op = .error f ↔ (b = 0#64 ∧ (op = .sdiv ∨ op = .udiv)) ∧ f = .divisionByZero := by
  cases op with
  | sdiv | udiv => by_cases hb : b = 0#64 <;> simp [alu, hb, eq_comm]
  | _ => simp [alu]

/-- The ALU fails with `UnsupportedOperation` exactly for a text that names no operation. -/
theorem aluTag_eq_unsupported_iff (a b : Word) (tag : Text) :
    aluTag a b tag = .error (.unsupportedOperation tag) ↔ aluOpOfTag tag = none := by
  cases h : aluOpOfTag tag with
  | none => simp [aluTag, h]
  | some op => simp [aluTag, h, alu_eq_error_iff]

/-- Settles O17: the tags are the spellings of the table, and no defined operation raises this fault. -/
theorem unknownTagIsUnsupported : Obligations.UnknownTagIsUnsupported := by
  intro a b tag
  exact (aluOpOfTag_eq_none_iff tag).symm.trans (aluTag_eq_unsupported_iff a b tag).symm

/-! ### Add and subtract (40_alu.md R121 to R123) -/

/-- The flags the ALU gives an add are those of the exact formulas. -/
theorem addFlags_eq_spec (a b : Word) : addFlags a b (a + b) = addFlagsSpec a b := by
  simp [addFlags, addFlagsSpec, flagN, flagZ, addCarry, addOverflow, Bool.beq_eq_decide_eq, bne]

/-- The flags the ALU gives a subtract are those of the exact formulas. -/
theorem subFlags_eq_spec (a b : Word) : subFlags a b (a - b) = subFlagsSpec a b := by
  simp [subFlags, subFlagsSpec, flagN, flagZ, subCarry, subOverflow, Bool.beq_eq_decide_eq, bne]

/-- The sum is the exact sum modulo 2^64. -/
theorem add_eq_ofNat_mod (a b : Word) : a + b = BitVec.ofNat 64 ((a.toNat + b.toNat) % 2 ^ 64) := by
  bv_omega

/-- The difference is the exact difference, negative or not, modulo 2^64. -/
theorem sub_eq_ofInt_mod (a b : Word) : a - b = BitVec.ofInt 64 ((a.toNat - b.toNat : Int) % 2 ^ 64) := by
  apply BitVec.eq_of_toNat_eq
  rw [BitVec.toNat_sub, BitVec.toNat_ofInt]
  omega

/-- Settles O11: the tags of each family name one operation, whose value and flags are the exact ones. -/
theorem aluAddAndSubtract : Obligations.AluAddAndSubtract := by
  intro a b
  have hadd : ∀ tag ∈ ["ADD".toList, "ADDS".toList], aluTag a b tag = .ok (aluAdd a b) := by
    intro tag htag
    fin_cases htag <;> rfl
  have hsub : ∀ tag ∈ ["SUB".toList, "SUBS".toList, "CMP".toList], aluTag a b tag = .ok (aluSub a b) := by
    intro tag htag
    fin_cases htag <;> rfl
  constructor
  · intro tag htag
    rw [hadd tag htag, aluAdd, addFlags_eq_spec, add_eq_ofNat_mod]
  · intro tag htag
    rw [hsub tag htag, aluSub, subFlags_eq_spec, sub_eq_ofInt_mod]

/-! ### Bitwise operations and PASS (40_alu.md R124 to R126, R135) -/

/-- Settles O13: each tag names its operation, and `logicFlags` are the flags of R136 and R137. -/
theorem aluBitwiseAndPass : Obligations.AluBitwiseAndPass :=
  fun _ _ => ⟨rfl, rfl, rfl, rfl⟩

/-! ### Products (40_alu.md R127 to R129) -/

/-- The low half is the same of the unsigned and of the signed product (R127). -/
theorem toNat_mul_eq_toInt_mul_emod (a b : Word) : ((a * b).toNat : Int) = a.toInt * b.toInt % 2 ^ 64 := by
  have hmul : a * b = BitVec.ofInt 64 (a.toInt * b.toInt) := by
    rw [BitVec.ofInt_mul, BitVec.ofInt_toInt, BitVec.ofInt_toInt]
  rw [hmul, BitVec.toNat_ofInt]
  omega

/-- The high half of the signed product fits in 64 bits. -/
theorem toInt_mulHighSigned (a b : Word) : (mulHighSigned a b).toInt = a.toInt * b.toInt / 2 ^ 64 := by
  have hlow : -2 ^ 126 ≤ a.toInt * b.toInt := BitVec.le_toInt_mul_toInt
  have hhigh : a.toInt * b.toInt ≤ 2 ^ 126 := BitVec.toInt_mul_toInt_le
  exact BitVec.toInt_ofInt_eq_self (by decide) (by omega) (by omega)

/-- The high half of the unsigned product fits in 64 bits. -/
theorem toNat_mulHighUnsigned (a b : Word) : (mulHighUnsigned a b).toNat = a.toNat * b.toNat / 2 ^ 64 := by
  have hprod : a.toNat * b.toNat < 2 ^ 64 * 2 ^ 64 := Nat.mul_lt_mul'' a.isLt b.isLt
  rw [mulHighUnsigned, BitVec.toNat_ofNat]
  exact Nat.mod_eq_of_lt (Nat.div_lt_of_lt_mul hprod)

/-- Settles O14: each exact product is 2^64 times its quotient plus its remainder by 2^64. -/
theorem aluProducts : Obligations.AluProducts := by
  intro a b
  refine ⟨a * b, mulHighSigned a b, mulHighUnsigned a b, rfl, rfl, rfl, BitVec.toNat_mul a b, ?_, ?_⟩
  · rw [toInt_mulHighSigned, toNat_mul_eq_toInt_mul_emod]
    exact Int.ediv_mul_add_emod _ _
  · rw [toNat_mulHighUnsigned, BitVec.toNat_mul]
    exact Nat.div_add_mod' _ _

/-! ### Quotients (40_alu.md R130, R131) -/

/-- The ALU's signed quotient is the library's signed division. -/
theorem divSigned_eq_sdiv (a b : Word) : divSigned a b = a.sdiv b := by
  apply BitVec.eq_of_toInt_eq
  rw [divSigned, BitVec.toInt_ofInt, BitVec.toInt_sdiv]

/-- The one quotient that does not fit wraps to the most negative value. -/
theorem divSigned_overflow {a b : Word} (ha : a.toInt = -2 ^ 63) (hb : b.toInt = -1) :
    divSigned a b = 0x8000000000000000#64 := by
  rw [divSigned, ha, hb]
  decide

/-- Every other quotient is the exact one. -/
theorem toInt_divSigned {a b : Word} (h : ¬ (a.toInt = -2 ^ 63 ∧ b.toInt = -1)) :
    (divSigned a b).toInt = a.toInt.tdiv b.toInt := by
  rw [divSigned_eq_sdiv]
  refine BitVec.toInt_sdiv_of_ne_or_ne a b (Decidable.not_and_iff_not_or_not.1 ?_)
  rintro ⟨rfl, rfl⟩
  exact h (by decide)

/-- The unsigned quotient always fits. -/
theorem toNat_divUnsigned (a b : Word) : (divUnsigned a b).toNat = a.toNat / b.toNat := by
  rw [divUnsigned, BitVec.toNat_ofNat]
  exact Nat.mod_eq_of_lt ((Nat.div_le_self _ _).trans_lt a.isLt)

/-- Settles O15: a zero divisor faults; any other gives the two quotients, whose values the lemmas above tell. -/
theorem aluDivision : Obligations.AluDivision := by
  intro a b
  refine ⟨fun hb => ?_, fun hb => ?_⟩
  · subst hb
    exact ⟨rfl, rfl⟩
  · exact ⟨divSigned a b, divUnsigned a b, if_neg hb, if_neg hb, toNat_divUnsigned a b,
      fun ⟨hmin, hneg⟩ => divSigned_overflow hmin hneg, toInt_divSigned⟩

/-! ### Shifts (40_alu.md R132 to R134) -/

/-- A left shift is the product by the power of two, modulo 2^64. -/
theorem toNat_shiftLeft_eq_mul (a : Word) (d : Nat) : (a <<< d).toNat = a.toNat * 2 ^ d % 2 ^ 64 := by
  rw [BitVec.toNat_shiftLeft, Nat.shiftLeft_eq]

/-- A logical right shift is the floor of the unsigned quotient by the power of two. -/
theorem toNat_ushiftRight_eq_div (a : Word) (d : Nat) : (a >>> d).toNat = a.toNat / 2 ^ d := by
  rw [BitVec.toNat_ushiftRight, Nat.shiftRight_eq_div_pow]

/-- An arithmetic right shift is the floor of the signed quotient by the power of two. -/
theorem toInt_sshiftRight_eq_div (a : Word) (d : Nat) : (a.sshiftRight d).toInt = a.toInt / 2 ^ d := by
  rw [BitVec.toInt_sshiftRight, Int.shiftRight_eq_div_pow, Nat.cast_pow, Nat.cast_ofNat]

/-- Settles O16: the three shifts by `shiftDistance b`, each as its integer operation. -/
theorem aluShifts : Obligations.AluShifts := by
  intro a b
  exact ⟨a <<< shiftDistance b, a >>> shiftDistance b, a.sshiftRight (shiftDistance b), rfl, rfl, rfl,
    toNat_shiftLeft_eq_mul a _, toNat_ushiftRight_eq_div a _, toInt_sshiftRight_eq_div a _⟩

end Sys2Proof.Machine

/-! PROOFS. The family 41_control_and_sequencer.md: Control-Signal and the condition codes (R168), the end of a run
(R177), and the micro-step lists with the run that follows them (R165). -/

namespace Sys2Proof.Machine

open Sys2Proof

/-! ### Control-Signal and the condition codes (41_control_and_sequencer.md R168) -/

/-- The table of conditions: which codes hold under which flags, and that no other code does. -/
theorem condHolds_iff (code : Text) (f : Flags) :
    condHolds code f = true ↔
      code = ['E', 'Q'] ∧ f.z = true ∨ code = ['N', 'E'] ∧ f.z = false ∨
      code = ['L', 'T'] ∧ f.n ≠ f.v ∨ code = ['G', 'T'] ∧ (f.z = false ∧ f.n = f.v) ∨
      code = ['L', 'E'] ∧ (f.z = true ∨ f.n ≠ f.v) ∨ code = ['G', 'E'] ∧ f.n = f.v := by
  unfold condHolds
  split_ifs with hEq hNe hLt hGt hLe hGe
  case neg => simp_all
  all_goals subst code; simp

/-- The code of a mnemonic, with the test for the dot as a proposition. -/
theorem condCode_eq (mnemonic : Text) :
    condCode mnemonic = (mnemonic.dropWhile (fun c => c ≠ '.')).drop 1 := by
  simp only [condCode, ne_eq, decide_not, bne, Bool.beq_eq_decide_eq]

/-- A branch row is taken when unconditional, or else on its condition code when `flagBranch` is set. -/
theorem rowTaken_iff (row : Row) (f : Flags) :
    rowTaken row f = true ↔
      (row.sig.uncondBranch = true ∨
        row.sig.flagBranch = true ∧ condHolds (condCode row.mnemonic) f = true) := by
  cases hu : row.sig.uncondBranch <;> cases hf : row.sig.flagBranch <;>
    simp [rowTaken, controlSignals, hu, hf]

/-- Settles O46, by the two forms of Control-Signal and the table of conditions. -/
theorem conditionCodeTable : Obligations.ConditionCodeTable := by
  refine ⟨fun t s row ⟨hfin, hflt⟩ hk hrow => ?_, fun row f => ?_⟩
  · have hr : Ready s .control := ⟨hfin, hflt, hk⟩
    by_cases hf : row.format = .b
    · rw [microStep_control_branch hr hrow hf, if_pos hf, State.latchTaken]
    · rw [microStep_control hr hrow hf, if_neg hf, State.latchSignals]
  · rw [rowTaken_iff, condHolds_iff, condCode_eq]

/-! ### How a step ends (41_control_and_sequencer.md R177, R178) -/

/-- The pc an instruction ends with is the one it ends at. -/
theorem EndsAt.at_pc {next : Word} {s t : State} (h : EndsAt next s t) : EndsAt t.pc s t := by
  obtain ⟨rfl, hrest⟩ := h
  exact ⟨rfl, hrest⟩

/-- An instruction ends at the pc it chooses, or faults having committed nothing. -/
theorem exec_endsAt_or_faults (i : Instr) (s : State) :
    ∃ t, exec i s = .next t ∧
      (EndsAt t.pc s t ∧ SameParameters s t ∨ ∃ kind idx, FaultEffect kind idx s t) := by
  have hshape := exec_shape i s
  generalize exec i s = o at hshape
  cases hshape with
  | alu op rd a b text =>
    rcases runAlu_cases i.row op (writesFlags i) rd a b text s with ⟨r, t, -, ht, -, he⟩ | ⟨f, t, -, ht, he⟩
    · obtain ⟨-, -, hend, -, hpar⟩ := he
      exact ⟨t, ht, .inl ⟨hend.at_pc, hpar⟩⟩
    · exact ⟨t, ht, .inr ⟨f, 3, he⟩⟩
  | load rt rn off9 text =>
    cases hc : checkAccess s.memCapacity (effectiveAddress s rn off9) 8 with
    | ok _ =>
      obtain ⟨t, ht, -, -, -, hend, -, hpar⟩ := runLoad_completes i.row rt rn off9 text s hc
      exact ⟨t, ht, .inl ⟨hend.at_pc, hpar⟩⟩
    | error f =>
      obtain ⟨t, ht, he⟩ := runLoad_faults i.row rt rn off9 text s f hc
      exact ⟨t, ht, .inr ⟨f, 4, he⟩⟩
  | store rt rn off9 text =>
    cases hc : checkAccess s.memCapacity (effectiveAddress s rn off9) 8 with
    | ok _ =>
      obtain ⟨t, ht, -, -, hend, -, -, hpar⟩ := runStore_completes i.row rt rn off9 text s hc
      exact ⟨t, ht, .inl ⟨hend.at_pc, hpar⟩⟩
    | error f =>
      obtain ⟨t, ht, he⟩ := runStore_faults i.row rt rn off9 text s f hc
      exact ⟨t, ht, .inr ⟨f, 4, he⟩⟩
  | branch off26 taken text =>
    obtain ⟨t, ht, -, hend, -, -, -, hpar⟩ := runBranch_completes i.row off26 taken text s
    exact ⟨t, ht, .inl ⟨hend.at_pc, hpar⟩⟩

/-- A step at an enabled boundary is Fetch, the decoder and the instruction's effect. -/
theorem step_of_boundary {s : State} (hen : Enabled s) (hb : AtBoundary s) : step s = instrStep s := by
  obtain ⟨hfin, hflt⟩ := hen
  have hidx : s.lat.idx = 0 := hb
  simp [step, hfin, hflt, hidx]

/-- A step whose pc lies past the program raises `FetchOutOfProgram` at Fetch and changes nothing else. -/
theorem step_of_fetch_out {s : State} (hen : Enabled s) (hb : AtBoundary s)
    (hpc : s.program.length ≤ s.pc.toNat / 4) :
    ∃ u, step s = .next u ∧ FaultEffect (.fetchOutOfProgram s.pc) 0 s u := by
  have hidx : s.lat.idx = 0 := hb
  refine ⟨s.raise (.fetchOutOfProgram s.pc), ?_, ?_⟩
  · simp [step_of_boundary hen hb, instrStep, State.fetchWord, hpc]
  · simp [FaultEffect, SameRegisters, SameMemory, SameParameters, State.reg, hidx]

/-- A step that completes ends at the pc it chooses, its parameters unchanged. -/
theorem step_endsAt {s t : State} (hen : Enabled s) (hb : AtBoundary s) (h : step s = .next t)
    (hflt : t.fault = none) : EndsAt t.pc s t ∧ SameParameters s t := by
  rw [step_of_boundary hen hb] at h
  unfold instrStep at h
  cases hw : s.fetchWord with
  | error f => rw [hw] at h; cases h; cases hflt
  | ok w =>
    simp only [hw] at h
    cases hdec : decode w with
    | none => rw [hdec] at h; cases h; cases hflt
    | some i =>
      simp only [hdec] at h
      obtain ⟨u, hu, hend | ⟨kind, idx, hrec, -⟩⟩ := exec_endsAt_or_faults i (s.fetched w).record
      · cases h.symm.trans hu; exact hend
      · cases h.symm.trans hu; cases hrec.symm.trans hflt

/-- Settles O48, by how a step ends and by what the next Fetch finds past the program. -/
theorem finishedExactlyPastTheEnd : Obligations.FinishedExactlyPastTheEnd := by
  intro s t hen hb h hflt
  have ⟨hsfin, _⟩ := hen
  obtain ⟨⟨-, hidx, -, hfin⟩, hprog, -⟩ := step_endsAt hen hb h hflt
  have hiff : t.finished = true ↔ t.pc.toNat = 4 * s.program.length := by simp [hfin, hsfin]
  refine ⟨hiff, fun hne hge => step_of_fetch_out ⟨?_, hflt⟩ hidx ?_⟩
  · exact Bool.eq_false_iff.2 (mt hiff.1 hne)
  · rw [hprog]; omega

/-! ### The micro-steps of an instruction (41_control_and_sequencer.md R165) -/

/-- The index a completed micro-step leaves: the next micro-step's, 0 after the last. -/
def MicroKind.nextIdx : MicroKind → Nat
  | .fetch => 1
  | .decode => 2
  | .control => 3
  | .execute => 4
  | .memory => 5
  | .writeBack => 0
  | .branch => 0

/-- In every format's list the index moves on by one, and to 0 from the last place. -/
theorem nextIdx_of_microList {f : Format} {j : Nat} {k : MicroKind} (h : (microList f)[j]? = some k) :
    k.nextIdx = if j + 1 = (microList f).length then 0 else j + 1 := by
  have hall : ∀ p ∈ (microList f).zipIdx,
      p.1.nextIdx = if p.2 + 1 = (microList f).length then 0 else p.2 + 1 := by
    cases f <;> decide
  exact hall (k, j) (List.mk_mem_zipIdx_iff_getElem?.2 h)

/-- Except in the last place, the index moves on by one. -/
theorem succ_eq_nextIdx {f : Format} {j : Nat} {k : MicroKind} (h : (microList f)[j]? = some k)
    (hk : k.nextIdx ≠ 0) : j + 1 = k.nextIdx := by
  have hnext := nextIdx_of_microList h
  split_ifs at hnext
  · exact absurd hnext hk
  · exact hnext.symm

/-- Every list begins with Fetch and Decode. -/
theorem two_le_of_microList {f : Format} {j : Nat} {k : MicroKind} (h : (microList f)[j]? = some k)
    (hf : k ≠ .fetch) (hd : k ≠ .decode) : 2 ≤ j := by
  match j with
  | 0 => cases f <;> exact absurd (Option.some.inj h).symm hf
  | 1 => cases f <;> exact absurd (Option.some.inj h).symm hd
  | j + 2 => omega

@[simp] theorem operandLatches_idx (s : State) (row : Row) : (operandLatches s row).idx = 2 := by
  unfold operandLatches
  cases row.format <;> rfl

@[simp] theorem operandLatches_row (s : State) (row : Row) : (operandLatches s row).row = some row := by
  unfold operandLatches
  cases row.format <;> rfl

/-- Only the D format has a Memory-Access. -/
theorem format_of_memory_mem {f : Format} (h : MicroKind.memory ∈ microList f) : f = .d := by
  cases f <;> simp [microList] at h ⊢

/-- A D row of the default table is a load or a store, and not both. -/
theorem memRead_eq_not_memWrite {i : Instr} (h : i.row.format = .d) :
    i.row.sig.memRead = !i.row.sig.memWrite := by
  cases i with
  | ldur rt rn off9 | stur rt rn off9 => rfl
  | _ => cases h

/-- The machine is enabled at or inside the instruction `i`: its word is next at Fetch, is latched at Decode, and
its row is latched from Control-Signal on. -/
structure Within (i : Instr) (s : State) : Prop where
  finished : s.finished = false
  fault : s.fault = none
  fetches : s.lat.idx = 0 →
    ∃ w, s.program[s.pc.toNat / 4]? = some w ∧ Table.select idtDefault w = some i.row
  selects : s.lat.idx = 1 → Table.select idtDefault s.lat.word = some i.row
  latched : 2 ≤ s.lat.idx → s.lat.row = some i.row

section Within
variable {i : Instr} {s u : State}

/-- From Control-Signal on, to be within the instruction is to have its row latched. -/
theorem Within.of_latched (hfin : u.finished = false) (hflt : u.fault = none) (hidx : 2 ≤ u.lat.idx)
    (hrow : u.lat.row = some i.row) : Within i u :=
  ⟨hfin, hflt, fun h => by omega, fun h => by omega, fun _ => hrow⟩

/-- Within an instruction the index names the micro-step that its format's list has in that place. -/
theorem Within.currentKind_eq (h : Within i s) {k : MicroKind}
    (hk : (microList i.row.format)[s.lat.idx]? = some k) : currentKind s.lat = some k := by
  match hidx : s.lat.idx with
  | 0 => rw [hidx] at hk; rw [← hk]; cases i.row.format <;> simp [currentKind, hidx, microList]
  | 1 => rw [hidx] at hk; rw [← hk]; cases i.row.format <;> simp [currentKind, hidx, microList]
  | j + 2 => simp [currentKind, hidx, h.latched (by omega), ← hk]

/-- A Memory-Access that completes moves the index to 5 and leaves the row latched. -/
theorem Within.microStep_memory_idx (h : Within i s) (hr : Ready s .memory) (hrow : s.lat.row = some i.row)
    (hf : i.row.format = .d) (hstep : microStep idtDefault s = .next u) (hu : u.fault = none) :
    u.lat.idx = 5 ∧ Within i u := by
  have hsig := memRead_eq_not_memWrite hf
  cases hw : i.row.sig.memWrite with
  | false =>
    rw [microStep_load hr hrow (by rw [hsig, hw]; rfl) hw] at hstep
    cases hm : memRead s s.lat.res .b8 with
    | error f => rw [hm] at hstep; cases hstep; cases hu
    | ok v => rw [hm] at hstep; cases hstep; exact ⟨rfl, .of_latched h.finished h.fault (by simp) hrow⟩
  | true =>
    rw [microStep_store hr hrow (by rw [hsig, hw]; rfl) hw] at hstep
    rcases memWrite_cases s s.lat.res .b8 s.lat.data with ⟨-, hm⟩ | ⟨f, -, hm⟩
    · rw [hm] at hstep; cases hstep; exact ⟨rfl, .of_latched h.finished h.fault (by simp) hrow⟩
    · rw [hm] at hstep; cases hstep; cases hu

/-- A micro-step that completes leaves the index of its kind, and the machine within the instruction unless it was
the last. -/
theorem Within.microStep_idx (h : Within i s) {k : MicroKind}
    (hk : (microList i.row.format)[s.lat.idx]? = some k) (hstep : microStep idtDefault s = .next u)
    (hu : u.fault = none) : u.lat.idx = k.nextIdx ∧ (u.lat.idx ≠ 0 → Within i u) := by
  have hr : Ready s k := ⟨h.finished, h.fault, h.currentKind_eq hk⟩
  cases k with
  | fetch =>
    obtain ⟨w, hw, hsel⟩ := h.fetches (Nat.succ.inj (succ_eq_nextIdx hk (by decide)))
    cases (microStep_fetch hr w hw).symm.trans hstep
    exact ⟨rfl, fun _ => ⟨h.finished, h.fault, by simp, fun _ => hsel, by simp⟩⟩
  | decode =>
    have hsel := h.selects (Nat.succ.inj (succ_eq_nextIdx hk (by decide)))
    cases (microStep_decode hr hsel).symm.trans hstep
    exact ⟨operandLatches_idx s i.row, fun _ => .of_latched h.finished h.fault
      (operandLatches_idx s i.row).ge (operandLatches_row s i.row)⟩
  | control =>
    have hrow := h.latched (two_le_of_microList hk (by decide) (by decide))
    by_cases hf : i.row.format = .b
    · cases (microStep_control_branch hr hrow hf).symm.trans hstep
      exact ⟨rfl, fun _ => .of_latched h.finished h.fault (by simp) hrow⟩
    · cases (microStep_control hr hrow hf).symm.trans hstep
      exact ⟨rfl, fun _ => .of_latched h.finished h.fault (by simp) hrow⟩
  | execute =>
    have hrow := h.latched (two_le_of_microList hk (by decide) (by decide))
    rw [microStep_execute hr hrow] at hstep
    cases ha : aluTag s.lat.a s.lat.b i.row.sig.operation with
    | error f => rw [ha] at hstep; cases hstep; cases hu
    | ok r =>
      rw [ha] at hstep; cases hstep
      exact ⟨rfl, fun _ => .of_latched h.finished h.fault (by simp) hrow⟩
  | memory =>
    have hrow := h.latched (two_le_of_microList hk (by decide) (by decide))
    obtain ⟨hidx, hin⟩ :=
      h.microStep_memory_idx hr hrow (format_of_memory_mem (List.mem_of_getElem? hk)) hstep hu
    exact ⟨hidx, fun _ => hin⟩
  | writeBack =>
    have hrow := h.latched (two_le_of_microList hk (by decide) (by decide))
    cases (microStep_writeBack hr hrow).symm.trans hstep
    exact ⟨rfl, fun hne => absurd rfl hne⟩
  | branch =>
    have hrow := h.latched (two_le_of_microList hk (by decide) (by decide))
    cases (microStep_branch hr hrow).symm.trans hstep
    exact ⟨rfl, fun hne => absurd rfl hne⟩

/-- A run of a faulted machine stays where it is. -/
theorem runMicro_of_fault {t : Table} (n : Nat) (hs : s.fault ≠ none) : runMicro t n s = .next s := by
  cases n with
  | zero => rfl
  | succ n => simp [runMicro, Option.isSome_iff_ne_none.2 hs]

/-- A run of an enabled machine begins with one micro-step. -/
theorem runMicro_succ {t : Table} {n : Nat} (hs : Enabled s) (h : runMicro t (n + 1) s = .next u) :
    ∃ v, microStep t s = .next v ∧ runMicro t n v = .next u := by
  obtain ⟨hfin, hflt⟩ := hs
  simp only [runMicro, hfin, hflt, Option.isSome_none, Bool.or_self, Bool.false_eq_true, if_false] at h
  cases hv : microStep t s <;> simp only [hv, reduceCtorEq] at h
  exact ⟨_, rfl, h⟩

/-- A run of `k` micro-steps within an instruction, no longer than what is left of its list, moves the index on by
`k`, and to 0 where it has reached the end. -/
theorem Within.runMicro_idx {k : Nat} (h : Within i s) (hlt : s.lat.idx < (microList i.row.format).length)
    (hle : s.lat.idx + k ≤ (microList i.row.format).length) (hrun : runMicro idtDefault k s = .next u)
    (hu : u.fault = none) :
    u.lat.idx = if s.lat.idx + k = (microList i.row.format).length then 0 else s.lat.idx + k := by
  induction k generalizing s with
  | zero => cases hrun; exact (if_neg hlt.ne).symm
  | succ k ih =>
    obtain ⟨v, hv, hrun⟩ := runMicro_succ ⟨h.finished, h.fault⟩ hrun
    have hvf : v.fault = none := by
      by_contra hne
      rw [runMicro_of_fault k hne] at hrun
      cases hrun
      exact hne hu
    have hk := List.getElem?_eq_getElem hlt
    obtain ⟨hidx, hin⟩ := h.microStep_idx hk hv hvf
    rw [nextIdx_of_microList hk] at hidx
    by_cases hlast : s.lat.idx + 1 = (microList i.row.format).length
    · obtain rfl : k = 0 := by omega
      cases hrun
      exact hidx
    · rw [if_neg hlast] at hidx
      rw [ih (hin (by omega)) (by omega) (by omega) hrun, hidx, Nat.add_right_comm, Nat.add_assoc]

end Within

/-- At an enabled boundary whose word decodes the machine is within the instruction. -/
theorem within_of_boundary {s : State} {w : InstrWord} {i : Instr} (hen : Enabled s) (hb : AtBoundary s)
    (hw : s.program[s.pc.toNat / 4]? = some w) (hdec : decode w = some i) : Within i s := by
  obtain ⟨hfin, hflt⟩ := hen
  have hidx : s.lat.idx = 0 := hb
  exact ⟨hfin, hflt, fun _ => ⟨w, hw, select_default_eq_some_iff.2 ⟨i, hdec, rfl⟩⟩,
    fun e => by omega, fun e => by omega⟩

/-- Settles O45: the lists by the table of formats, the run by induction on its micro-steps. -/
theorem microStepsPerInstruction : Obligations.MicroStepsPerInstruction := by
  refine ⟨?_, rfl, rfl, rfl, rfl, fun s u w i k hen hb hw hdec hle hrun hu => ?_⟩
  · rintro f (rfl | rfl | rfl) <;> exact ⟨rfl, rfl⟩
  · have hidx : s.lat.idx = 0 := hb
    have hpos : 0 < (microList i.row.format).length := by cases i.row.format <;> decide
    have hrunIdx := (within_of_boundary hen hb hw hdec).runMicro_idx (k := k) (u := u)
    simp only [hidx, Nat.zero_add] at hrunIdx
    exact hrunIdx hpos hle hrun hu

end Sys2Proof.Machine

/-! PROOFS. The family 42_r_format.md: what the sixteen R-format instructions have in common (30_encoding.md R83, R93,
R111, 41_control_and_sequencer.md R179), then each group's results (R200 to R215). -/

namespace Sys2Proof.Machine

open Sys2Proof

/-! ### An instruction whose meaning is the register shape -/

section AluInstr
variable {i : Instr} {row : Row} {op : AluOp} {fw : Bool} {rd : Reg} {a b : Word} {s : State}

/-- It completes whenever its ALU operation does. -/
theorem completes_of_runAlu {r : AluResult} (hexec : exec i s = runAlu row op fw rd a b (instrText i) s)
    (halu : alu a b op = .ok r) :
    Completes i s (AluEffect rd r.value (if fw then r.flags else s.flags) s) := by
  rw [Completes, hexec]
  exact runAlu_completes row op fw rd a b (instrText i) s r halu

/-- It faults at Execute whenever its ALU operation does. -/
theorem faults_of_runAlu {f : Fault} (hexec : exec i s = runAlu row op fw rd a b (instrText i) s)
    (halu : alu a b op = .error f) : AnswersNext i s (FaultEffect f 3 s) := by
  rw [AnswersNext, hexec]
  exact runAlu_faults row op fw rd a b (instrText i) s f halu
end AluInstr

/-- A word of the R format decodes by the entry its opcode selects, whatever its other fields hold. -/
theorem decode_of_opcode {opcode : BitVec 11} {e : DecodeEntry}
    (hsel : selectKey Prod.fst decodeEntries (msbList opcode) = some e) (rm rn rd : Reg) (shamt : BitVec 6) :
    decode (opcode ++ rm ++ shamt ++ rn ++ rd) = some (e.2 (opcode ++ rm ++ shamt ++ rn ++ rd)) :=
  decode_of_key _ e (by rw [topBits_encodeR, hsel])

/-! ### R-format instructions with a register as second operand -/

/-- How the model says which instruction a constructor of three registers is: the row its opcode selects, the word
the encoder writes and the ALU operation of its meaning. The defaults prove each field by the model's definitions. -/
structure RegisterInstr (mk : Reg → Reg → Reg → Instr) (row : Row) (opcode : BitVec 11) (op : AluOp) : Prop where
  format : row.format = .r := by rfl
  noShift : isShiftTag row.sig.operation = false := by rfl
  selected : selectKey Prod.fst decodeEntries (msbList opcode) =
    some (row, fun w => mk (fieldRd w) (fieldRn w) (fieldRm w)) := by rfl
  row_eq : ∀ rd rn rm, (mk rd rn rm).row = row := by intros; rfl
  encode_eq : ∀ rd rn rm, encode (mk rd rn rm) = encodeR opcode rm 0 rn rd := by intros; rfl
  exec_eq : ∀ rd rn rm s, exec (mk rd rn rm) s =
    runAlu row op row.sig.flagWrite rd (s.reg rn) (s.reg rm) (textR row.mnemonic rd rn rm) s := by intros; rfl

namespace RegisterInstr

theorem add : RegisterInstr .add DefaultRow.add 0b10001011000 .add where
theorem sub : RegisterInstr .sub DefaultRow.sub 0b11001011000 .sub where
theorem adds : RegisterInstr .adds DefaultRow.adds 0b10101011000 .adds where
theorem subs : RegisterInstr .subs DefaultRow.subs 0b11101011000 .subs where
theorem and : RegisterInstr .and DefaultRow.and 0b10001010000 .and where
theorem orr : RegisterInstr .orr DefaultRow.orr 0b10101010000 .orr where
theorem eor : RegisterInstr .eor DefaultRow.eor 0b11001010000 .eor where
theorem ands : RegisterInstr .ands DefaultRow.ands 0b11101010000 .and where
theorem mul : RegisterInstr .mul DefaultRow.mul 0b10011011000 .mul where
theorem smulh : RegisterInstr .smulh DefaultRow.smulh 0b10011011010 .smulh where
theorem umulh : RegisterInstr .umulh DefaultRow.umulh 0b10011011110 .umulh where
theorem sdiv : RegisterInstr .sdiv DefaultRow.sdiv 0b10011010110 .sdiv where
theorem udiv : RegisterInstr .udiv DefaultRow.udiv 0b10011010111 .udiv where

variable {mk : Reg → Reg → Reg → Instr} {row : Row} {opcode : BitVec 11} {op : AluOp}
  {f : Word → Word → Word} {g : Word → Word → Flags}

/-- Its opcode selects it whatever shamt holds, and the encoder writes 0 there. -/
theorem encoded (h : RegisterInstr mk row opcode op) : EncodedRegister mk opcode := by
  intro rd rn rm shamt
  refine ⟨?_, h.encode_eq rd rn rm⟩
  simp only [decode_of_opcode h.selected, fieldRd_R, fieldRn_R, fieldRm_R]

/-- Its meaning is the register shape on its two registers, with its canonical text. -/
theorem exec_eq_runAlu (h : RegisterInstr mk row opcode op) (rd rn rm : Reg) (s : State) :
    exec (mk rd rn rm) s =
      runAlu row op row.sig.flagWrite rd (s.reg rn) (s.reg rm) (instrText (mk rd rn rm)) s := by
  rw [h.exec_eq, instrText, h.row_eq, h.encode_eq, encodeR, disassemble_R row h.format h.noShift]

/-- Without `flagWrite` it completes with the ALU's value and leaves the flags. -/
theorem result (h : RegisterInstr mk row opcode op) (hfw : row.sig.flagWrite = false)
    (halu : ∀ a b, ∃ flags, alu a b op = .ok { value := f a b, flags := flags }) : RegisterResult mk f := by
  intro rd rn rm s
  obtain ⟨flags, hr⟩ := halu (s.reg rn) (s.reg rm)
  simpa [hfw] using completes_of_runAlu (h.exec_eq_runAlu rd rn rm s) hr

/-- Under `flagWrite` it completes with the ALU's value and flags. -/
theorem resultFlags (h : RegisterInstr mk row opcode op) (hfw : row.sig.flagWrite = true)
    (halu : ∀ a b, alu a b op = .ok { value := f a b, flags := g a b }) : RegisterResultFlags mk f g := by
  intro rd rn rm s
  simpa [hfw] using completes_of_runAlu (h.exec_eq_runAlu rd rn rm s) (halu (s.reg rn) (s.reg rm))

end RegisterInstr

/-! ### Sums, differences and bitwise operations (42_r_format.md R200 to R207) -/

/-- Settles O24: ADD and SUB have the register shape, with the ALU's sum and difference. -/
theorem addSubRule : Obligations.AddSubRule :=
  ⟨RegisterInstr.add.encoded, RegisterInstr.add.result rfl fun _ _ => ⟨_, rfl⟩,
    RegisterInstr.sub.encoded, RegisterInstr.sub.result rfl fun _ _ => ⟨_, rfl⟩⟩

/-- Settles O25: ADDS and SUBS have the register shape, and the ALU's flags are those of the exact formulas. -/
theorem addsSubsRule : Obligations.AddsSubsRule := by
  refine ⟨RegisterInstr.adds.encoded, RegisterInstr.adds.resultFlags rfl fun a b => ?_,
    RegisterInstr.subs.encoded, RegisterInstr.subs.resultFlags rfl fun a b => ?_⟩
  · rw [alu, aluAdd, addFlags_eq_spec]
  · rw [alu, aluSub, subFlags_eq_spec]

/-- Settles O26: the four have the register shape; of them ANDS has `flagWrite`, its flags those of R136 and R137. -/
theorem logicalRule : Obligations.LogicalRule :=
  ⟨RegisterInstr.and.encoded, RegisterInstr.and.result rfl fun _ _ => ⟨_, rfl⟩,
    RegisterInstr.orr.encoded, RegisterInstr.orr.result rfl fun _ _ => ⟨_, rfl⟩,
    RegisterInstr.eor.encoded, RegisterInstr.eor.result rfl fun _ _ => ⟨_, rfl⟩,
    RegisterInstr.ands.encoded, RegisterInstr.ands.resultFlags rfl fun _ _ => rfl⟩

/-! ### Products and quotients (42_r_format.md R208 to R212) -/

/-- The low half of the product is the exact product modulo 2^64. -/
theorem mul_eq_ofNat (a b : Word) : a * b = BitVec.ofNat 64 (a.toNat * b.toNat) := by
  rw [BitVec.ofNat_mul, BitVec.ofNat_toNat, BitVec.ofNat_toNat, BitVec.setWidth_eq, BitVec.setWidth_eq]

/-- Settles O27: the three have the register shape, with the ALU's low and high halves. -/
theorem multiplyRule : Obligations.MultiplyRule := by
  refine ⟨RegisterInstr.mul.encoded, RegisterInstr.mul.result rfl fun a b => ⟨logicFlags (a * b), ?_⟩,
    RegisterInstr.smulh.encoded, RegisterInstr.smulh.result rfl fun _ _ => ⟨_, rfl⟩,
    RegisterInstr.umulh.encoded, RegisterInstr.umulh.result rfl fun _ _ => ⟨_, rfl⟩⟩
  rw [← mul_eq_ofNat, alu, aluLogic]

/-- Settles O28: both have the register shape, which completes or faults as the ALU does on the divisor. -/
theorem divideRule : Obligations.DivideRule := by
  refine ⟨RegisterInstr.sdiv.encoded, RegisterInstr.udiv.encoded, fun rd rn rm s => ?_⟩
  have hsdiv := RegisterInstr.sdiv.exec_eq_runAlu rd rn rm s
  have hudiv := RegisterInstr.udiv.exec_eq_runAlu rd rn rm s
  exact ⟨fun hb => ⟨completes_of_runAlu hsdiv (if_neg hb), completes_of_runAlu hudiv (if_neg hb)⟩,
    fun hb => ⟨faults_of_runAlu hsdiv (if_pos hb), faults_of_runAlu hudiv (if_pos hb)⟩⟩

/-! ### Shifts by shamt (42_r_format.md R213 to R215) -/

/-- How the model says which instruction a constructor with a shift amount is, in the fields of
`RegisterInstr`. -/
structure ShiftInstr (mk : Reg → Reg → BitVec 6 → Instr) (row : Row) (opcode : BitVec 11) (op : AluOp) : Prop where
  format : row.format = .r := by rfl
  shift : isShiftTag row.sig.operation = true := by rfl
  selected : selectKey Prod.fst decodeEntries (msbList opcode) =
    some (row, fun w => mk (fieldRd w) (fieldRn w) (fieldShamt w)) := by rfl
  row_eq : ∀ rd rn shamt, (mk rd rn shamt).row = row := by intros; rfl
  encode_eq : ∀ rd rn shamt, encode (mk rd rn shamt) = encodeR opcode 0 shamt rn rd := by intros; rfl
  exec_eq : ∀ rd rn shamt s, exec (mk rd rn shamt) s =
    runAlu row op false rd (s.reg rn) (shiftOperand shamt) (textShift row.mnemonic rd rn shamt) s := by intros; rfl

/-- The ALU shifts by shamt itself: six bits are never more than 63. -/
theorem shiftDistance_shiftOperand (shamt : BitVec 6) : shiftDistance (shiftOperand shamt) = shamt.toNat := by
  rw [shiftDistance, shiftOperand, BitVec.toNat_setWidth]
  omega

namespace ShiftInstr

theorem lsl : ShiftInstr .lsl DefaultRow.lsl 0b11010011011 .lsl where
theorem lsr : ShiftInstr .lsr DefaultRow.lsr 0b11010011010 .lsr where
theorem asr : ShiftInstr .asr DefaultRow.asr 0b11010011100 .asr where

variable {mk : Reg → Reg → BitVec 6 → Instr} {row : Row} {opcode : BitVec 11} {op : AluOp} {f : Word → Nat → Word}

/-- Its opcode selects it whatever the Rm field holds, and the encoder writes 0 there. -/
theorem encoded (h : ShiftInstr mk row opcode op) : EncodedShift mk opcode := by
  intro rd rn rm shamt
  refine ⟨?_, h.encode_eq rd rn shamt⟩
  simp only [decode_of_opcode h.selected, fieldRd_R, fieldRn_R, fieldShamt_R]

/-- Its meaning is the register shape on its register and its shift amount, with its canonical text. -/
theorem exec_eq_runAlu (h : ShiftInstr mk row opcode op) (rd rn : Reg) (shamt : BitVec 6) (s : State) :
    exec (mk rd rn shamt) s =
      runAlu row op false rd (s.reg rn) (shiftOperand shamt) (instrText (mk rd rn shamt)) s := by
  rw [h.exec_eq, instrText, h.row_eq, h.encode_eq, encodeR, disassemble_shift row h.format h.shift]

/-- It completes with the ALU's value for its distance and leaves the flags. -/
theorem result (h : ShiftInstr mk row opcode op)
    (halu : ∀ a b, alu a b op = .ok (aluLogic (f a (shiftDistance b)))) : ShiftResult mk f := by
  intro rd rn shamt s
  rw [← shiftDistance_shiftOperand]
  exact completes_of_runAlu (h.exec_eq_runAlu rd rn shamt s) (halu (s.reg rn) (shiftOperand shamt))

end ShiftInstr

/-- A left shift as a word. -/
theorem shiftLeft_eq_ofNat (a : Word) (d : Nat) : a <<< d = BitVec.ofNat 64 (a.toNat * 2 ^ d) := by
  apply BitVec.eq_of_toNat_eq
  rw [toNat_shiftLeft_eq_mul, BitVec.toNat_ofNat]

/-- A logical right shift as a word. -/
theorem ushiftRight_eq_ofNat (a : Word) (d : Nat) : a >>> d = BitVec.ofNat 64 (a.toNat / 2 ^ d) := by
  rw [← toNat_ushiftRight_eq_div, BitVec.ofNat_toNat, BitVec.setWidth_eq]

/-- An arithmetic right shift as a word. -/
theorem sshiftRight_eq_ofInt (a : Word) (d : Nat) : a.sshiftRight d = BitVec.ofInt 64 (a.toInt / 2 ^ d) := by
  rw [← toInt_sshiftRight_eq_div, BitVec.ofInt_toInt]

/-- Settles O29: the three have the register shape, and each shift by the distance is its integer operation. -/
theorem shiftRule : Obligations.ShiftRule := by
  refine ⟨ShiftInstr.lsl.encoded, ShiftInstr.lsl.result fun a b => ?_,
    ShiftInstr.lsr.encoded, ShiftInstr.lsr.result fun a b => ?_,
    ShiftInstr.asr.encoded, ShiftInstr.asr.result fun a b => ?_⟩
  · rw [alu, shiftLeft_eq_ofNat]
  · rw [alu, ushiftRight_eq_ofNat]
  · rw [alu, sshiftRight_eq_ofInt]

end Sys2Proof.Machine

/-! PROOFS. The family 43_i_format.md: what the eight I-format instructions have in common (30_encoding.md R84, R98,
R111, 41_control_and_sequencer.md R179), then each group's results (R230 to R237). -/

namespace Sys2Proof.Machine

open Sys2Proof

/-! ### I-format instructions: a register and a zero-extended immediate -/

/-- A word of the I format decodes by the entry its opcode selects, the top bit of its immediate, which the decoder
reads along with the opcode, being either. -/
theorem decode_of_opcode_I {opcode : BitVec 10} {e : DecodeEntry}
    (hsel : ∀ top, selectKey Prod.fst decodeEntries (msbList opcode ++ [top]) = some e)
    (imm12 : BitVec 12) (rn rd : Reg) :
    decode (opcode ++ imm12 ++ rn ++ rd) = some (e.2 (opcode ++ imm12 ++ rn ++ rd)) :=
  decode_of_key _ e (by rw [topBits_encodeI, hsel])

/-- How the model says which instruction a constructor with an immediate is, in the fields of `RegisterInstr`. -/
structure ImmediateInstr (mk : Reg → Reg → BitVec 12 → Instr) (row : Row) (opcode : BitVec 10) (op : AluOp) :
    Prop where
  format : row.format = .i := by rfl
  selected : ∀ top, selectKey Prod.fst decodeEntries (msbList opcode ++ [top]) =
    some (row, fun w => mk (fieldRd w) (fieldRn w) (fieldImm12 w)) := by rintro (_ | _) <;> rfl
  row_eq : ∀ rd rn imm12, (mk rd rn imm12).row = row := by intros; rfl
  encode_eq : ∀ rd rn imm12, encode (mk rd rn imm12) = encodeI opcode imm12 rn rd := by intros; rfl
  exec_eq : ∀ rd rn imm12 s, exec (mk rd rn imm12) s =
    runAlu row op row.sig.flagWrite rd (s.reg rn) (immOperand imm12) (textI row.mnemonic rd rn imm12) s := by
      intros; rfl

namespace ImmediateInstr

theorem addi : ImmediateInstr .addi DefaultRow.addi 0b1001000100 .add where
theorem subi : ImmediateInstr .subi DefaultRow.subi 0b1101000100 .sub where
theorem addis : ImmediateInstr .addis DefaultRow.addis 0b1011000100 .adds where
theorem subis : ImmediateInstr .subis DefaultRow.subis 0b1111000100 .subs where
theorem andi : ImmediateInstr .andi DefaultRow.andi 0b1001001000 .and where
theorem orri : ImmediateInstr .orri DefaultRow.orri 0b1011001000 .orr where
theorem eori : ImmediateInstr .eori DefaultRow.eori 0b1101001000 .eor where
theorem andis : ImmediateInstr .andis DefaultRow.andis 0b1111001000 .and where

variable {mk : Reg → Reg → BitVec 12 → Instr} {row : Row} {opcode : BitVec 10} {op : AluOp}
  {f : Word → Word → Word} {g : Word → Word → Flags}

/-- Its opcode selects it, and the encoder writes the same word. -/
theorem encoded (h : ImmediateInstr mk row opcode op) : EncodedImmediate mk opcode := by
  intro rd rn imm12
  refine ⟨?_, h.encode_eq rd rn imm12⟩
  simp only [decode_of_opcode_I h.selected, fieldRd_I, fieldRn_I, fieldImm12_I]

/-- Its meaning is the register shape on its register and its immediate's number, with its canonical text. -/
theorem exec_eq_runAlu (h : ImmediateInstr mk row opcode op) (rd rn : Reg) (imm12 : BitVec 12) (s : State) :
    exec (mk rd rn imm12) s = runAlu row op row.sig.flagWrite rd (s.reg rn) (BitVec.ofNat 64 imm12.toNat)
      (instrText (mk rd rn imm12)) s := by
  rw [h.exec_eq, immOperand_eq, instrText, h.row_eq, h.encode_eq, encodeI, disassemble_I row h.format]

/-- Without `flagWrite` it completes with the ALU's value and leaves the flags. -/
theorem result (h : ImmediateInstr mk row opcode op) (hfw : row.sig.flagWrite = false)
    (halu : ∀ a b, ∃ flags, alu a b op = .ok { value := f a b, flags := flags }) : ImmediateResult mk f := by
  intro rd rn imm12 s
  obtain ⟨flags, hr⟩ := halu (s.reg rn) (BitVec.ofNat 64 imm12.toNat)
  simpa [hfw] using completes_of_runAlu (h.exec_eq_runAlu rd rn imm12 s) hr

/-- Under `flagWrite` it completes with the value and flags the ALU gives for an immediate operand. -/
theorem resultFlags (h : ImmediateInstr mk row opcode op) (hfw : row.sig.flagWrite = true)
    (halu : ∀ a (imm12 : BitVec 12), alu a (BitVec.ofNat 64 imm12.toNat) op =
      .ok { value := f a (BitVec.ofNat 64 imm12.toNat), flags := g a (BitVec.ofNat 64 imm12.toNat) }) :
    ImmediateResultFlags mk f g := by
  intro rd rn imm12 s
  simpa [hfw] using completes_of_runAlu (h.exec_eq_runAlu rd rn imm12 s) (halu (s.reg rn) imm12)

end ImmediateInstr

/-! ### Sums and differences (43_i_format.md R230 to R233) -/

/-- Settles O30: the four have the immediate shape, and the ALU's flags are those of the exact formulas. -/
theorem immediateArithmeticRule : Obligations.ImmediateArithmeticRule := by
  refine ⟨ImmediateInstr.addi.encoded, ImmediateInstr.addi.result rfl fun _ _ => ⟨_, rfl⟩,
    ImmediateInstr.subi.encoded, ImmediateInstr.subi.result rfl fun _ _ => ⟨_, rfl⟩,
    ImmediateInstr.addis.encoded, ImmediateInstr.addis.resultFlags rfl fun a imm12 => ?_,
    ImmediateInstr.subis.encoded, ImmediateInstr.subis.resultFlags rfl fun a imm12 => ?_⟩
  · rw [alu, aluAdd, addFlags_eq_spec]
  · rw [alu, aluSub, subFlags_eq_spec]

/-! ### Bitwise operations (43_i_format.md R234 to R237) -/

/-- Twelve bits never reach the sign, so a conjunction with an immediate is not negative (R237). -/
theorem msb_and_immediate (a : Word) (imm12 : BitVec 12) : (a &&& BitVec.ofNat 64 imm12.toNat).msb = false := by
  have himm : (BitVec.ofNat 64 imm12.toNat).msb = false := by
    rw [BitVec.msb_eq_false_iff_two_mul_lt, BitVec.toNat_ofNat]
    omega
  rw [BitVec.msb_and, himm, Bool.and_false]

/-- Settles O31: the four have the immediate shape; of them ANDIS has `flagWrite`, its `N` the sign of a conjunction
with an immediate. -/
theorem immediateLogicRule : Obligations.ImmediateLogicRule := by
  refine ⟨ImmediateInstr.andi.encoded, ImmediateInstr.andi.result rfl fun _ _ => ⟨_, rfl⟩,
    ImmediateInstr.orri.encoded, ImmediateInstr.orri.result rfl fun _ _ => ⟨_, rfl⟩,
    ImmediateInstr.eori.encoded, ImmediateInstr.eori.result rfl fun _ _ => ⟨_, rfl⟩,
    ImmediateInstr.andis.encoded, ImmediateInstr.andis.resultFlags rfl fun a imm12 => ?_⟩
  rw [alu, aluLogic, logicFlags, flagN, msb_and_immediate]
  rfl

end Sys2Proof.Machine

/-! PROOFS. The family 44_im_format.md: MOVZ (30_encoding.md R87, R101, R111, 41_control_and_sequencer.md R179,
44_im_format.md R250). -/

namespace Sys2Proof.Machine

open Sys2Proof

/-- The opcode of MOVZ selects its entry whatever the shift group, whose two bits the decoder reads along with it. -/
theorem selectKey_movz (hw : BitVec 2) :
    selectKey Prod.fst decodeEntries (msbList 0b110100101#9 ++ [hw.getMsbD 0, hw.getMsbD 1]) =
      some (DefaultRow.movz, fun w => .movz (fieldRd w) (fieldImm16 w) (fieldHw w)) := by
  cases hw.getMsbD 0 <;> cases hw.getMsbD 1 <;> rfl

/-- A word of the IM format with the opcode of MOVZ decodes to MOVZ of its three fields. -/
theorem decode_movz (rd : Reg) (imm16 : BitVec 16) (hw : BitVec 2) :
    decode (0b110100101#9 ++ hw ++ imm16 ++ rd) = some (.movz rd imm16 hw) := by
  rw [decode_of_key _ _ (by rw [topBits_encodeIM, selectKey_movz])]
  simp only [fieldRd_IM, fieldImm16_IM, fieldHw_IM]

/-- Its meaning is the register shape with no register read: the placed immediate through PASS, with its canonical
text. -/
theorem exec_movz_eq_runAlu (rd : Reg) (imm16 : BitVec 16) (hw : BitVec 2) (s : State) :
    exec (.movz rd imm16 hw) s =
      runAlu DefaultRow.movz .pass false rd 0 (movOperand imm16 hw) (instrText (.movz rd imm16 hw)) s := by
  have htext : instrText (.movz rd imm16 hw) = textIM "MOVZ".toList rd imm16 hw :=
    disassemble_IM DefaultRow.movz rfl 0x1A5 hw imm16 rd
  rw [htext]
  rfl

/-- The placed immediate is the immediate times `2 ^ (16 hw)` (R101, R250). -/
theorem movOperand_eq_ofNat (imm16 : BitVec 16) (hw : BitVec 2) :
    movOperand imm16 hw = BitVec.ofNat 64 (imm16.toNat * 2 ^ (16 * hw.toNat)) := by
  rw [movOperand, shiftLeft_eq_ofNat, BitVec.toNat_setWidth_of_le (by decide)]

/-- Settles O32: MOVZ has the register shape on its placed immediate, which PASS answers as it is. -/
theorem movzRule : Obligations.MovzRule := by
  intro rd imm16 hw s
  refine ⟨decode_movz rd imm16 hw, rfl, ?_⟩
  rw [← movOperand_eq_ofNat]
  exact completes_of_runAlu (exec_movz_eq_runAlu rd imm16 hw s) rfl

end Sys2Proof.Machine

/-! PROOFS. The family 45_d_format.md: what the load and the store have in common (30_encoding.md R85, R93, R99, R111,
20_memory.md R53 to R55, 41_control_and_sequencer.md R179), then LDUR (R260) and STUR (R261). -/

namespace Sys2Proof.Machine

open Sys2Proof

/-! ### The address and the three answers of its check -/

/-- The effective address is the base plus the signed offset, modulo 2^64 (30_encoding.md R99). -/
theorem effectiveAddress_eq (s : State) (rn : Reg) (off9 : BitVec 9) :
    effectiveAddress s rn off9 = s.reg rn + BitVec.ofInt 64 off9.toInt := rfl

section Check
variable {capacity : Nat} {addr : Word}

/-- A doubleword inside the memory at an aligned address passes. -/
theorem checkAccess_passes (h : 0 ≤ addr.toInt ∧ addr.toInt + 8 ≤ capacity ∧ addr.toNat % 8 = 0) :
    checkAccess capacity addr 8 = .ok () := by
  obtain ⟨hlow, hhigh, halign⟩ := h
  exact (accessCheckIsBoundsThenAlignment capacity addr .b8).trans ((if_pos ⟨hlow, hhigh⟩).trans (if_pos halign))

/-- A doubleword not inside the memory is out of bounds, whatever its alignment. -/
theorem checkAccess_outOfBounds (h : ¬ (0 ≤ addr.toInt ∧ addr.toInt + 8 ≤ capacity)) :
    checkAccess capacity addr 8 = .error (.memoryOutOfBounds addr 8) :=
  (accessCheckIsBoundsThenAlignment capacity addr .b8).trans (if_neg h)

/-- A doubleword inside the memory at an address not aligned is misaligned. -/
theorem checkAccess_misaligned (h : 0 ≤ addr.toInt ∧ addr.toInt + 8 ≤ capacity ∧ addr.toNat % 8 ≠ 0) :
    checkAccess capacity addr 8 = .error (.memoryMisaligned addr 8) := by
  obtain ⟨hlow, hhigh, halign⟩ := h
  exact (accessCheckIsBoundsThenAlignment capacity addr .b8).trans ((if_pos ⟨hlow, hhigh⟩).trans (if_neg halign))
end Check

/-! ### D-format instructions: a register, a base register and a signed offset -/

/-- A word of the D format decodes by the entry its opcode selects, whatever its other fields hold. -/
theorem decode_of_opcode_D {opcode : BitVec 11} {e : DecodeEntry}
    (hsel : selectKey Prod.fst decodeEntries (msbList opcode) = some e) (off9 : BitVec 9) (op2 : BitVec 2)
    (rn rt : Reg) :
    decode (opcode ++ off9 ++ op2 ++ rn ++ rt) = some (e.2 (opcode ++ off9 ++ op2 ++ rn ++ rt)) :=
  decode_of_key _ e (by rw [topBits_encodeD, hsel])

/-- How the model says which instruction a constructor with an offset is, in the fields of `RegisterInstr`, its meaning
being one of the two memory shapes; and that this shape faults whenever its access fails the check. -/
structure DataInstr (mk : Reg → Reg → BitVec 9 → Instr) (row : Row) (opcode : BitVec 11)
    (run : Row → Reg → Reg → BitVec 9 → Text → State → Host.Outcome State Fault Refusal) : Prop where
  format : row.format = .d := by rfl
  selected : selectKey Prod.fst decodeEntries (msbList opcode) =
    some (row, fun w => mk (fieldRd w) (fieldRn w) (fieldOff9 w)) := by rfl
  row_eq : ∀ rt rn off9, (mk rt rn off9).row = row := by intros; rfl
  encode_eq : ∀ rt rn off9, encode (mk rt rn off9) = encodeD opcode off9 rn rt := by intros; rfl
  exec_eq : ∀ rt rn off9 s, exec (mk rt rn off9) s =
    run row rt rn off9 (textD row.mnemonic rt rn off9) s := by intros; rfl
  faults : ∀ rt rn off9 text s f, checkAccess s.memCapacity (effectiveAddress s rn off9) 8 = .error f →
    ∃ t, run row rt rn off9 text s = .next t ∧ FaultEffect f 4 s t

namespace DataInstr

theorem ldur : DataInstr .ldur DefaultRow.ldur 0b11111000010 runLoad where
  faults := runLoad_faults DefaultRow.ldur

theorem stur : DataInstr .stur DefaultRow.stur 0b11111000000 runStore where
  faults := runStore_faults DefaultRow.stur

variable {mk : Reg → Reg → BitVec 9 → Instr} {row : Row} {opcode : BitVec 11}
  {run : Row → Reg → Reg → BitVec 9 → Text → State → Host.Outcome State Fault Refusal}

/-- Its opcode selects it whatever op2 holds, and the encoder writes 0 there. -/
theorem encoded (h : DataInstr mk row opcode run) : EncodedData mk opcode := by
  intro rt rn off9 op2
  refine ⟨?_, h.encode_eq rt rn off9⟩
  simp only [decode_of_opcode_D h.selected, fieldRd_D, fieldRn_D, fieldOff9_D]

/-- Its meaning is its shape on its registers and its offset, with its canonical text. -/
theorem exec_eq_run (h : DataInstr mk row opcode run) (rt rn : Reg) (off9 : BitVec 9) (s : State) :
    exec (mk rt rn off9) s = run row rt rn off9 (instrText (mk rt rn off9)) s := by
  rw [h.exec_eq, instrText, h.row_eq, h.encode_eq, encodeD, disassemble_D row h.format]

/-- It faults at Memory-Access with what the check of its address raises. -/
theorem answersFault (h : DataInstr mk row opcode run) (rt : Reg) {rn : Reg} {off9 : BitVec 9} {s : State} {f : Fault}
    (hcheck : checkAccess s.memCapacity (effectiveAddress s rn off9) 8 = .error f) :
    AnswersNext (mk rt rn off9) s (FaultEffect f 4 s) := by
  rw [AnswersNext, h.exec_eq_run]
  exact h.faults rt rn off9 _ s f hcheck

end DataInstr

/-! ### The load (45_d_format.md R260) -/

/-- A load whose access passes the check completes with the doubleword at its address, in any destination. -/
theorem ldur_completes (rt : Reg) {rn : Reg} {off9 : BitVec 9} {s : State}
    (hcheck : checkAccess s.memCapacity (effectiveAddress s rn off9) 8 = .ok ()) :
    Completes (.ldur rt rn off9) s
      (AluEffect rt (readBytes s.mem (effectiveAddress s rn off9).toNat 8) s.flags s) := by
  rw [Completes, DataInstr.ldur.exec_eq_run]
  exact runLoad_completes DefaultRow.ldur rt rn off9 _ s hcheck

/-- Settles O33: by the answer of the check on the address, a load completes with `readBytes`, whose bytes its lemma
gives, or faults. -/
theorem ldurRule : Obligations.LdurRule := by
  refine ⟨DataInstr.ldur.encoded, fun rt rn off9 s addr haddr => ?_⟩
  rw [← effectiveAddress_eq] at haddr
  subst haddr
  exact ⟨fun h =>
      ⟨_, fun k hk => extract_readBytes s.mem _ 8 k le_rfl hk, ldur_completes rt (checkAccess_passes h)⟩,
    fun h => DataInstr.ldur.answersFault rt (checkAccess_outOfBounds h),
    fun h => DataInstr.ldur.answersFault rt (checkAccess_misaligned h)⟩

/-! ### The store (45_d_format.md R261) -/

/-- A store whose access passes the check completes, `writeBytes` of `x[Rt]` at its address being its whole effect. -/
theorem stur_completes (rt : Reg) {rn : Reg} {off9 : BitVec 9} {s : State}
    (hcheck : checkAccess s.memCapacity (effectiveAddress s rn off9) 8 = .ok ()) :
    Completes (.stur rt rn off9) s fun t =>
      t.mem = writeBytes s.mem (effectiveAddress s rn off9).toNat (s.reg rt) 8 ∧
      EndsAt (s.pc + 4) s t ∧ SameRegisters s t ∧ t.flags = s.flags ∧ SameParameters s t := by
  rw [Completes, DataInstr.stur.exec_eq_run]
  exact runStore_completes DefaultRow.stur rt rn off9 _ s hcheck

/-- Settles O34: by the answer of the check on the address, a store completes with `writeBytes`, whose bytes and whose
canonical form its lemmas give, or faults. -/
theorem sturRule : Obligations.SturRule := by
  refine ⟨DataInstr.stur.encoded, fun rt rn off9 s addr haddr hwf => ?_⟩
  rw [← effectiveAddress_eq] at haddr
  subst haddr
  refine ⟨fun h => ?_, fun h => DataInstr.stur.answersFault rt (checkAccess_outOfBounds h),
    fun h => DataInstr.stur.answersFault rt (checkAccess_misaligned h)⟩
  obtain ⟨t, hexec, hlast, hmem, hrest⟩ := stur_completes rt (checkAccess_passes h)
  refine ⟨t, hexec, hlast, fun x => ?_, ?_, hrest⟩
  · rw [hmem, (getByte_writeBytes s.mem _ _ 8 x hwf).2]
  · rw [hmem, wf_writeBytes s.mem _ _ 8 hwf]

end Sys2Proof.Machine

/-! PROOFS. The family 46_b_format.md: what the seven branches have in common (30_encoding.md R86, R100, R111,
41_control_and_sequencer.md R168, R179), the conditions of their rows (R280 to R286), and what the flags of a compare
tell them. -/

namespace Sys2Proof.Machine

open Sys2Proof

/-! ### B-format instructions: a signed offset in instructions and a condition on the flags -/

/-- A word of the B format decodes by the entry its opcode selects, the top five bits of its offset, which the decoder
reads along with the opcode, being any. -/
theorem decode_of_opcode_B {opcode : BitVec 6} {e : DecodeEntry}
    (hsel : ∀ b0 b1 b2 b3 b4, selectKey Prod.fst decodeEntries (msbList opcode ++ [b0, b1, b2, b3, b4]) = some e)
    (off26 : BitVec 26) : decode (opcode ++ off26) = some (e.2 (opcode ++ off26)) :=
  decode_of_key _ e (by rw [topBits_encodeB, hsel])

/-- How the model says which instruction a constructor with a branch offset is, in the fields of `RegisterInstr`, its
meaning being the branch shape on the condition of its row (41_control_and_sequencer.md R168). -/
structure BranchInstr (mk : BitVec 26 → Instr) (row : Row) (opcode : BitVec 6) : Prop where
  format : row.format = .b := by rfl
  selected : ∀ b0 b1 b2 b3 b4, selectKey Prod.fst decodeEntries (msbList opcode ++ [b0, b1, b2, b3, b4]) =
    some (row, fun w => mk (fieldOff26 w)) := by intros; rfl
  row_eq : ∀ off26, (mk off26).row = row := by intros; rfl
  encode_eq : ∀ off26, encode (mk off26) = encodeB opcode off26 := by intros; rfl
  exec_eq : ∀ off26 s, exec (mk off26) s =
    runBranch row off26 (rowTaken row s.flags) (textB row.mnemonic off26) s := by intros; rfl

namespace BranchInstr

theorem b : BranchInstr .b DefaultRow.b 0b000101 where
theorem bEq : BranchInstr .bEq DefaultRow.bEq 0b010000 where
theorem bNe : BranchInstr .bNe DefaultRow.bNe 0b010001 where
theorem bGe : BranchInstr .bGe DefaultRow.bGe 0b011010 where
theorem bLt : BranchInstr .bLt DefaultRow.bLt 0b011011 where
theorem bGt : BranchInstr .bGt DefaultRow.bGt 0b011100 where
theorem bLe : BranchInstr .bLe DefaultRow.bLe 0b011101 where

variable {mk : BitVec 26 → Instr} {row : Row} {opcode : BitVec 6} {cond : Flags → Bool}

/-- Its opcode selects it, and the encoder writes the same word. -/
theorem encoded (h : BranchInstr mk row opcode) : EncodedBranch mk opcode := by
  intro off26
  refine ⟨?_, h.encode_eq off26⟩
  simp only [decode_of_opcode_B h.selected, fieldOff26_B]

/-- Its meaning is the branch shape on its offset, with its canonical text. -/
theorem exec_eq_runBranch (h : BranchInstr mk row opcode) (off26 : BitVec 26) (s : State) :
    exec (mk off26) s = runBranch row off26 (rowTaken row s.flags) (instrText (mk off26)) s := by
  rw [h.exec_eq, instrText, h.row_eq, h.encode_eq, encodeB, disassemble_B row h.format]

/-- It completes in every state, at its target when the condition of its row holds. -/
theorem result (h : BranchInstr mk row opcode) (hcond : ∀ f, rowTaken row f = cond f) : BranchResult mk cond := by
  intro off26 s
  rw [Completes, h.exec_eq_runBranch, hcond, ← branchTarget_eq]
  exact runBranch_completes row off26 (cond s.flags) (instrText (mk off26)) s

end BranchInstr

/-! ### The conditions of the rows (46_b_format.md R280 to R286) -/

theorem branchResult_b : BranchResult .b (fun _ => true) := BranchInstr.b.result fun _ => rfl

theorem branchResult_bEq : BranchResult .bEq (fun f => decide (f.z = true)) :=
  BranchInstr.bEq.result fun f => show f.z = _ by simp

theorem branchResult_bNe : BranchResult .bNe (fun f => decide (f.z = false)) :=
  BranchInstr.bNe.result fun f => show (!f.z) = _ by simp

theorem branchResult_bLt : BranchResult .bLt (fun f => decide (f.n ≠ f.v)) :=
  BranchInstr.bLt.result fun f => show (f.n != f.v) = _ by simp [bne, Bool.beq_eq_decide_eq]

theorem branchResult_bGt : BranchResult .bGt (fun f => decide (f.z = false ∧ f.n = f.v)) :=
  BranchInstr.bGt.result fun f => show (!f.z && (f.n == f.v)) = _ by simp [Bool.beq_eq_decide_eq]

theorem branchResult_bLe : BranchResult .bLe (fun f => decide (f.z = true ∨ f.n ≠ f.v)) :=
  BranchInstr.bLe.result fun f => show (f.z || (f.n != f.v)) = _ by simp [bne, Bool.beq_eq_decide_eq]

theorem branchResult_bGe : BranchResult .bGe (fun f => decide (f.n = f.v)) :=
  BranchInstr.bGe.result fun f => show (f.n == f.v) = _ by simp [Bool.beq_eq_decide_eq]

/-- Control-Signal of a branch row latches the row's condition on the flags as they are then (R281). -/
theorem microStep_control_taken {t : Table} {s u : State} {row : Row} (hen : Enabled s)
    (hk : currentKind s.lat = some .control) (hrow : s.lat.row = some row) (hf : row.format = .b)
    (h : microStep t s = .next u) : u.lat.taken = rowTaken row s.flags := by
  obtain ⟨hfin, hflt⟩ := hen
  cases (microStep_control_branch ⟨hfin, hflt, hk⟩ hrow hf).symm.trans h
  rfl

/-! ### What the flags of a subtraction tell (40_alu.md section 2, R122) -/

section Compare
variable (a b : Word)

theorem subFlagsSpec_equal : (subFlagsSpec a b).z = true ↔ a = b :=
  decide_eq_true_iff.trans sub_eq_zero

/-- The sign of the difference is that of the exact one unless the subtraction overflowed. -/
theorem subFlagsSpec_less : (subFlagsSpec a b).n ≠ (subFlagsSpec a b).v ↔ a.toInt < b.toInt := by
  have ha := a.isLt
  have hb := b.isLt
  simp only [subFlagsSpec, BitVec.msb_eq_decide, BitVec.toInt_eq_toNat_cond, BitVec.toNat_sub, ne_eq,
    decide_eq_decide]
  split_ifs <;> omega

theorem subFlagsSpec_greaterEqual : (subFlagsSpec a b).n = (subFlagsSpec a b).v ↔ b.toInt ≤ a.toInt := by
  rw [← not_lt, ← subFlagsSpec_less, not_not]

theorem subFlagsSpec_greater :
    (subFlagsSpec a b).z = false ∧ (subFlagsSpec a b).n = (subFlagsSpec a b).v ↔ b.toInt < a.toInt := by
  rw [← Bool.not_eq_true, subFlagsSpec_equal, subFlagsSpec_greaterEqual, ← BitVec.toInt_inj]
  omega

theorem subFlagsSpec_lessEqual :
    (subFlagsSpec a b).z = true ∨ (subFlagsSpec a b).n ≠ (subFlagsSpec a b).v ↔ a.toInt ≤ b.toInt := by
  rw [subFlagsSpec_equal, subFlagsSpec_less, ← BitVec.toInt_inj]
  omega

end Compare

/-- After `SUBS XZR, Xa, Xb` the flags are those of the difference. -/
theorem flags_after_subs {rd rn rm : Reg} {s t : State} (h : exec (.subs rd rn rm) s = .next t) :
    t.flags = subFlagsSpec (s.reg rn) (s.reg rm) := by
  obtain ⟨-, -, -, hsubs⟩ := addsSubsRule
  obtain ⟨u, hu, -, -, hflags, -⟩ := hsubs rd rn rm s
  cases hu.symm.trans h
  exact hflags

/-- A branch is taken exactly on a proposition that its condition decides. -/
theorem BranchResult.branchesOn {mk : BitVec 26 → Instr} {cond : Flags → Bool} (h : BranchResult mk cond)
    (off26 : BitVec 26) {t : State} {p : Prop} (hp : cond t.flags = true ↔ p) : BranchesOn (mk off26) off26 t p := by
  obtain ⟨u, hexec, -, ⟨hpc, -⟩, -⟩ := h off26 t
  exact ⟨u, hexec, fun hpos => hpc.trans (if_pos (hp.2 hpos)), fun hneg => hpc.trans (if_neg (mt hp.1 hneg))⟩

/-- Settles O36: the seven have the branch shape on the conditions of their rows; Control-Signal evaluates these on the
flags of the moment, and on the flags of a compare they are the relations of its operands. -/
theorem branchRule : Obligations.BranchRule := by
  refine ⟨⟨BranchInstr.b.encoded, branchResult_b, BranchInstr.bEq.encoded, branchResult_bEq,
    BranchInstr.bNe.encoded, branchResult_bNe, BranchInstr.bLt.encoded, branchResult_bLt,
    BranchInstr.bGt.encoded, branchResult_bGt, BranchInstr.bLe.encoded, branchResult_bLe,
    BranchInstr.bGe.encoded, branchResult_bGe⟩, fun _ _ _ _ => microStep_control_taken,
    fun rn rm off26 s t h => ?_⟩
  have hflags := flags_after_subs h
  refine ⟨branchResult_bEq.branchesOn off26 ?_, branchResult_bNe.branchesOn off26 ?_,
    branchResult_bLt.branchesOn off26 ?_, branchResult_bGt.branchesOn off26 ?_,
    branchResult_bLe.branchesOn off26 ?_, branchResult_bGe.branchesOn off26 ?_⟩ <;>
    rw [hflags, decide_eq_true_iff]
  · exact subFlagsSpec_equal _ _
  · rw [← Bool.not_eq_true, subFlagsSpec_equal]
  · exact subFlagsSpec_less _ _
  · exact subFlagsSpec_greater _ _
  · exact subFlagsSpec_lessEqual _ _
  · exact subFlagsSpec_greaterEqual _ _

end Sys2Proof.Machine

/-! PROOFS. The family 60_exceptions.md: what a fault changes (R303, 41_control_and_sequencer.md R178), the history
(R319, R320, R322), what a micro-step and a program load record (R323), and stepping back and forward (R325). -/

namespace Sys2Proof.Machine

open Sys2Proof

/-! ### What a fault changes (60_exceptions.md R303, 41_control_and_sequencer.md R178) -/

/-- A machine that is not finished and stands faulted makes no micro-step (41_control_and_sequencer.md R175). -/
theorem microStep_of_fault {t : Table} {s : State} {r : FaultRecord} (hfin : s.finished = false)
    (hflt : s.fault = some r) : microStep t s = .fault r.kind := by
  simp [microStep, hfin, hflt]

/-- A failed access check is a fault that a checked program can cause. -/
theorem programFault_of_checkAccess {capacity : Nat} {addr : Word} {n : Nat} {f : Fault}
    (h : checkAccess capacity addr n = .error f) : ProgramFault f := by
  rcases checkAccess_cases capacity addr n with ⟨-, -, hc⟩ | ⟨-, -, hc⟩ | ⟨-, hc⟩
  · cases hc.symm.trans h
  · cases hc.symm.trans h; trivial
  · cases hc.symm.trans h; trivial

/-- An instruction makes no new fault, or faults at Execute or Memory-Access with a program's fault, having committed
nothing. -/
theorem exec_fault_cases {i : Instr} {s t : State} (h : exec i s = .next t) :
    t.fault = s.fault ∨ ∃ kind idx, FaultEffect kind idx s t ∧ (idx = 3 ∨ idx = 4) ∧ ProgramFault kind := by
  have hshape := exec_shape i s
  rw [h] at hshape
  generalize ho : Host.Outcome.next t = o at hshape
  cases hshape with
  | alu op rd a b text =>
    rcases runAlu_cases i.row op (writesFlags i) rd a b text s with ⟨r, u, -, hu, -, he⟩ | ⟨f, u, halu, hu, he⟩
    · obtain ⟨-, -, ⟨-, -, hflt, -⟩, -⟩ := he
      cases ho.trans hu; exact .inl hflt
    · obtain ⟨-, rfl⟩ := (alu_eq_error_iff a b op f).1 halu
      cases ho.trans hu; exact .inr ⟨_, 3, he, .inl rfl, trivial⟩
  | load rt rn off9 text =>
    cases hc : checkAccess s.memCapacity (effectiveAddress s rn off9) 8 with
    | ok _ =>
      obtain ⟨u, hu, -, -, -, ⟨-, -, hflt, -⟩, -⟩ := runLoad_completes i.row rt rn off9 text s hc
      cases ho.trans hu; exact .inl hflt
    | error f =>
      obtain ⟨u, hu, he⟩ := runLoad_faults i.row rt rn off9 text s f hc
      cases ho.trans hu; exact .inr ⟨f, 4, he, .inr rfl, programFault_of_checkAccess hc⟩
  | store rt rn off9 text =>
    cases hc : checkAccess s.memCapacity (effectiveAddress s rn off9) 8 with
    | ok _ =>
      obtain ⟨u, hu, -, -, ⟨-, -, hflt, -⟩, -⟩ := runStore_completes i.row rt rn off9 text s hc
      cases ho.trans hu; exact .inl hflt
    | error f =>
      obtain ⟨u, hu, he⟩ := runStore_faults i.row rt rn off9 text s f hc
      cases ho.trans hu; exact .inr ⟨f, 4, he, .inr rfl, programFault_of_checkAccess hc⟩
  | branch off26 taken text =>
    obtain ⟨u, hu, -, ⟨-, -, hflt, -⟩, -⟩ := runBranch_completes i.row off26 taken text s
    cases ho.trans hu; exact .inl hflt

/-- Settles O40: a micro-step that raises only sets the record, after which the stepper answers the fault; an
instruction's fault is the ALU's or the access check's. -/
theorem faultChangesOnlyTheRecord : Obligations.FaultChangesOnlyTheRecord := by
  refine ⟨fun t s k f ⟨hfin, hflt⟩ hk hb => ⟨s.raise f, ?_, rfl, fun t' v => ?_⟩, fun i s t h hs ht => ?_⟩
  · rw [microStep_ready ⟨hfin, hflt, hk⟩, hb]
  · rw [microStep_of_fault (s := s.raise f) hfin (State.raise_fault s f)]; exact nofun
  · exact (exec_fault_cases h).resolve_left fun heq => ht (heq.trans hs)

/-! ### Recording in a history (60_exceptions.md R319, R322) -/

/-- The shape of a history, in propositions (R318, R322). -/
theorem History.wf_iff (h : History) (capacity : Nat) : History.wf h capacity = true ↔
    -1 ≤ h.cursor ∧ h.cursor < h.states.length ∧ h.states.length ≤ capacity := by
  simp [History.wf, and_assoc]

/-- There is no future exactly when no state stands after the cursor (R320). -/
theorem History.forward_eq_none_iff (h : History) : h.forward = none ↔ (h.states.length : Int) - 1 ≤ h.cursor := by
  simp [History.forward]

section Record
variable {h : History} {capacity : Nat} (x : Snapshot)

/-- With room left, recording keeps the states up to the cursor and appends. -/
theorem History.record_of_room (hwf : History.wf h capacity = true) (hroom : h.cursor + 1 < capacity) :
    h.record capacity x = { states := h.states.take (h.cursor + 1).toNat ++ [x], cursor := h.cursor + 1 } := by
  obtain ⟨hlow, hlt, -⟩ := (History.wf_iff h capacity).1 hwf
  have hlen : (h.states.take (h.cursor + 1).toNat).length = (h.cursor + 1).toNat :=
    List.length_take_of_le (by omega)
  simp only [History.record, List.length_append, hlen, List.length_singleton]
  rw [if_neg (by omega), History.mk.injEq]
  exact ⟨rfl, by omega⟩

/-- With its last state current and no room left, recording appends and drops the oldest state. -/
theorem History.record_of_full (hwf : History.wf h capacity = true) (hfull : h.cursor + 1 = capacity) :
    h.record capacity x = { states := (h.states ++ [x]).drop 1, cursor := h.cursor } := by
  obtain ⟨-, hlt, hle⟩ := (History.wf_iff h capacity).1 hwf
  have htake : h.states.take (h.cursor + 1).toNat = h.states := List.take_of_length_le (by omega)
  simp only [History.record, htake, List.length_append, List.length_singleton]
  rw [if_pos (by omega), History.mk.injEq]
  exact ⟨rfl, by omega⟩

/-- The recorded state ends the new history and is its current one, within the maximum. -/
theorem History.record_eq_tail (hwf : History.wf h capacity = true) (hcap : 1 ≤ capacity) :
    ∃ l : List Snapshot, l.length < capacity ∧
      h.record capacity x = { states := l ++ [x], cursor := l.length } := by
  obtain ⟨hlow, hlt, hle⟩ := (History.wf_iff h capacity).1 hwf
  by_cases hroom : h.cursor + 1 < capacity
  · refine ⟨h.states.take (h.cursor + 1).toNat, ?_, ?_⟩
    · rw [List.length_take]; omega
    · rw [History.record_of_room x hwf hroom, List.length_take_of_le (by omega), Int.toNat_of_nonneg (by omega)]
  · refine ⟨h.states.drop 1, ?_, ?_⟩
    · rw [List.length_drop]; omega
    · rw [History.record_of_full x hwf (by omega), List.drop_append_of_le_length (by omega), List.length_drop,
        History.mk.injEq]
      exact ⟨rfl, by omega⟩

/-- The recorded state is the current one (R319). -/
theorem History.current_record (hwf : History.wf h capacity = true) (hcap : 1 ≤ capacity) :
    (h.record capacity x).current = some x := by
  obtain ⟨l, -, hl⟩ := History.record_eq_tail x hwf hcap
  simp [hl, History.current]

/-- Recording keeps the shape of a history (R322). -/
theorem History.wf_record (hwf : History.wf h capacity = true) (hcap : 1 ≤ capacity) :
    History.wf (h.record capacity x) capacity = true := by
  obtain ⟨l, hlt, hl⟩ := History.record_eq_tail x hwf hcap
  rw [History.wf_iff, hl, List.length_append, List.length_singleton]
  dsimp only
  omega

/-- After recording there is no future, whatever the history was (R319). -/
theorem History.forward_record (h : History) (capacity : Nat) : (h.record capacity x).forward = none := by
  rw [History.forward_eq_none_iff]
  unfold History.record
  dsimp only
  split
  · simp; omega
  · simp

/-- Recording in the empty history leaves exactly the recorded state. -/
theorem History.record_empty (hcap : 1 ≤ capacity) :
    History.empty.record capacity x = { states := [x], cursor := 0 } :=
  History.record_of_room x ((History.wf_iff _ _).2 ⟨le_rfl, by decide, Nat.zero_le _⟩)
    (by simp [History.empty]; omega)

end Record

/-- Settles O55, by the two cases of the room left; the rule's property is the case with room, three times. -/
theorem recordTruncatesAndEvicts : Obligations.RecordTruncatesAndEvicts := by
  refine ⟨fun h capacity x hwf hcap => ⟨History.record_of_room x hwf, History.record_of_full x hwf,
    History.current_record x hwf hcap, History.forward_record x h capacity, History.wf_record x hwf hcap⟩,
    fun capacity s1 s2 s3 hcap => ?_⟩
  have h1 : History.empty.record capacity s1 = { states := [s1], cursor := 0 } := History.record_empty s1 (by omega)
  have h2 : History.record { states := [s1], cursor := 0 } capacity s2 = { states := [s1, s2], cursor := 1 } :=
    History.record_of_room s2 ((History.wf_iff _ _).2 (by simp; omega)) (by simp; omega)
  have hwf : History.wf { states := [s1, s2], cursor := 0 } capacity = true :=
    (History.wf_iff _ _).2 (by simp; omega)
  refine ⟨{ states := [s1, s2], cursor := 0 }, by rw [h1, h2]; rfl, ?_, History.current_record s3 hwf (by omega),
    History.forward_record s3 _ capacity⟩
  rw [History.record_of_room s3 hwf (by simp; omega)]; rfl

/-! ### What is recorded (60_exceptions.md R323) -/

/-- The history, its maximum and the fault record are unchanged. -/
structure SameHistoryAndFault (s u : State) : Prop where
  history : u.history = s.history
  maximum : u.historyMax = s.historyMax
  fault : u.fault = s.fault

/-- No action touches the history or the fault record. -/
theorem applyOptional_sameHistoryAndFault {s u : State} {action : Option Action} (h : applyOptional s action = .ok u) :
    SameHistoryAndFault s u := by
  match action, h with
  | none, h => cases h; exact ⟨rfl, rfl, rfl⟩
  | some (.writeRegister index value), h => cases h; constructor <;> simp
  | some (.updateFlags f), h => cases h; exact ⟨rfl, rfl, rfl⟩
  | some (.setBranchTarget pc), h => cases h; exact ⟨rfl, rfl, rfl⟩
  | some (.writeMemory addr value size), h =>
    rcases memWrite_cases s addr size value with ⟨-, hm⟩ | ⟨f, -, hm⟩
    · cases hm.symm.trans h; exact ⟨rfl, rfl, rfl⟩
    · cases hm.symm.trans h

/-- What a micro-step commits touches neither the history nor the fault record. -/
theorem commitRow_sameHistoryAndFault {s u : State} {row : Row} {k : MicroKind} (h : commitRow s row k = .ok u) :
    SameHistoryAndFault s u := by
  unfold commitRow at h
  cases ha : applyOptional s (microAction s.lat row k) with
  | error f => rw [ha] at h; cases h
  | ok s' =>
    obtain ⟨hhist, hmax, hflt⟩ := applyOptional_sameHistoryAndFault ha
    rw [ha] at h
    cases h
    split <;> exact ⟨hhist, hmax, hflt⟩

/-- A micro-step's body touches neither the history nor the fault record: recording comes after it. -/
theorem microBody_sameHistoryAndFault {t : Table} {s u : State} {k : MicroKind} (h : microBody t s k = .ok u) :
    SameHistoryAndFault s u := by
  unfold microBody at h
  cases hl : microLatches t s k with
  | error f => rw [hl] at h; cases h
  | ok l =>
    rw [hl] at h
    unfold microCommit at h
    cases hrow : l.row with
    | none => simp only [hrow] at h; cases h; exact ⟨rfl, rfl, rfl⟩
    | some row =>
      simp only [hrow] at h
      obtain ⟨hhist, hmax, hflt⟩ := commitRow_sameHistoryAndFault h
      exact ⟨hhist, hmax, hflt⟩

/-- A snapshot shows the state it was taken of, recorded. -/
theorem shows_snapshot_record (s : State) : Shows s.snapshot s.record := ⟨rfl, rfl, rfl, rfl, rfl, rfl, rfl⟩

/-- What a micro-step does to the history: nothing when it faults; else it records a snapshot of the state it leaves. -/
theorem microStep_history {t : Table} {s u : State} (hen : Enabled s) (h : microStep t s = .next u) :
    (u.fault ≠ none ∧ u.history = s.history) ∨
    (u.fault = none ∧ ∃ x, u.history = s.history.record s.historyMax x ∧ Shows x u) := by
  obtain ⟨hfin, hflt⟩ := hen
  rcases microStep_cases h with ⟨hs, -⟩ | ⟨k, -, ⟨f, -, rfl⟩ | ⟨s', hb, rfl⟩⟩
  · cases hs.symm.trans hfin
  · exact .inl ⟨Option.some_ne_none _, rfl⟩
  · obtain ⟨hhist, hmax, hfault⟩ := microBody_sameHistoryAndFault hb
    refine .inr ⟨hfault.trans hflt, s'.snapshot, ?_, shows_snapshot_record s'⟩
    rw [State.record_history, hhist, hmax]

/-- A program load from words answers the reset machine with the words for its program, recorded. -/
theorem hostLoadWords_eq {t : Table} {words : List InstrWord} {s u : State} (h : hostLoadWords t words s = .next u) :
    u = (hostReset { s with program := words }).record := by
  unfold hostLoadWords at h
  split at h
  · split at h
    · cases h
    · cases h; rfl
  · cases h

/-- A program load from text is the load of the words its lines assemble to. -/
theorem hostLoadText_cases {t : Table} {lines : List Text} {s u : State} (h : hostLoadText t lines s = .next u) :
    ∃ words, hostLoadWords t words s = .next u := by
  unfold hostLoadText at h
  split at h
  · split at h
    · cases h
    · exact ⟨_, h⟩
  · cases h

/-- A program load leaves exactly one recorded state, which shows the machine. -/
theorem hostLoadWords_history {t : Table} {words : List InstrWord} {s u : State} (hmax : 1 ≤ s.historyMax)
    (h : hostLoadWords t words s = .next u) :
    ∃ x, u.history.states = [x] ∧ u.history.cursor = 0 ∧ Shows x u := by
  rw [hostLoadWords_eq h]
  generalize hs : hostReset { s with program := words } = s'
  have hhist : s'.record.history = { states := [s'.snapshot], cursor := 0 } := by
    subst hs; exact History.record_empty _ hmax
  exact ⟨s'.snapshot, congrArg History.states hhist, congrArg History.cursor hhist, shows_snapshot_record s'⟩

/-- Settles O56, by what a micro-step does to the history and what a load leaves. -/
theorem completedMicroStepIsRecorded : Obligations.CompletedMicroStepIsRecorded := by
  refine ⟨fun t s u hen hwf hcap h => ?_, fun t words lines s u hmax h => ?_⟩
  · rcases microStep_history hen h with ⟨hflt, hhist⟩ | ⟨hflt, x, hhist, hshows⟩
    · exact ⟨fun hnone => absurd hnone hflt, fun _ => hhist⟩
    · refine ⟨fun _ => ⟨x, hhist, ?_, hshows⟩, fun hne => absurd hflt hne⟩
      rw [hhist, History.current_record x hwf hcap]
  · rcases h with h | h
    · exact hostLoadWords_history hmax h
    · obtain ⟨words', h'⟩ := hostLoadText_cases h
      exact hostLoadWords_history hmax h'

/-! ### Stepping back and forward (60_exceptions.md R320, R324, R325) -/

/-- Forward undoes back. -/
theorem History.forward_back {h h' h'' : History} (hb : h.back = some h') (hf : h'.forward = some h'') : h'' = h := by
  unfold History.back at hb
  unfold History.forward at hf
  split at hb
  · cases hb
  · cases hb
    split at hf
    · cases hf
    · cases hf; simp

/-- Evaluating micro-steps again changes the latches only. -/
theorem rebuildLatches_frame {t : Table} {k : Nat} {s u : State} (h : rebuildLatches t k s = .ok u) :
    u = { s with lat := u.lat } := by
  induction k generalizing s with
  | zero => cases h; rfl
  | succ k ih =>
    unfold rebuildLatches at h
    split at h
    · cases h; rfl
    · split at h
      · cases h
      · exact (ih h :)

/-- A restored state is the snapshot's with some latches, at its micro-step index (R324). -/
theorem restore_eq {t : Table} {s u : State} {x : Snapshot} (h : s.restore t x = .next u) :
    u = { s.restored x with lat := u.lat } ∧ u.lat.idx = x.idx := by
  unfold State.restore at h
  split at h
  · cases h
  next s' hs' =>
    split at h
    next hidx => cases h; exact ⟨rebuildLatches_frame hs', hidx⟩
    · cases h

/-- A move that succeeds leaves the moved history and shows its current state. -/
theorem navigate_cases {t : Table} {moved : Option History} {s u : State} (h : navigate t moved s = .next u) :
    ∃ x, moved = some u.history ∧ u.history.current = some x ∧ Shows x u := by
  unfold navigate at h
  split at h
  · cases h
  next hist =>
    split at h
    · cases h
    next x hx =>
      obtain ⟨hu, hidx⟩ := restore_eq h
      have hhist : u.history = hist := by rw [hu]; rfl
      refine ⟨x, by rw [hhist], by rw [hhist, hx], ?_⟩
      rw [hu]
      exact ⟨rfl, rfl, rfl, rfl, hidx.symm, rfl, rfl⟩

/-- Settles O57: forward undoes back on the history, whose current state is then shown by both machines; and after a
completed micro-step nothing is left to step forward to. -/
theorem backAndForwardReproduces : Obligations.BackAndForwardReproduces := by
  intro t s u hback
  obtain ⟨-, hb, -, -⟩ := navigate_cases hback
  refine ⟨fun v x hcur hshows hforward => ?_, fun v hen h hflt => ?_⟩
  · obtain ⟨y, hf, hy, hpc', hflags', hlast', hfin', hidx', hregs', hmem'⟩ := navigate_cases hforward
    have hhist : v.history = s.history := History.forward_back hb hf
    obtain rfl : x = y := Option.some_injective _ (by rw [← hcur, ← hy, hhist])
    obtain ⟨hpc, hflags, hlast, hfin, hidx, hregs, hmem⟩ := hshows
    exact ⟨hregs'.symm.trans hregs, hmem'.symm.trans hmem, hflags'.symm.trans hflags, hpc'.symm.trans hpc,
      hfin'.symm.trans hfin, hlast'.symm.trans hlast, hidx'.symm.trans hidx, hhist⟩
  · rcases microStep_history hen h with ⟨hne, -⟩ | ⟨-, x, hhist, -⟩
    · exact absurd hflt hne
    · rw [hhist, History.forward_record]

end Sys2Proof.Machine

/-! PROOFS. The encoding, continued (30_encoding.md): the round trip of encoder and decoder (sections 3, 4, 8), the order
of the row choice (R90) and the default table (R92, R95). -/

namespace Sys2Proof.Machine

open Sys2Proof

/-! ### Encoding and decoding (30_encoding.md sections 3 and 4) -/

/-- A format's rule, which says of one word that it decodes to an instruction and is its encoding, says that the
encoding decodes. -/
theorem decode_encode_of_encoded {w : InstrWord} {i : Instr} (h : decode w = some i ∧ encode i = w) :
    decode (encode i) = some i := by
  obtain ⟨hdec, henc⟩ := h
  rw [henc, hdec]

/-- Every instruction's word decodes to it, by its format's rule. -/
theorem decode_encode (i : Instr) : decode (encode i) = some i := by
  cases i with
  | add rd rn rm => exact decode_encode_of_encoded (RegisterInstr.add.encoded rd rn rm 0#6)
  | sub rd rn rm => exact decode_encode_of_encoded (RegisterInstr.sub.encoded rd rn rm 0#6)
  | adds rd rn rm => exact decode_encode_of_encoded (RegisterInstr.adds.encoded rd rn rm 0#6)
  | subs rd rn rm => exact decode_encode_of_encoded (RegisterInstr.subs.encoded rd rn rm 0#6)
  | and rd rn rm => exact decode_encode_of_encoded (RegisterInstr.and.encoded rd rn rm 0#6)
  | orr rd rn rm => exact decode_encode_of_encoded (RegisterInstr.orr.encoded rd rn rm 0#6)
  | eor rd rn rm => exact decode_encode_of_encoded (RegisterInstr.eor.encoded rd rn rm 0#6)
  | ands rd rn rm => exact decode_encode_of_encoded (RegisterInstr.ands.encoded rd rn rm 0#6)
  | mul rd rn rm => exact decode_encode_of_encoded (RegisterInstr.mul.encoded rd rn rm 0#6)
  | smulh rd rn rm => exact decode_encode_of_encoded (RegisterInstr.smulh.encoded rd rn rm 0#6)
  | umulh rd rn rm => exact decode_encode_of_encoded (RegisterInstr.umulh.encoded rd rn rm 0#6)
  | sdiv rd rn rm => exact decode_encode_of_encoded (RegisterInstr.sdiv.encoded rd rn rm 0#6)
  | udiv rd rn rm => exact decode_encode_of_encoded (RegisterInstr.udiv.encoded rd rn rm 0#6)
  | lsl rd rn shamt => exact decode_encode_of_encoded (ShiftInstr.lsl.encoded rd rn 0#5 shamt)
  | lsr rd rn shamt => exact decode_encode_of_encoded (ShiftInstr.lsr.encoded rd rn 0#5 shamt)
  | asr rd rn shamt => exact decode_encode_of_encoded (ShiftInstr.asr.encoded rd rn 0#5 shamt)
  | addi rd rn imm12 => exact decode_encode_of_encoded (ImmediateInstr.addi.encoded rd rn imm12)
  | subi rd rn imm12 => exact decode_encode_of_encoded (ImmediateInstr.subi.encoded rd rn imm12)
  | addis rd rn imm12 => exact decode_encode_of_encoded (ImmediateInstr.addis.encoded rd rn imm12)
  | subis rd rn imm12 => exact decode_encode_of_encoded (ImmediateInstr.subis.encoded rd rn imm12)
  | andi rd rn imm12 => exact decode_encode_of_encoded (ImmediateInstr.andi.encoded rd rn imm12)
  | orri rd rn imm12 => exact decode_encode_of_encoded (ImmediateInstr.orri.encoded rd rn imm12)
  | eori rd rn imm12 => exact decode_encode_of_encoded (ImmediateInstr.eori.encoded rd rn imm12)
  | andis rd rn imm12 => exact decode_encode_of_encoded (ImmediateInstr.andis.encoded rd rn imm12)
  | ldur rt rn off9 => exact decode_encode_of_encoded (DataInstr.ldur.encoded rt rn off9 0#2)
  | stur rt rn off9 => exact decode_encode_of_encoded (DataInstr.stur.encoded rt rn off9 0#2)
  | b off26 => exact decode_encode_of_encoded (BranchInstr.b.encoded off26)
  | bEq off26 => exact decode_encode_of_encoded (BranchInstr.bEq.encoded off26)
  | bNe off26 => exact decode_encode_of_encoded (BranchInstr.bNe.encoded off26)
  | bGe off26 => exact decode_encode_of_encoded (BranchInstr.bGe.encoded off26)
  | bLt off26 => exact decode_encode_of_encoded (BranchInstr.bLt.encoded off26)
  | bGt off26 => exact decode_encode_of_encoded (BranchInstr.bGt.encoded off26)
  | bLe off26 => exact decode_encode_of_encoded (BranchInstr.bLe.encoded off26)
  | movz rd imm16 hw => exact decode_movz rd imm16 hw

/-- Settles O6: every constructor's format rule says it. -/
theorem decodeEncodeRoundTrip : Obligations.DecodeEncodeRoundTrip :=
  fun i _ => decode_encode i

/-! ### The order of the row choice (30_encoding.md R90) -/

/-- The decoder tries the formats by their rank. -/
theorem formatOrder_pairwise : formatOrder.Pairwise fun f g => formatRank f ≤ formatRank g := by decide

/-- Settles O2: the formats tried before the chosen row's have no matching row, and neither has the table before the
row in its own format. -/
theorem decoderTakesFirstMatch : Obligations.DecoderTakesFirstMatch := by
  intro t w r hsel
  obtain ⟨hmem, hmatch⟩ := selectBy_mem_matches hsel
  obtain ⟨earlier, f, later, horder, hfind, hnone⟩ := List.findSome?_eq_some_iff.1 hsel
  obtain ⟨hr, before, after, ht, hbefore⟩ := List.find?_eq_some_iff_append.1 hfind
  have hformat : r.format = f := by simpa using (Bool.and_eq_true_iff.1 hr).1
  refine ⟨hmem, hmatch, fun q hq hqw => ?_, before, after, ht, fun q hq hqf hqw => ?_⟩
  · have hnot : q.format ∉ earlier := fun hin => by
      have hfail := List.find?_eq_none.1 (hnone _ hin) q hq
      simp [hqw.symm] at hfail
    have hplace : q.format ∈ f :: later := by
      have hall := mem_formatOrder q.format
      rw [horder, List.mem_append] at hall
      exact hall.resolve_left hnot
    have hsorted := horder ▸ formatOrder_pairwise
    have htail := (List.pairwise_append.1 hsorted).2.1
    rcases List.mem_cons.1 hplace with heq | hlater
    · rw [heq, hformat]
    · exact hformat ▸ List.rel_of_pairwise_cons htail hlater
  · have hfail := hbefore q hq
    rw [← hformat, ← hqf] at hfail
    simp [hqw.symm] at hfail

/-- Settles O4: no pattern of the table begins another row's. -/
theorem defaultTableIsUnambiguous : Obligations.DefaultTableIsUnambiguous :=
  ⟨by decide, rfl, fun _ _ _ hq hr => RowMatches.unique hq hr⟩

/-- Settles O9, by evaluating the decoder on each word. -/
theorem publishedWordsDecode : Obligations.PublishedWordsDecode := by
  unfold Obligations.PublishedWordsDecode
  decide

/-! ### A decodable word and its encoding (30_encoding.md R93) -/

/-- Words with one field in common agree on its bits. -/
theorem getLsbD_eq_of_extractLsb'_eq {w w' : InstrWord} {a k i : Nat}
    (h : w.extractLsb' a k = w'.extractLsb' a k) (ha : a ≤ i) (hk : i < a + k) : w.getLsbD i = w'.getLsbD i := by
  have hbit := congrArg (BitVec.getLsbD · (i - a)) h
  simpa [show i - a < k by omega, Nat.add_sub_cancel' ha] using hbit

/-- Words with one opcode field in common agree on its bits. -/
theorem getLsbD_eq_of_topBits_eq {n : Nat} {w w' : InstrWord} (h : topBits n w = topBits n w') {i : Nat} (hi : i < 32)
    (htop : 32 - n ≤ i) : w.getLsbD i = w'.getLsbD i := by
  have hbit := List.map_inj_left.1 h (31 - i) (List.mem_range.2 (by omega))
  simpa [BitVec.getMsbD, show 31 - i < 32 by omega, show 31 - (31 - i) = i by omega] using hbit

/-- Words agree on the kept bits when they agree at each of them. -/
theorem kept_eq_of_getLsbD {row : Row} {w w' : InstrWord}
    (h : ∀ i < 32, ignoresBit row i = false → w.getLsbD i = w'.getLsbD i) :
    w &&& keptBits row = w' &&& keptBits row := by
  refine BitVec.eq_of_getLsbD_eq fun i hi => ?_
  rw [BitVec.getLsbD_and, BitVec.getLsbD_and, getLsbD_keptBits row hi]
  cases hb : ignoresBit row i with
  | true => simp
  | false => rw [h i hi hb]

/-- The operand fields of a row's words, each by its lowest bit and its width (R83 to R87). -/
def operandPlaces (row : Row) : List (Nat × Nat) :=
  match row.format with
  | .r => if isShiftTag row.sig.operation then [(0, 5), (5, 5), (10, 6)] else [(0, 5), (5, 5), (16, 5)]
  | .i => [(0, 5), (5, 5), (10, 12)]
  | .d => [(0, 5), (5, 5), (12, 9)]
  | .b => [(0, 26)]
  | .im => [(0, 5), (5, 16), (21, 2)]

/-- A bit that its row keeps is in the opcode field or in an operand. -/
theorem opcode_or_operand_of_kept {row : Row} {i : Nat} (hkept : ignoresBit row i = false) :
    32 - row.format.opcodeWidth ≤ i ∨ ∃ p ∈ operandPlaces row, p.1 ≤ i ∧ i < p.1 + p.2 := by
  cases hf : row.format with
  | r =>
    cases hs : isShiftTag row.sig.operation with
    | true =>
      rw [ignoresBit_shift i hf hs, decide_eq_false_iff_not] at hkept
      simp [operandPlaces, hf, hs, Format.opcodeWidth]; omega
    | false =>
      rw [ignoresBit_register i hf hs, decide_eq_false_iff_not] at hkept
      simp [operandPlaces, hf, hs, Format.opcodeWidth]; omega
  | d =>
    rw [ignoresBit_data i hf, decide_eq_false_iff_not] at hkept
    simp [operandPlaces, hf, Format.opcodeWidth]; omega
  | i | b | im => simp [operandPlaces, hf, Format.opcodeWidth]; omega

/-- Words of one row that agree on its operands agree on the bits it keeps. -/
theorem kept_eq_of_operands {row : Row} {w w' : InstrWord} (hw : RowMatches row w) (hw' : RowMatches row w')
    (h : ∀ p ∈ operandPlaces row, w.extractLsb' p.1 p.2 = w'.extractLsb' p.1 p.2) :
    w &&& keptBits row = w' &&& keptBits row := by
  refine kept_eq_of_getLsbD fun i hi hkept => ?_
  rcases opcode_or_operand_of_kept hkept with htop | ⟨p, hp, hlow, hhigh⟩
  · exact getLsbD_eq_of_topBits_eq (hw.symm.trans hw') hi htop
  · exact getLsbD_eq_of_extractLsb'_eq (h p hp) hlow hhigh

/-- An entry reads its instruction's operands from the operand fields of its row. -/
theorem operands_eq_of_entry_eq {w w' : InstrWord} : ∀ e ∈ decodeEntries, e.2 w = e.2 w' →
    ∀ p ∈ operandPlaces e.1, w.extractLsb' p.1 p.2 = w'.extractLsb' p.1 p.2 := by
  have three {p q r : Nat × Nat} (hp : w.extractLsb' p.1 p.2 = w'.extractLsb' p.1 p.2)
      (hq : w.extractLsb' q.1 q.2 = w'.extractLsb' q.1 q.2) (hr : w.extractLsb' r.1 r.2 = w'.extractLsb' r.1 r.2) :
      ∀ x ∈ [p, q, r], w.extractLsb' x.1 x.2 = w'.extractLsb' x.1 x.2 := by simp [hp, hq, hr]
  have hbranch : ∀ e ∈ branchEntries, e.2 w = e.2 w' →
      ∀ p ∈ operandPlaces e.1, w.extractLsb' p.1 p.2 = w'.extractLsb' p.1 p.2 := by
    simp only [branchEntries, List.forall_mem_cons, List.not_mem_nil, false_imp_iff, imp_true_iff, and_true]
    and_intros
    all_goals
      intro h
      injection h with hoff
      exact List.forall_mem_singleton.2 hoff
  simp only [decodeEntries, regEntries, immEntries, memEntries, movEntries, List.forall_mem_append,
    List.forall_mem_cons, List.not_mem_nil, false_imp_iff, imp_true_iff, and_true]
  refine ⟨⟨?_, hbranch⟩, ?_⟩
  and_intros
  all_goals
    intro h
    injection h with hp hq hr
    exact three hp hq hr

/-- No row stands twice in the default table. -/
theorem idtDefault_nodup : idtDefault.Nodup := by decide

/-- Words that decode to one instruction agree on the bits its row keeps. -/
theorem kept_eq_of_decode_eq {w w' : InstrWord} {i : Instr} (h : decode w = some i) (h' : decode w' = some i) :
    w &&& keptBits i.row = w' &&& keptBits i.row := by
  obtain ⟨e, hsel, rfl⟩ := decode_eq_some_iff.1 h
  obtain ⟨e', hsel', heq⟩ := decode_eq_some_iff.1 h'
  obtain ⟨he, hw⟩ := selectBy_mem_matches hsel
  obtain ⟨he', hw'⟩ := selectBy_mem_matches hsel'
  have hrow : e'.1 = e.1 := by rw [← row_of_entry he' w', heq, row_of_entry he]
  obtain rfl : e' = e := List.inj_on_of_nodup_map idtDefault_nodup he' he hrow
  rw [row_of_entry he]
  exact kept_eq_of_operands hw hw' (operands_eq_of_entry_eq e' he heq.symm)

/-- The encoder writes no bit but the kept ones. -/
theorem encode_and_keptBits (i : Instr) : encode i &&& keptBits i.row = encode i := by
  have hsplit : encode i &&& keptBits i.row ||| encode i &&& ~~~(keptBits i.row) = encode i := by
    rw [← BitVec.and_or_distrib_left, BitVec.or_not_self, BitVec.and_allOnes]
  rwa [encode_ignored, BitVec.or_zero] at hsplit

/-- Settles O7: the word and the encoding decode to one instruction, so they agree on the kept bits, and the encoding
has no others. -/
theorem encodeOfDecodeKeepsEveryReadBit : Obligations.EncodeOfDecodeKeepsEveryReadBit := by
  intro w i h
  rw [← encode_and_keptBits, kept_eq_of_decode_eq (decode_encode i) h]

end Sys2Proof.Machine

/-! PROOFS. The step of the machine (41_control_and_sequencer.md R175, R179, 60_exceptions.md R301, R304, R312): its answers
at a boundary, and that the generic micro-steps make it. -/

namespace Sys2Proof.Machine

open Sys2Proof

/-! ### Finished and faulted machines (41_control_and_sequencer.md R175) -/

/-- A finished machine's micro-step changes nothing. -/
theorem microStep_of_finished {t : Table} {s : State} (hfin : s.finished = true) : microStep t s = .next s := by
  simp [microStep, hfin]

/-- Nor does a finished machine's step. -/
theorem step_of_finished {s : State} (hfin : s.finished = true) : step s = .next s := by
  simp [step, hfin]

/-- A machine that is not finished and stands faulted makes no step. -/
theorem step_of_fault {s : State} {r : FaultRecord} (hfin : s.finished = false) (hflt : s.fault = some r) :
    step s = .fault r.kind := by
  simp [step, hfin, hflt]

/-- Settles O43, by the two terminal answers at both grains. -/
theorem terminalMachineTakesNoStep : Obligations.TerminalMachineTakesNoStep :=
  fun _ => ⟨fun hfin => ⟨step_of_finished hfin, fun _ => microStep_of_finished hfin⟩,
    fun _ hfin hflt => ⟨step_of_fault hfin hflt, fun _ => microStep_of_fault hfin hflt⟩⟩

/-! ### A step at a boundary (41_control_and_sequencer.md R179, 60_exceptions.md R301, R304, R312) -/

/-- Settles O41. -/
theorem stepRunsTheDecodedInstruction : Obligations.StepRunsTheDecodedInstruction :=
  fun _ _ _ hen hb hw hdec _ => step_of_decode hen hb hw hdec

/-- A step whose word no row matches raises `UnknownOpcode` after the recorded Fetch. -/
theorem step_of_illegal {s : State} {w : InstrWord} (hen : Enabled s) (hb : AtBoundary s)
    (hw : s.program[s.pc.toNat / 4]? = some w) (hdec : decode w = none) :
    step s = .next ((s.fetched w).record.raise (.unknownOpcode (.word w))) := by
  simp [step_of_boundary hen hb, instrStep, State.fetchWord, hw, hdec]

/-- Settles O42: Fetch raises past the program, Decode on a word that no row matches. -/
theorem fetchAndDecodeFaults : Obligations.FetchAndDecodeFaults :=
  fun _ hen hb => ⟨step_of_fetch_out hen hb, fun _ hw hdec =>
    ⟨_, step_of_illegal hen hb hw hdec, rfl, rfl, rfl, rfl, rfl, fun _ => rfl, rfl, fun _ => rfl, rfl, rfl, rfl⟩⟩

/-- Settles O47: past the program Fetch raises; a word of the program decodes, and its instruction raises only a
program's fault, its pc still on it. -/
theorem checkedProgramFaultKinds : Obligations.CheckedProgramFaultKinds := by
  intro s t r hprog hen hb h hflt
  have ⟨_, hnone⟩ := hen
  cases hw : s.program[s.pc.toNat / 4]? with
  | none =>
    obtain ⟨u, hu, hrec, -⟩ := step_of_fetch_out hen hb (List.getElem?_eq_none_iff.1 hw)
    cases hu.symm.trans h
    cases hrec.symm.trans hflt
    exact ⟨trivial, rfl⟩
  | some w =>
    obtain ⟨i, hdec⟩ := Option.ne_none_iff_exists'.1 (hprog w (List.mem_of_getElem? hw))
    rw [step_of_decode hen hb hw hdec] at h
    rcases exec_fault_cases h with hsame | ⟨kind, idx, ⟨hrec, -⟩, -, hkind⟩
    · cases (hsame.trans hnone).symm.trans hflt
    · cases hrec.symm.trans hflt
      exact ⟨hkind, rfl⟩

/-! ### The micro-steps of an instruction are its meaning (41_control_and_sequencer.md R179) -/

/-- From Decode of a word whose row is the entry's, the micro-steps up to the boundary are the meaning of the entry's
instruction. -/
def EntryRuns (e : DecodeEntry) : Prop :=
  ∀ s : State, Ready s .decode → Table.select idtDefault s.lat.word = some e.1 →
    runToBoundary idtDefault 5 s = exec (e.2 s.lat.word) s

theorem RegisterInstr.entryRuns {mk : Reg → Reg → Reg → Instr} {row : Row} {opcode : BitVec 11} {op : AluOp}
    (h : RegisterInstr mk row opcode op) (hop : aluOpOfTag row.sig.operation = some op := by rfl)
    (hwrite : row.sig.registerWrite = true := by rfl) (hread : row.sig.memRead = false := by rfl) :
    EntryRuns (row, fun w => mk (fieldRd w) (fieldRn w) (fieldRm w)) := by
  intro s hr hsel
  rw [run_alu hr hsel (.inl h.format) op hop hwrite hread (s.reg (fieldRn s.lat.word)) (s.reg (fieldRm s.lat.word))
    (by simp [operandLatches, State.latchOperands, h.format, controlSignals, h.noShift]), h.exec_eq]
  simp [disassemble, h.format, h.noShift]

theorem ShiftInstr.entryRuns {mk : Reg → Reg → BitVec 6 → Instr} {row : Row} {opcode : BitVec 11} {op : AluOp}
    (h : ShiftInstr mk row opcode op) (hop : aluOpOfTag row.sig.operation = some op := by rfl)
    (hwrite : row.sig.registerWrite = true := by rfl) (hread : row.sig.memRead = false := by rfl)
    (hflag : row.sig.flagWrite = false := by rfl) :
    EntryRuns (row, fun w => mk (fieldRd w) (fieldRn w) (fieldShamt w)) := by
  intro s hr hsel
  rw [run_alu hr hsel (.inl h.format) op hop hwrite hread (s.reg (fieldRn s.lat.word))
    (shiftOperand (fieldShamt s.lat.word))
    (by simp [operandLatches, State.latchOperands, h.format, controlSignals, h.shift]), h.exec_eq]
  simp [disassemble, h.format, h.shift, hflag]

theorem ImmediateInstr.entryRuns {mk : Reg → Reg → BitVec 12 → Instr} {row : Row} {opcode : BitVec 10} {op : AluOp}
    (h : ImmediateInstr mk row opcode op) (hop : aluOpOfTag row.sig.operation = some op := by rfl)
    (hwrite : row.sig.registerWrite = true := by rfl) (hread : row.sig.memRead = false := by rfl) :
    EntryRuns (row, fun w => mk (fieldRd w) (fieldRn w) (fieldImm12 w)) := by
  intro s hr hsel
  rw [run_alu hr hsel (.inr (.inl h.format)) op hop hwrite hread (s.reg (fieldRn s.lat.word))
    (immOperand (fieldImm12 s.lat.word))
    (by simp [operandLatches, State.latchOperands, h.format]), h.exec_eq]
  simp [disassemble, h.format]

theorem BranchInstr.entryRuns {mk : BitVec 26 → Instr} {row : Row} {opcode : BitVec 6}
    (h : BranchInstr mk row opcode) : EntryRuns (row, fun w => mk (fieldOff26 w)) := by
  intro s hr hsel
  rw [run_branch hr hsel h.format, h.exec_eq]
  simp [disassemble, h.format]

theorem entryRuns_ldur : EntryRuns (DefaultRow.ldur, fun w => .ldur (fieldRd w) (fieldRn w) (fieldOff9 w)) :=
  fun _ hr hsel => run_load hr hsel rfl rfl rfl rfl rfl rfl

theorem entryRuns_stur : EntryRuns (DefaultRow.stur, fun w => .stur (fieldRd w) (fieldRn w) (fieldOff9 w)) :=
  fun _ hr hsel => run_store hr hsel rfl rfl rfl rfl rfl rfl

theorem entryRuns_movz : EntryRuns (DefaultRow.movz, fun w => .movz (fieldRd w) (fieldImm16 w) (fieldHw w)) :=
  fun s hr hsel => run_alu hr hsel (.inr (.inr rfl)) .pass rfl rfl rfl 0
    (movOperand (fieldImm16 s.lat.word) (fieldHw s.lat.word)) rfl

/-- Every entry of the default table runs as its instruction. -/
theorem entryRuns : ∀ e ∈ decodeEntries, EntryRuns e := by
  have hreg : ∀ e ∈ regEntries, EntryRuns e := by
    simp only [regEntries, List.forall_mem_cons]
    exact ⟨RegisterInstr.add.entryRuns, RegisterInstr.sub.entryRuns, RegisterInstr.adds.entryRuns,
      RegisterInstr.subs.entryRuns, RegisterInstr.and.entryRuns, RegisterInstr.orr.entryRuns,
      RegisterInstr.eor.entryRuns, RegisterInstr.ands.entryRuns, RegisterInstr.mul.entryRuns,
      RegisterInstr.smulh.entryRuns, RegisterInstr.umulh.entryRuns, RegisterInstr.sdiv.entryRuns,
      RegisterInstr.udiv.entryRuns, ShiftInstr.lsl.entryRuns, ShiftInstr.lsr.entryRuns, ShiftInstr.asr.entryRuns,
      List.forall_mem_nil _⟩
  have himm : ∀ e ∈ immEntries, EntryRuns e := by
    simp only [immEntries, List.forall_mem_cons]
    exact ⟨ImmediateInstr.addi.entryRuns, ImmediateInstr.subi.entryRuns, ImmediateInstr.addis.entryRuns,
      ImmediateInstr.subis.entryRuns, ImmediateInstr.andi.entryRuns, ImmediateInstr.orri.entryRuns,
      ImmediateInstr.eori.entryRuns, ImmediateInstr.andis.entryRuns, List.forall_mem_nil _⟩
  have hmem : ∀ e ∈ memEntries, EntryRuns e := by
    simp only [memEntries, List.forall_mem_cons]
    exact ⟨entryRuns_ldur, entryRuns_stur, List.forall_mem_nil _⟩
  have hbranch : ∀ e ∈ branchEntries, EntryRuns e := by
    simp only [branchEntries, List.forall_mem_cons]
    exact ⟨BranchInstr.b.entryRuns, BranchInstr.bEq.entryRuns, BranchInstr.bNe.entryRuns, BranchInstr.bGe.entryRuns,
      BranchInstr.bLt.entryRuns, BranchInstr.bGt.entryRuns, BranchInstr.bLe.entryRuns, List.forall_mem_nil _⟩
  have hmov : ∀ e ∈ movEntries, EntryRuns e := List.forall_mem_singleton.2 entryRuns_movz
  simp only [decodeEntries, List.forall_mem_append]
  exact ⟨⟨⟨⟨hreg, himm⟩, hmem⟩, hbranch⟩, hmov⟩

/-- The micro-steps from Decode of a word that decodes are the meaning of its instruction. -/
theorem run_decoded {s : State} {i : Instr} (hr : Ready s .decode) (hdec : decode s.lat.word = some i) :
    runToBoundary idtDefault 5 s = exec i s := by
  obtain ⟨e, hsel, rfl⟩ := decode_eq_some_iff.1 hdec
  exact entryRuns e (selectBy_mem_matches hsel).1 s hr (by rw [select_default, hsel]; rfl)

/-- A word that does not decode selects no row of the default table. -/
theorem select_default_eq_none {w : InstrWord} (h : decode w = none) : Table.select idtDefault w = none := by
  rw [select_default, Option.map_eq_none_iff]
  exact Option.map_eq_none_iff.1 h

/-- A run of a finished machine stays where it is. -/
theorem runToBoundary_of_finished {t : Table} {s : State} (n : Nat) (hfin : s.finished = true) :
    runToBoundary t n s = .next s := by
  induction n with
  | zero => rfl
  | succ n ih => simp only [runToBoundary, microStep_of_finished hfin, ih, ite_self]

/-- From an enabled boundary the micro-steps up to the next one are one step. -/
theorem run_of_boundary {s : State} (hen : Enabled s) (hb : AtBoundary s) :
    runToBoundary idtDefault 6 s = step s := by
  have ⟨hfin, hflt⟩ := hen
  have hidx : s.lat.idx = 0 := hb
  have hr : Ready s .fetch := ⟨hfin, hflt, by simp [currentKind, hidx]⟩
  cases hw : s.program[s.pc.toNat / 4]? with
  | none =>
    have hout := List.getElem?_eq_none_iff.1 hw
    rw [runToBoundary_faults (microStep_fetch_out hr hout), step_of_boundary hen hb]
    simp [instrStep, State.fetchWord, hw]
  | some w =>
    have hr1 : Ready (s.fetched w).record .decode := ⟨hfin, hflt, rfl⟩
    rw [runToBoundary_goesOn (microStep_fetch hr w hw) (by simp) (by simpa using hflt)]
    cases hdec : decode w with
    | none =>
      rw [step_of_illegal hen hb hw hdec]
      exact runToBoundary_faults (microStep_decode_none hr1 (select_default_eq_none hdec))
    | some i =>
      rw [step_of_decode hen hb hw hdec]
      exact run_decoded hr1 hdec

/-- Settles O44: a terminal machine answers the same at both grains, an enabled boundary runs the decoded instruction,
and inside an instruction the step is the run. -/
theorem microStepsMakeOneStep : Obligations.MicroStepsMakeOneStep := by
  intro s
  cases hfin : s.finished with
  | true => rw [runToBoundary_of_finished 6 hfin, step_of_finished hfin]
  | false =>
    cases hflt : s.fault with
    | some r => rw [step_of_fault hfin hflt, runToBoundary, microStep_of_fault hfin hflt]
    | none =>
      by_cases hidx : s.lat.idx = 0
      · exact run_of_boundary ⟨hfin, hflt⟩ hidx
      · simp [step, hfin, hflt, hidx]

end Sys2Proof.Machine

/-! PROOFS. The family 70_reset_and_hazards.md: reset and program load (R350, R351, R353), and the machine's invariant under
steps, micro-steps and the host's moves. -/

namespace Sys2Proof.Machine

open Sys2Proof

/-! ### Reset and program load (70_reset_and_hazards.md R350, R351, R353) -/

/-- Every register reads 0 after reset. -/
theorem hostReset_reg (s : State) (r : Reg) : (hostReset s).reg r = 0 := by
  simp [hostReset, State.reg]

/-- Reset finishes the machine exactly when it has no program. -/
theorem hostReset_finished_iff (s : State) : (hostReset s).finished = true ↔ s.program.length = 0 := by
  simp [hostReset]

/-- The state after power-on is its own reset. -/
theorem hostReset_reset : hostReset State.reset = State.reset := rfl

/-- Settles O52. -/
theorem resetValues : Obligations.ResetValues :=
  ⟨fun s => ⟨hostReset_reg s, fun _ => rfl, rfl, rfl, rfl, rfl, rfl, hostReset_finished_iff s, rfl, rfl, rfl, rfl, rfl⟩,
    hostReset_reset, rfl⟩

/-- A load whose words all select a row answers the reset machine with them for its program, recorded. -/
theorem hostLoadWords_of_legal {t : Table} {words : List InstrWord} (s : State) (ht : Table.wellFormed t = true)
    (hwords : ∀ w ∈ words, Table.select t w ≠ none) :
    hostLoadWords t words s = .next (hostReset { s with program := words }).record := by
  have hnone : firstIllegal t words = none := by
    simpa [firstIllegal, ← Option.ne_none_iff_isSome] using hwords
  simp [hostLoadWords, ht, hnone]

/-- A load with a word that selects no row fails with the first such word. -/
theorem hostLoadWords_of_illegal {t : Table} {words : List InstrWord} (s : State) (ht : Table.wellFormed t = true)
    {w : InstrWord} (hw : w ∈ words) (hnone : Table.select t w = none) :
    ∃ w' ∈ words, Table.select t w' = none ∧ hostLoadWords t words s = .fault (.unknownOpcode (.word w')) := by
  cases hfirst : firstIllegal t words with
  | none =>
    have hall := List.find?_eq_none.1 hfirst w hw
    simp [hnone] at hall
  | some w' =>
    have hsel := List.find?_some hfirst
    exact ⟨w', List.mem_of_find?_eq_some hfirst, Option.isNone_iff_eq_none.1 hsel, by simp [hostLoadWords, ht, hfirst]⟩

/-- Settles O53: a load of legal words is a recorded reset, and any other fails with its first illegal word. -/
theorem loadChecksEveryWord : Obligations.LoadChecksEveryWord := by
  intro t words s ht
  refine ⟨fun hwords => ?_, fun w hw hnone => hostLoadWords_of_illegal s ht hw hnone⟩
  have hload := hostLoadWords_of_legal s ht hwords
  exact ⟨_, hload, rfl, rfl, rfl, hostReset_reg { s with program := words }, rfl, rfl, rfl, rfl,
    hostReset_finished_iff { s with program := words }, rfl, rfl,
    fun hmax => hostLoadWords_history hmax hload⟩

/-! ### What keeps the invariant (10_state.md, 41_control_and_sequencer.md R177, 60_exceptions.md R318) -/

/-- The pc after an instruction that does not branch is a multiple of 4 again. -/
theorem pc_add_four_aligned {pc : Word} (h : pc.toNat % 4 = 0) : (pc + 4).toNat % 4 = 0 := by
  bv_omega

/-- A branch target is a multiple of 4 when the pc is. -/
theorem branchTarget_aligned {pc : Word} (h : pc.toNat % 4 = 0) (off26 : BitVec 26) :
    (branchTarget pc off26).toNat % 4 = 0 := by
  rw [branchTarget, BitVec.toNat_add, BitVec.toNat_shiftLeft, Nat.shiftLeft_eq]
  omega

/-- A write that passes its check keeps a memory canonical and inside the capacity. -/
theorem memoryLegal_writeBytes {m : Memory} {capacity n : Nat} {addr v : Word} (hm : MemoryLegal m capacity)
    (hcheck : checkAccess capacity addr n = .ok ()) : MemoryLegal (writeBytes m addr.toNat v n) capacity := by
  obtain ⟨hwf, hin⟩ := hm
  have hbound : addr.toNat + n ≤ capacity := by
    rcases checkAccess_cases capacity addr n with ⟨hb, -, -⟩ | ⟨-, -, h⟩ | ⟨-, h⟩
    · simp only [inBounds, Bool.and_eq_true, decide_eq_true_eq] at hb; exact hb.2
    · cases hcheck.symm.trans h
    · cases hcheck.symm.trans h
  refine ⟨wf_writeBytes m _ v n hwf, fun c hc => ?_⟩
  rcases mem_writeBytes m _ v n c hc with ⟨-, hlt⟩ | hold
  · omega
  · exact hin c hold

/-- A recorded history holds old states and the new one. -/
theorem History.mem_record {h : History} {capacity : Nat} {x y : Snapshot}
    (hy : y ∈ (h.record capacity x).states) : y ∈ h.states ∨ y = x := by
  have hkept : y ∈ h.states.take (h.cursor + 1).toNat ++ [x] := by
    unfold History.record at hy
    dsimp only at hy
    split at hy
    · exact List.mem_of_mem_drop hy
    · exact hy
  rcases List.mem_append.1 hkept with hold | hnew
  · exact .inl (List.mem_of_mem_take hold)
  · exact .inr (List.mem_singleton.1 hnew)

/-- Decode puts a branch's target into its latch, and no other row's Decode changes it. -/
theorem operandLatches_target (s : State) (row : Row) : (operandLatches s row).target =
    if row.format = .b then branchTarget s.pc (fieldOff26 s.lat.word) else s.lat.target := by
  unfold operandLatches
  cases row.format <;> rfl

/-- Everything a micro-step can compute for the latches: what its kind writes, or nothing. -/
inductive LatchesAfter (t : Table) (s : State) : MicroKind → Latches → Prop
  | fetch (w : InstrWord) : LatchesAfter t s .fetch { s.lat with word := w, idx := 1 }
  | decode (row : Row) (hsel : Table.select t s.lat.word = some row) :
      LatchesAfter t s .decode (operandLatches s row)
  | control (taken : Bool) : LatchesAfter t s .control { s.lat with taken := taken, idx := 3 }
  | execute (res : Word) (nzcv : Flags) :
      LatchesAfter t s .execute { s.lat with res := res, nzcv := nzcv, idx := 4 }
  | memory (mem : Word) : LatchesAfter t s .memory { s.lat with mem := mem, idx := 5 }
  | unchanged (k : MicroKind) (hk : k ≠ .decode) : LatchesAfter t s k s.lat

theorem latchesAfter_of_microLatches {t : Table} {s : State} {k : MicroKind} {l : Latches}
    (h : microLatches t s k = .ok l) : LatchesAfter t s k l := by
  cases k with
  | fetch =>
    simp only [microLatches] at h
    split at h <;> cases h
    exact .fetch _
  | decode =>
    simp only [microLatches, decodeLatches] at h
    split at h <;> cases h
    next row hsel => exact .decode row hsel
  | control =>
    simp only [microLatches] at h
    split at h
    · cases h; exact .unchanged _ (by decide)
    · split at h <;> cases h <;> exact .control _
  | execute =>
    simp only [microLatches, executeLatches] at h
    split at h
    · cases h; exact .unchanged _ (by decide)
    · split at h <;> cases h; exact .execute _ _
  | memory =>
    simp only [microLatches, memoryLatches] at h
    split at h
    · cases h; exact .unchanged _ (by decide)
    · split at h
      · split at h <;> cases h; exact .memory _
      · cases h; exact .memory s.lat.mem
  | writeBack | branch => cases h; exact .unchanged _ (by decide)

/-- What a micro-step leaves in the target latch: what was there or, at Decode, a branch target. -/
theorem microLatches_target {t : Table} {s : State} {k : MicroKind} {l : Latches} (h : microLatches t s k = .ok l) :
    l.target = s.lat.target ∨ ∃ off26, l.target = branchTarget s.pc off26 := by
  cases latchesAfter_of_microLatches h with
  | decode row hsel =>
    rw [operandLatches_target]
    split
    · exact .inr ⟨_, rfl⟩
    · exact .inl rfl
  | _ => exact .inl rfl

/-- Only Branch has `setBranchTarget` for its action. -/
theorem microAction_ne_setBranchTarget {l : Latches} {row : Row} {k : MicroKind} (hk : k ≠ .branch)
    {action : Action} (h : microAction l row k = some action) (pc : Word) : action ≠ .setBranchTarget pc := by
  rintro rfl
  cases k <;> simp [microAction] at h hk

/-- What Write-Back commits: the register of its row, and the end of the instruction. -/
theorem commitRow_writeBack (s : State) (row : Row) : commitRow s row .writeBack = .ok
    ((if row.sig.registerWrite then
        s.setReg (fieldRd s.lat.word) (if row.sig.memRead then s.lat.mem else s.lat.res)
      else s).endInstr (s.pc + 4) (disassemble row s.lat.word)) := by
  unfold commitRow microAction controlSignals
  cases row.sig.registerWrite with
  | false => rfl
  | true => simp [applyOptional, applyAction, MicroKind.isLast, closeInstr]

/-- What Branch commits: the end of the instruction at the target or past it. -/
theorem commitRow_branch (s : State) (row : Row) : commitRow s row .branch = .ok
    (s.endInstr (if s.lat.taken then s.lat.target else s.pc + 4) (disassemble row s.lat.word)) := by
  cases hw : s.lat.taken <;>
    simp [commitRow, microAction, hw, applyOptional, applyAction, MicroKind.isLast, closeInstr, State.endInstr,
      State.atEnd]

/-- What a micro-step before the last commits is its action. -/
theorem commitRow_of_not_last (s : State) (row : Row) {k : MicroKind} (hk : k.isLast = false) :
    commitRow s row k = applyOptional s (microAction s.lat row k) := by
  unfold commitRow
  cases applyOptional s (microAction s.lat row k) <;> simp [hk]

namespace LegalState
variable {s u : State}

/-- The invariant speaks of no register, no flag, no fault record and of the latches only through the target. -/
theorem congr (h : LegalState s) (hcap : u.memCapacity = s.memCapacity) (hmax : u.historyMax = s.historyMax)
    (hmem : u.mem = s.mem) (hpc : u.pc = s.pc) (htarget : u.lat.target.toNat % 4 = 0)
    (hfin : u.finished = s.finished) (hprog : u.program = s.program) (hhist : u.history = s.history) :
    LegalState u where
  capacity := hcap ▸ h.capacity
  maximum := hmax ▸ h.maximum
  memory := hcap ▸ hmem ▸ h.memory
  pcAligned := hpc ▸ h.pcAligned
  targetAligned := htarget
  finishedAtEnd := by rw [hfin, hpc, hprog]; exact h.finishedAtEnd
  history := by rw [hhist, hmax]; exact h.history
  snapshots := by rw [hhist, hprog, hcap]; exact h.snapshots

theorem withLat (h : LegalState s) {l : Latches} (hl : l.target.toNat % 4 = 0) : LegalState { s with lat := l } :=
  h.congr rfl rfl rfl rfl hl rfl rfl rfl

theorem withFlags (h : LegalState s) (f : Flags) : LegalState { s with flags := f } :=
  h.congr rfl rfl rfl rfl h.targetAligned rfl rfl rfl

theorem raise (h : LegalState s) (f : Fault) : LegalState (s.raise f) :=
  h.congr rfl rfl rfl rfl h.targetAligned rfl rfl rfl

theorem setReg (h : LegalState s) (r : Reg) (v : Word) : LegalState (s.setReg r v) :=
  h.congr (by simp) (by simp) (by simp) (by simp) (by simpa using h.targetAligned) (by simp) (by simp) (by simp)

theorem memWrite (h : LegalState s) {addr v : Word} {size : AccessSize} (hw : memWrite s addr size v = .ok u) :
    LegalState u := by
  rcases memWrite_cases s addr size v with ⟨hcheck, hm⟩ | ⟨f, -, hm⟩
  · cases hm.symm.trans hw
    exact { h with memory := memoryLegal_writeBytes h.memory hcheck }
  · cases hm.symm.trans hw

/-- A snapshot of a legal state is legal. -/
theorem snapshot (h : LegalState s) : SnapshotLegal s.snapshot s.program.length s.memCapacity :=
  ⟨h.pcAligned, h.finishedAtEnd, h.memory⟩

theorem record (h : LegalState s) : LegalState s.record where
  capacity := h.capacity
  maximum := h.maximum
  memory := h.memory
  pcAligned := h.pcAligned
  targetAligned := h.targetAligned
  finishedAtEnd := h.finishedAtEnd
  history := History.wf_record _ h.history (of_decide_eq_true h.maximum)
  snapshots := fun y hy => by
    rcases History.mem_record hy with hold | rfl
    · exact h.snapshots y hold
    · exact h.snapshot

/-- The end of an instruction, at a pc that is a multiple of 4. -/
theorem endInstr (h : LegalState s) (hfin : s.finished = false) {next : Word} (hnext : next.toNat % 4 = 0)
    (text : Text) : LegalState (s.endInstr next text) where
  capacity := h.capacity
  maximum := h.maximum
  memory := h.memory
  pcAligned := hnext
  targetAligned := h.targetAligned
  finishedAtEnd := by simp [hfin, State.atEnd]
  history := h.history
  snapshots := h.snapshots

/-- Every action but `setBranchTarget` keeps the invariant. -/
theorem applyOptional (h : LegalState s) {action : Option Action} (ha : ∀ pc, action ≠ some (.setBranchTarget pc))
    (hu : applyOptional s action = .ok u) : LegalState u := by
  match action, hu with
  | none, hu => cases hu; exact h
  | some (.writeRegister index value), hu => cases hu; exact h.setReg index value
  | some (.writeMemory addr value size), hu => exact h.memWrite hu
  | some (.updateFlags f), hu => cases hu; exact h.withFlags f
  | some (.setBranchTarget pc), _ => exact absurd rfl (ha pc)

theorem commitRow (h : LegalState s) (hfin : s.finished = false) {row : Row} {k : MicroKind}
    (hu : commitRow s row k = .ok u) : LegalState u := by
  have earlier (hlast : k.isLast = false) : LegalState u := by
    rw [commitRow_of_not_last s row hlast] at hu
    refine h.applyOptional (fun pc hpc => ?_) hu
    exact microAction_ne_setBranchTarget (by rintro rfl; cases hlast) hpc pc rfl
  cases k with
  | fetch | decode | control | execute | memory => exact earlier rfl
  | writeBack =>
    cases (commitRow_writeBack s row).symm.trans hu
    refine LegalState.endInstr ?_ ?_ (pc_add_four_aligned h.pcAligned) _
    · split
      · exact h.setReg _ _
      · exact h
    · split
      · simpa using hfin
      · exact hfin
  | branch =>
    cases (commitRow_branch s row).symm.trans hu
    refine h.endInstr hfin ?_ _
    split
    · exact h.targetAligned
    · exact pc_add_four_aligned h.pcAligned

/-- The latches a micro-step computes keep the invariant. -/
theorem microLatches (h : LegalState s) {t : Table} {k : MicroKind} {l : Latches}
    (hl : microLatches t s k = .ok l) : LegalState { s with lat := l } := by
  refine h.withLat ?_
  rcases microLatches_target hl with htarget | ⟨off26, htarget⟩
  · rw [htarget]; exact h.targetAligned
  · rw [htarget]; exact branchTarget_aligned h.pcAligned off26

theorem microBody (h : LegalState s) (hfin : s.finished = false) {t : Table} {k : MicroKind}
    (hu : microBody t s k = .ok u) : LegalState u := by
  unfold Machine.microBody at hu
  cases hl : Machine.microLatches t s k with
  | error f => rw [hl] at hu; cases hu
  | ok l =>
    rw [hl] at hu
    unfold microCommit at hu
    cases hrow : l.row with
    | none => simp only [hrow] at hu; cases hu; exact h.microLatches hl
    | some row =>
      simp only [hrow] at hu
      exact (h.microLatches hl).commitRow hfin hu

theorem microStep (h : LegalState s) {t : Table} (hstep : microStep t s = .next u) : LegalState u := by
  rcases microStep_cases hstep with ⟨-, rfl⟩ | ⟨k, hr, ⟨f, -, rfl⟩ | ⟨s', hb, rfl⟩⟩
  · exact h
  · exact h.raise f
  · exact (h.microBody hr.finished hb).record

theorem runToBoundary (h : LegalState s) {t : Table} {n : Nat} (hrun : runToBoundary t n s = .next u) :
    LegalState u := by
  induction n generalizing s with
  | zero => cases hrun; exact h
  | succ n ih =>
    unfold Machine.runToBoundary at hrun
    cases hstep : Machine.microStep t s with
    | next v =>
      rw [hstep] at hrun
      dsimp only at hrun
      split at hrun
      · cases hrun; exact h.microStep hstep
      · exact ih (h.microStep hstep) hrun
    | fault f => rw [hstep] at hrun; cases hrun
    | refused r => rw [hstep] at hrun; cases hrun

end LegalState

/-- Settles O49: a step is micro-steps up to the next boundary, each of which keeps the invariant. -/
theorem stepKeepsInvariant : Obligations.StepKeepsInvariant := by
  intro s t h hstep
  rw [← microStepsMakeOneStep s] at hstep
  exact h.runToBoundary hstep

/-! ### The invariant after reset and under the host's moves -/

/-- The open capacity is legal whatever it is (00_scope.md R8). -/
theorem memCapacityOk_config : memCapacityOk Config.memCapacity = true := by
  have hlt := Config.capacityChoice.isLt
  simp only [memCapacityOk, Config.memCapacity, Bool.and_eq_true, beq_iff_eq]
  exact ⟨⟨by omega, decide_eq_true (by omega)⟩, decide_eq_true (by omega)⟩

/-- A reset machine has the invariant whenever its parameters are legal. -/
theorem legalState_hostReset {s : State} (hcap : memCapacityOk s.memCapacity = true)
    (hmax : historyMaxOk s.historyMax = true) : LegalState (hostReset s) where
  capacity := hcap
  maximum := hmax
  memory := ⟨rfl, by simp [hostReset]⟩
  pcAligned := rfl
  targetAligned := rfl
  finishedAtEnd := by
    rw [hostReset_finished_iff]
    exact (Nat.zero_eq_mul.trans (or_iff_right (by decide))).symm
  history := (History.wf_iff _ _).2 ⟨le_rfl, by simp [hostReset, History.empty], Nat.zero_le _⟩
  snapshots := by simp [hostReset, History.empty]

/-- Settles O50: the state after power-on is its own reset, and its open parameters are legal. -/
theorem resetHasInvariant : Obligations.ResetHasInvariant := by
  rw [Obligations.ResetHasInvariant, ← hostReset_reset]
  exact legalState_hostReset memCapacityOk_config (decide_eq_true (Nat.le_add_left 1 _))

/-- The current state is one of the recorded ones. -/
theorem History.mem_of_current {h : History} {x : Snapshot} (hx : h.current = some x) : x ∈ h.states := by
  unfold History.current at hx
  split at hx
  · cases hx
  · exact List.mem_of_getElem? hx

/-- A step back keeps the shape and the states of a history. -/
theorem History.back_keeps {h h' : History} {capacity : Nat} (hwf : History.wf h capacity = true)
    (hback : h.back = some h') : History.wf h' capacity = true ∧ h'.states = h.states := by
  rw [History.wf_iff] at hwf
  unfold History.back at hback
  split at hback <;> cases hback
  exact ⟨(History.wf_iff _ _).2 (by dsimp only; omega), rfl⟩

/-- A step forward keeps the shape and the states of a history. -/
theorem History.forward_keeps {h h' : History} {capacity : Nat} (hwf : History.wf h capacity = true)
    (hforward : h.forward = some h') : History.wf h' capacity = true ∧ h'.states = h.states := by
  rw [History.wf_iff] at hwf
  unfold History.forward at hforward
  split at hforward <;> cases hforward
  exact ⟨(History.wf_iff _ _).2 (by dsimp only; omega), rfl⟩

namespace LegalState
variable {s u : State}

theorem hostLoadWords (h : LegalState s) {t : Table} {words : List InstrWord}
    (hload : hostLoadWords t words s = .next u) : LegalState u := by
  rw [hostLoadWords_eq hload]
  exact (legalState_hostReset (s := { s with program := words }) h.capacity h.maximum).record

theorem hostPresetReg (h : LegalState s) {index : Nat} {v : Word} (hset : hostPresetReg index v s = .next u) :
    LegalState u := by
  unfold Machine.hostPresetReg at hset
  split at hset
  · split at hset <;> cases hset
    exact h.setReg _ v
  · cases hset

theorem hostPresetMem (h : LegalState s) {addr v : Word} {size : AccessSize}
    (hset : hostPresetMem addr size v s = .next u) : LegalState u := by
  unfold Machine.hostPresetMem at hset
  split at hset
  · cases hw : Machine.memWrite s addr size v with
    | error f => rw [hw] at hset; cases hset
    | ok s' => rw [hw] at hset; cases hset; exact h.memWrite hw
  · cases hset

theorem hostPresetFlags (h : LegalState s) {f : Flags} (hset : hostPresetFlags f s = .next u) : LegalState u := by
  unfold Machine.hostPresetFlags at hset
  split at hset <;> cases hset
  exact h.withFlags f

/-- Evaluating micro-steps again for their latches keeps the invariant. -/
theorem rebuildLatches (h : LegalState s) {t : Table} {k : Nat} (hu : rebuildLatches t k s = .ok u) :
    LegalState u := by
  induction k generalizing s with
  | zero => cases hu; exact h
  | succ k ih =>
    unfold Machine.rebuildLatches at hu
    split at hu
    · cases hu; exact h
    · split at hu
      · cases hu
      next hl => exact ih (h.microLatches hl) hu

/-- The state of a legal snapshot is legal. -/
theorem restored (h : LegalState s) {x : Snapshot} (hx : SnapshotLegal x s.program.length s.memCapacity) :
    LegalState (s.restored x) := by
  obtain ⟨hpc, hfin, hmem⟩ := hx
  exact { h with memory := hmem, pcAligned := hpc, targetAligned := rfl, finishedAtEnd := hfin }

/-- A history whose cursor was moved holds the same states. -/
theorem withHistory (h : LegalState s) {hist : History} (hwf : History.wf hist s.historyMax = true)
    (hstates : hist.states = s.history.states) : LegalState { s with history := hist } :=
  { h with history := hwf, snapshots := by rw [show _ = hist.states from rfl, hstates]; exact h.snapshots }

/-- A move to a state of the history keeps the invariant. -/
theorem navigate (h : LegalState s) {t : Table} {hist : History} (hwf : History.wf hist s.historyMax = true)
    (hstates : hist.states = s.history.states) (hu : navigate t (some hist) s = .next u) : LegalState u := by
  unfold Machine.navigate at hu
  dsimp only at hu
  split at hu
  · cases hu
  next x hcur =>
    have hx : x ∈ s.history.states := hstates ▸ History.mem_of_current hcur
    have hrestored := (h.withHistory hwf hstates).restored (h.snapshots x hx)
    unfold State.restore at hu
    split at hu
    · cases hu
    next hrebuild =>
      split at hu <;> cases hu
      exact hrestored.rebuildLatches hrebuild

theorem hostStepBack (h : LegalState s) {t : Table} (hu : hostStepBack t s = .next u) : LegalState u := by
  unfold Machine.hostStepBack at hu
  cases hback : s.history.back with
  | none => rw [hback] at hu; cases hu
  | some hist =>
    obtain ⟨hwf, hstates⟩ := History.back_keeps h.history hback
    exact h.navigate hwf hstates (hback ▸ hu)

theorem hostStepForward (h : LegalState s) {t : Table} (hu : hostStepForward t s = .next u) : LegalState u := by
  unfold Machine.hostStepForward at hu
  cases hforward : s.history.forward with
  | none => rw [hforward] at hu; cases hu
  | some hist =>
    obtain ⟨hwf, hstates⟩ := History.forward_keeps h.history hforward
    exact h.navigate hwf hstates (hforward ▸ hu)

end LegalState

/-- Settles O51: a reset is legal, the presets and micro-steps keep the invariant, and a restore starts from a legal
snapshot. -/
theorem hostMovesKeepInvariant : Obligations.HostMovesKeepInvariant := by
  intro s t h
  refine ⟨?_, fun _ _ => h.hostLoadWords, fun _ _ hload => ?_, fun _ _ => h.hostPresetReg,
    fun _ _ _ => h.hostPresetMem, fun _ => h.hostPresetFlags, fun _ => h.microStep, fun _ => h.hostStepBack,
    fun _ => h.hostStepForward⟩
  · rintro rfl
    exact legalState_hostReset h.capacity h.maximum
  · obtain ⟨words, hwords⟩ := hostLoadText_cases hload
    exact h.hostLoadWords hwords

end Sys2Proof.Machine

/-! PROOFS. The ALU's laws (40_alu.md sections 2 and 8), table well-formedness (30_encoding.md R95), and what an instruction
does to memory and reads of the flags (20_memory.md sections 5 and 7, 10_state.md R32). -/

namespace Sys2Proof.Machine

open Sys2Proof

/-! ### The ALU's laws (40_alu.md sections 2 and 8) -/

/-- Settles O12: the flags of SUBS are the exact ones of the difference. -/
theorem subtractionFlagsTellTheOrder : Obligations.SubtractionFlagsTellTheOrder := by
  intro a b r h
  have hr : r.flags = subFlagsSpec a b := by
    rw [← subFlags_eq_spec]
    cases h
    rfl
  rw [hr]
  exact ⟨subFlagsSpec_equal a b, decide_eq_true_iff, subFlagsSpec_less a b, subFlagsSpec_greaterEqual a b,
    subFlagsSpec_greater a b, subFlagsSpec_lessEqual a b⟩

/-- The operations whose carry and overflow can be 1 (R121 to R123). -/
abbrev addFamily : List AluOp := [.add, .adds, .sub, .subs, .cmp]

/-- Everything an operation that completes can answer: a sum or a difference in the add and subtract family, and
otherwise a result with the flags of R137. -/
theorem alu_ok_cases {a b : Word} {op : AluOp} {r : AluResult} (h : alu a b op = .ok r) :
    (op ∈ addFamily ∧ (r = aluAdd a b ∨ r = aluSub a b)) ∨ ∃ v, r = aluLogic v := by
  cases op with
  | add | adds => cases h; exact .inl ⟨by decide, .inl rfl⟩
  | sub | subs | cmp => cases h; exact .inl ⟨by decide, .inr rfl⟩
  | sdiv | udiv =>
    by_cases hb : b = 0#64
    · rw [alu, if_pos hb] at h; cases h
    · rw [alu, if_neg hb] at h; cases h; exact .inr ⟨_, rfl⟩
  | _ => cases h; exact .inr ⟨_, rfl⟩

/-- The sign and the zero flag are those of the result (R136). -/
theorem alu_sign_zero {a b : Word} {op : AluOp} {r : AluResult} (h : alu a b op = .ok r) :
    r.flags.n = flagN r.value ∧ r.flags.z = flagZ r.value := by
  rcases alu_ok_cases h with ⟨-, rfl | rfl⟩ | ⟨v, rfl⟩ <;> exact ⟨rfl, rfl⟩

/-- No word is both negative and zero. -/
theorem not_flagN_and_flagZ (r : Word) : ¬ (flagN r = true ∧ flagZ r = true) := by
  rintro ⟨hn, hz⟩
  rw [of_decide_eq_true hz] at hn
  cases hn

/-- Outside the add and subtract family the carry and the overflow flag are 0 (R137). -/
theorem alu_carry_overflow {a b : Word} {op : AluOp} {r : AluResult} (h : alu a b op = .ok r) (hop : op ∉ addFamily) :
    r.flags.c = false ∧ r.flags.v = false := by
  rcases alu_ok_cases h with ⟨hin, -⟩ | ⟨v, rfl⟩
  · exact absurd hin hop
  · exact ⟨rfl, rfl⟩

/-- Operands of an add for each of the four combinations of carry and overflow. -/
theorem add_carry_overflow_independent (c v : Bool) :
    ∃ (a b : Word) (r : AluResult), alu a b .add = .ok r ∧ r.flags.c = c ∧ r.flags.v = v := by
  cases c with
  | false =>
    cases v with
    | false => exact ⟨0, 0, _, rfl, by decide⟩
    | true => exact ⟨0x7FFFFFFFFFFFFFFF, 1, _, rfl, by decide⟩
  | true =>
    cases v with
    | false => exact ⟨0xFFFFFFFFFFFFFFFF, 1, _, rfl, by decide⟩
    | true => exact ⟨0x8000000000000000, 0x8000000000000000, _, rfl, by decide⟩

/-- Settles O18. -/
theorem aluLaws : Obligations.AluLaws := by
  refine ⟨fun a b op r h => ⟨?_, alu_carry_overflow h⟩, add_carry_overflow_independent, fun a b op => ?_⟩
  · obtain ⟨hn, hz⟩ := alu_sign_zero h
    rw [hn, hz]
    exact not_flagN_and_flagZ r.value
  · simp [alu_eq_error_iff]

/-! ### Table well-formedness (30_encoding.md R95) -/

/-- The Boolean test for a repeated element. -/
theorem allDistinct_iff {α : Type} [DecidableEq α] (l : List α) : allDistinct l = true ↔ l.Nodup := by
  induction l with
  | nil => simp [allDistinct]
  | cons a l ih => simp [allDistinct, ih]

theorem patternOk_iff (r : Row) : r.patternOk = true ↔ r.opcode.length = r.format.opcodeWidth := beq_iff_eq

theorem zeroBranchOk_iff (r : Row) : r.zeroBranchOk = true ↔ r.sig.zeroBranch = false := by
  simp [Row.zeroBranchOk]

theorem branchOk_iff (r : Row) : r.branchOk = true ↔
    (r.format = .b → r.sig.flagBranch ≠ r.sig.uncondBranch ∧ r.sig.registerWrite = false ∧ r.sig.memRead = false ∧
      r.sig.memWrite = false ∧ r.sig.memToReg = false ∧ r.sig.flagWrite = false) ∧
    (r.format ≠ .b → r.sig.flagBranch = false ∧ r.sig.uncondBranch = false) := by
  unfold Row.branchOk
  split
  next hf => simp [hf, and_assoc]
  next hf => simp [hf]

theorem dataOk_iff (r : Row) : r.dataOk = true ↔
    (r.format = .d → r.sig.memRead ≠ r.sig.memWrite ∧
      (r.sig.memRead = true → r.sig.registerWrite = true ∧ r.sig.memToReg = true) ∧
      (r.sig.memWrite = true → r.sig.registerWrite = false ∧ r.sig.memToReg = false) ∧
      r.sig.flagWrite = false ∧ r.sig.operation = "ADD".toList) := by
  unfold Row.dataOk
  split
  next hf =>
    cases r.sig.memRead <;> cases r.sig.memWrite <;> simp [hf, and_assoc]
  next hf => simp [hf]

theorem noMemoryOk_iff (r : Row) : r.noMemoryOk = true ↔ ((r.format = .r ∨ r.format = .i ∨ r.format = .im) →
    r.sig.memRead = false ∧ r.sig.memWrite = false ∧ r.sig.memToReg = false) := by
  unfold Row.noMemoryOk
  cases r.format <;> simp [and_assoc]

theorem passOk_iff (r : Row) : r.passOk = true ↔ (r.format = .im → r.sig.operation = "PASS".toList) := by
  unfold Row.passOk
  split
  next hf => simp [hf]
  next hf => simp [hf]

/-- Settles O5: each clause's Boolean check is the clause, and a load asks for the check first. -/
theorem wellFormedTableMeansSevenClauses : Obligations.WellFormedTableMeansSevenClauses := by
  refine ⟨fun t => ?_, fun t words lines s ht => by simp [hostLoadWords, hostLoadText, ht]⟩
  simp only [Table.wellFormed, Table.patternsDistinct, Table.mnemonicsDistinct, allDistinct_iff, Bool.and_eq_true,
    List.all_eq_true, Row.wellFormed, patternOk_iff, zeroBranchOk_iff, branchOk_iff, dataOk_iff, noMemoryOk_iff,
    passOk_iff, forall_and]
  tauto

/-! ### Memory under an instruction (20_memory.md sections 3, 5 and 7) -/

/-- Settles O23: the store leaves the registers and writes the bytes that the load at the same address reads. -/
theorem loadSeesTheLatestStore : Obligations.LoadSeesTheLatestStore := by
  intro s t rt rn rd off9 hwf hcheck hstore
  obtain ⟨u, hu, -, hmem, -, hregs, -, -, hcap, -⟩ := stur_completes rt hcheck
  cases hu.symm.trans hstore
  have haddr : effectiveAddress t rn off9 = effectiveAddress s rn off9 := by
    rw [effectiveAddress, effectiveAddress, hregs]
  obtain ⟨v, hload, -, ⟨hreg, -⟩, -⟩ := ldur_completes rd (rn := rn) (off9 := off9) (s := t)
    (by rw [haddr, hcap, hcheck])
  refine ⟨v, hload, hreg.trans ?_⟩
  rw [hmem, haddr, readBytes_writeBytes s.mem _ _ hwf]

/-- Everything a store answers: it completes with its bytes written or faults with the memory as it was. -/
theorem stur_mem {rt rn : Reg} {off9 : BitVec 9} {s t : State} (h : exec (.stur rt rn off9) s = .next t) :
    t.mem = writeBytes s.mem (effectiveAddress s rn off9).toNat (s.reg rt) 8 ∨ SameMemory s t := by
  cases hc : checkAccess s.memCapacity (effectiveAddress s rn off9) 8 with
  | ok _ =>
    obtain ⟨u, hu, -, hmem, -⟩ := stur_completes rt hc
    cases hu.symm.trans h
    exact .inl hmem
  | error f =>
    obtain ⟨u, hu, -, -, -, -, -, -, -, hmem, -⟩ := DataInstr.stur.answersFault rt hc
    cases hu.symm.trans h
    exact .inr hmem

/-- Settles O35. -/
theorem storeFrame : Obligations.StoreFrame := by
  rintro rt rn off9 s t _ x h rfl hx
  rcases stur_mem h with hmem | hsame
  · rw [hmem, getByte_writeBytes_other _ _ _ _ _ hx]
  · exact hsame x

/-- Settles O38: whatever the shape of an instruction, it keeps the parameters, and only the store's writes memory. -/
theorem onlyTheStoreWritesMemory : Obligations.OnlyTheStoreWritesMemory := by
  intro i s t h
  have hshape := exec_shape i s
  rw [h] at hshape
  generalize ho : Host.Outcome.next t = o at hshape
  cases hshape with
  | alu op rd a b text =>
    rcases runAlu_cases i.row op (writesFlags i) rd a b text s with ⟨r, u, -, hu, -, he⟩ | ⟨f, u, -, hu, he⟩
    · obtain ⟨-, -, -, hmem, hpar⟩ := he
      cases ho.trans hu
      exact ⟨hpar, fun _ => hmem⟩
    · obtain ⟨-, -, -, -, -, -, -, hmem, hpar⟩ := he
      cases ho.trans hu
      exact ⟨hpar, fun _ => hmem⟩
  | load rt rn off9 text =>
    cases hc : checkAccess s.memCapacity (effectiveAddress s rn off9) 8 with
    | ok _ =>
      obtain ⟨u, hu, -, -, -, -, hmem, hpar⟩ := runLoad_completes i.row rt rn off9 text s hc
      cases ho.trans hu
      exact ⟨hpar, fun _ => hmem⟩
    | error f =>
      obtain ⟨u, hu, -, -, -, -, -, -, -, hmem, hpar⟩ := runLoad_faults i.row rt rn off9 text s f hc
      cases ho.trans hu
      exact ⟨hpar, fun _ => hmem⟩
  | store rt rn off9 text hi =>
    have hstore : isStore i ≠ false := by rw [hi]; exact Bool.noConfusion
    cases hc : checkAccess s.memCapacity (effectiveAddress s rn off9) 8 with
    | ok _ =>
      obtain ⟨u, hu, -, -, -, -, -, hpar⟩ := runStore_completes i.row rt rn off9 text s hc
      cases ho.trans hu
      exact ⟨hpar, fun hnot => absurd hnot hstore⟩
    | error f =>
      obtain ⟨u, hu, -, -, -, -, -, -, -, hmem, hpar⟩ := runStore_faults i.row rt rn off9 text s f hc
      cases ho.trans hu
      exact ⟨hpar, fun _ => hmem⟩
  | branch off26 taken text =>
    obtain ⟨u, hu, -, -, -, -, hmem, hpar⟩ := runBranch_completes i.row off26 taken text s
    cases ho.trans hu
    exact ⟨hpar, fun _ => hmem⟩

/-! ### Nothing reads the carry flag (10_state.md R32, 46_b_format.md R287) -/

/-- The state without its carry flag and without its recorded snapshots, which hold it too. -/
def State.withoutCarry (s : State) : State :=
  { s with flags := { s.flags with c := false }, history := History.empty, freeTexts := 0 }

theorem State.withoutCarry_setReg (s : State) (r : Reg) (v : Word) :
    (s.setReg r v).withoutCarry = s.withoutCarry.setReg r v := by
  unfold State.setReg
  split <;> rfl

/-- The same but for the carry flag and the recorded snapshots. -/
def Alike (s u : State) : Prop := s.withoutCarry = u.withoutCarry

namespace Alike
variable {s u : State} (h : Alike s u)
include h

theorem reg (r : Reg) : s.reg r = u.reg r := (congrArg (State.reg · r) h :)
theorem pc : s.pc = u.pc := (congrArg State.pc h :)
theorem memCapacity : s.memCapacity = u.memCapacity := (congrArg State.memCapacity h :)

/-- No branch condition reads the carry flag. -/
theorem rowTaken (row : Row) : rowTaken row s.flags = rowTaken row u.flags :=
  (congrArg (Machine.rowTaken row ·.flags) h :)

theorem record : Alike s.record u.record := h
theorem raise (f : Fault) : Alike (s.raise f) (u.raise f) := congrArg (State.raise · f) h
theorem latchOperands (row : Row) (a b : Word) : Alike (s.latchOperands row a b) (u.latchOperands row a b) :=
  congrArg (State.latchOperands · row a b) h
theorem latchStore (row : Row) (a b data : Word) : Alike (s.latchStore row a b data) (u.latchStore row a b data) :=
  congrArg (State.latchStore · row a b data) h
theorem latchBranch (row : Row) (target : Word) : Alike (s.latchBranch row target) (u.latchBranch row target) :=
  congrArg (State.latchBranch · row target) h
theorem latchSignals : Alike s.latchSignals u.latchSignals := congrArg State.latchSignals h
theorem latchTaken (taken : Bool) : Alike (s.latchTaken taken) (u.latchTaken taken) :=
  congrArg (State.latchTaken · taken) h
theorem loaded (v : Word) : Alike (s.loaded v) (u.loaded v) := congrArg (State.loaded · v) h
theorem stored : Alike s.stored u.stored := congrArg State.stored h

/-- Under `flagWrite` all four flags become the result's, else they stay. -/
theorem executed (r : AluResult) (fw : Bool) : Alike (s.executed r fw) (u.executed r fw) := by
  cases fw with
  | false => exact (congrArg (State.executed · r false) h :)
  | true => exact (congrArg (fun x => (State.executed x r true).withoutCarry) h :)

theorem setReg (r : Reg) (v : Word) : Alike (s.setReg r v) (u.setReg r v) := by
  rw [Alike, State.withoutCarry_setReg, State.withoutCarry_setReg, h]

theorem endInstr {next next' : Word} (hnext : next = next') (text : Text) :
    Alike (s.endInstr next text) (u.endInstr next' text) := by
  subst hnext
  exact congrArg (State.endInstr · next text) h

theorem memRead (addr : Word) (size : AccessSize) : memRead s addr size = memRead u addr size :=
  (congrArg (Machine.memRead · addr size) h :)

/-- A doubleword write raises in both or is made in both. -/
theorem memWrite (addr v : Word) :
    (∃ f, memWrite s addr .b8 v = .error f ∧ memWrite u addr .b8 v = .error f) ∨
    ∃ s' u', memWrite s addr .b8 v = .ok s' ∧ memWrite u addr .b8 v = .ok u' ∧ Alike s' u' := by
  cases hc : checkAccess u.memCapacity addr 8 with
  | error f => exact .inl ⟨f, memWrite_error u s addr v h.memCapacity f hc, memWrite_error u u addr v rfl f hc⟩
  | ok _ =>
    refine .inr ⟨_, _, memWrite_ok u s addr v h.memCapacity hc, memWrite_ok u u addr v rfl hc, ?_⟩
    exact (congrArg (fun x : State => { x with mem := writeBytes x.mem addr.toNat v 8 }) h :)

theorem effectiveAddress (rn : Reg) (off9 : BitVec 9) : effectiveAddress s rn off9 = effectiveAddress u rn off9 :=
  (congrArg (Machine.effectiveAddress · rn off9) h :)
end Alike

/-- Both answer a next state, and these are alike. -/
def AnswerAlike (o o' : Host.Outcome State Fault Refusal) : Prop :=
  ∃ t t', o = .next t ∧ o' = .next t' ∧ Alike t t'

section Shapes
variable {s u : State} (h : Alike s u)
include h

theorem runAlu_alike {row : Row} {op : AluOp} {fw : Bool} {rd : Reg} {a a' b b' : Word} {text : Text} (ha : a = a')
    (hb : b = b') : AnswerAlike (runAlu row op fw rd a b text s) (runAlu row op fw rd a' b' text u) := by
  subst ha hb
  have h3 := (h.latchOperands row a b).record.latchSignals.record
  unfold runAlu
  cases alu a b op with
  | error f => exact ⟨_, _, rfl, rfl, h3.raise f⟩
  | ok r =>
    have h4 := (h3.executed r fw).record
    exact ⟨_, _, rfl, rfl, ((h4.setReg rd r.value).endInstr (congrArg (· + 4) h4.pc) text).record⟩

theorem runLoad_alike {row : Row} {rt rn : Reg} {off9 : BitVec 9} {text : Text} :
    AnswerAlike (runLoad row rt rn off9 text s) (runLoad row rt rn off9 text u) := by
  simp only [runLoad, h.effectiveAddress, h.reg]
  have h4 := ((h.latchOperands row (u.reg rn) (offsetOperand off9)).record.latchSignals.record.executed
    (aluAdd (u.reg rn) (offsetOperand off9)) false).record
  rw [h4.memRead]
  split
  · exact ⟨_, _, rfl, rfl, h4.raise _⟩
  next v _ =>
    have h5 := (h4.loaded v).record
    exact ⟨_, _, rfl, rfl, ((h5.setReg rt v).endInstr (congrArg (· + 4) h5.pc) text).record⟩

theorem runStore_alike {row : Row} {rt rn : Reg} {off9 : BitVec 9} {text : Text} :
    AnswerAlike (runStore row rt rn off9 text s) (runStore row rt rn off9 text u) := by
  simp only [runStore, h.effectiveAddress, h.reg]
  have h4 := ((h.latchStore row (u.reg rn) (offsetOperand off9) (u.reg rt)).record.latchSignals.record.executed
    (aluAdd (u.reg rn) (offsetOperand off9)) false).record
  rcases h4.memWrite (effectiveAddress u rn off9) (u.reg rt) with ⟨f, hs, hu⟩ | ⟨s', u', hs, hu, h'⟩
  · rw [hs, hu]
    exact ⟨_, _, rfl, rfl, h4.raise f⟩
  · rw [hs, hu]
    have h5 := h'.stored.record
    exact ⟨_, _, rfl, rfl, (h5.endInstr (congrArg (· + 4) h5.pc) text).record⟩

theorem runBranch_alike {row : Row} {off26 : BitVec 26} {text : Text} :
    AnswerAlike (runBranch row off26 (rowTaken row s.flags) text s)
      (runBranch row off26 (rowTaken row u.flags) text u) := by
  simp only [runBranch, h.rowTaken, h.pc]
  have h3 := ((h.latchBranch row (branchTarget u.pc off26)).record.latchTaken (rowTaken row u.flags)).record
  exact ⟨_, _, rfl, rfl, (h3.endInstr (by simp [h.pc]) text).record⟩

/-- Two states that differ in the carry flag answer next states that differ in it at most. -/
theorem exec_alike (i : Instr) : AnswerAlike (exec i s) (exec i u) := by
  unfold exec
  cases i with
  | ldur rt rn off9 => exact runLoad_alike h
  | stur rt rn off9 => exact runStore_alike h
  | b off26 => exact runBranch_alike h (row := DefaultRow.b)
  | bEq off26 => exact runBranch_alike h (row := DefaultRow.bEq)
  | bNe off26 => exact runBranch_alike h (row := DefaultRow.bNe)
  | bGe off26 => exact runBranch_alike h (row := DefaultRow.bGe)
  | bLt off26 => exact runBranch_alike h (row := DefaultRow.bLt)
  | bGt off26 => exact runBranch_alike h (row := DefaultRow.bGt)
  | bLe off26 => exact runBranch_alike h (row := DefaultRow.bLe)
  | movz rd imm16 hw => exact runAlu_alike h rfl rfl
  | lsl rd rn shamt | lsr rd rn shamt | asr rd rn shamt => exact runAlu_alike h (h.reg rn) rfl
  | addi rd rn imm12 | subi rd rn imm12 | addis rd rn imm12 | subis rd rn imm12 =>
    exact runAlu_alike h (h.reg rn) rfl
  | andi rd rn imm12 | orri rd rn imm12 | eori rd rn imm12 | andis rd rn imm12 =>
    exact runAlu_alike h (h.reg rn) rfl
  | add rd rn rm | sub rd rn rm | adds rd rn rm | subs rd rn rm | and rd rn rm | orr rd rn rm | eor rd rn rm
  | ands rd rn rm | mul rd rn rm | smulh rd rn rm | umulh rd rn rm | sdiv rd rn rm | udiv rd rn rm =>
    exact runAlu_alike h (h.reg rn) (h.reg rm)

end Shapes

theorem RegisterResultFlags.flags {mk : Reg → Reg → Reg → Instr} {f : Word → Word → Word} {g : Word → Word → Flags}
    (h : RegisterResultFlags mk f g) {rd rn rm : Reg} {s t : State} (ht : exec (mk rd rn rm) s = .next t) :
    t.flags = g (s.reg rn) (s.reg rm) := by
  obtain ⟨u, hu, -, -, hflags, -⟩ := h rd rn rm s
  cases hu.symm.trans ht
  exact hflags

theorem ImmediateResultFlags.flags {mk : Reg → Reg → BitVec 12 → Instr} {f : Word → Word → Word}
    {g : Word → Word → Flags} (h : ImmediateResultFlags mk f g) {rd rn : Reg} {imm12 : BitVec 12} {s t : State}
    (ht : exec (mk rd rn imm12) s = .next t) : t.flags = g (s.reg rn) (BitVec.ofNat 64 imm12.toNat) := by
  obtain ⟨u, hu, -, -, hflags, -⟩ := h rd rn imm12 s
  cases hu.symm.trans ht
  exact hflags

/-- The flags that a flag writer leaves depend on registers only. -/
theorem flags_eq_of_writesFlags {i : Instr} (hw : writesFlags i = true) {s u t t' : State} (hregs : SameRegisters s u)
    (ht : exec i s = .next t) (ht' : exec i u = .next t') : t'.flags = t.flags := by
  obtain ⟨-, hadds, -, hsubs⟩ := addsSubsRule
  obtain ⟨-, -, -, -, -, -, -, hands⟩ := logicalRule
  obtain ⟨-, -, -, -, -, haddis, -, hsubis⟩ := immediateArithmeticRule
  obtain ⟨-, -, -, -, -, -, -, handis⟩ := immediateLogicRule
  cases i with
  | adds rd rn rm => rw [hadds.flags ht', hadds.flags ht, hregs, hregs]
  | subs rd rn rm => rw [hsubs.flags ht', hsubs.flags ht, hregs, hregs]
  | ands rd rn rm => rw [hands.flags ht', hands.flags ht, hregs, hregs]
  | addis rd rn imm12 => rw [haddis.flags ht', haddis.flags ht, hregs]
  | subis rd rn imm12 => rw [hsubis.flags ht', hsubis.flags ht, hregs]
  | andis rd rn imm12 => rw [handis.flags ht', handis.flags ht, hregs]
  | _ => cases hw

/-- Settles O39: alike states answer alike, and a flag writer's flags come from the registers. -/
theorem noInstructionReadsCarry : Obligations.NoInstructionReadsCarry := by
  intro i s t c ht
  have hstart : Alike s { s with flags := { s.flags with c := c } } := rfl
  have hregs : SameRegisters s { s with flags := { s.flags with c := c } } := fun _ => rfl
  obtain ⟨t', u, ht', hu, h⟩ := exec_alike hstart i
  cases ht'.symm.trans ht
  have field {α : Type} (f : State → α) : f u.withoutCarry = f t.withoutCarry := congrArg f h.symm
  exact ⟨u, hu, field State.regs, field State.pc, field State.mem, field State.lat, field State.finished,
    field State.fault, field State.last, ⟨field State.program, field State.memCapacity, field State.historyMax⟩,
    field (·.flags.n), field (·.flags.z), field (·.flags.v),
    fun hw => flags_eq_of_writesFlags hw hregs ht hu⟩

end Sys2Proof.Machine

/-! PROOFS. Restoring a snapshot inside an instruction (60_exceptions.md R324): its micro-steps evaluated again give every
latch that it has written. -/

namespace Sys2Proof.Machine

open Sys2Proof

/-! ### The rows of a well-formed table (30_encoding.md R95) -/

section Rows
variable {t : Table} {row : Row} (ht : Table.wellFormed t = true) (hrow : row ∈ t)
include ht hrow

/-- Only a D row reads or writes memory. -/
theorem format_of_memory_signal (h : row.sig.memRead = true ∨ row.sig.memWrite = true) : row.format = .d := by
  obtain ⟨-, -, -, hbranch, -, hnone, -⟩ := (wellFormedTableMeansSevenClauses.1 t).1 ht
  by_contra hd
  have hno : row.sig.memRead = false ∧ row.sig.memWrite = false := by
    by_cases hb : row.format = .b
    · obtain ⟨-, -, hread, hwrite, -⟩ := (hbranch row hrow).1 hb
      exact ⟨hread, hwrite⟩
    · have hreg : row.format = .r ∨ row.format = .i ∨ row.format = .im := by
        cases hf : row.format <;> simp_all
      obtain ⟨hread, hwrite, -⟩ := hnone row hrow hreg
      exact ⟨hread, hwrite⟩
  simp [hno] at h

/-- A row that reads memory does not write it. -/
theorem memWrite_of_memRead (h : row.sig.memRead = true) : row.sig.memWrite = false := by
  obtain ⟨-, -, -, -, hdata, -⟩ := (wellFormedTableMeansSevenClauses.1 t).1 ht
  obtain ⟨hne, -⟩ := hdata row hrow (format_of_memory_signal ht hrow (.inl h))
  rw [h] at hne
  exact (Bool.eq_not_of_ne hne.symm)

/-- A D row that does not read memory writes it. -/
theorem memWrite_of_data (hf : row.format = .d) (h : row.sig.memRead = false) : row.sig.memWrite = true := by
  obtain ⟨-, -, -, -, hdata, -⟩ := (wellFormedTableMeansSevenClauses.1 t).1 ht
  obtain ⟨hne, -⟩ := hdata row hrow hf
  rw [h] at hne
  exact Bool.eq_not_of_ne hne.symm
end Rows

/-! ### Where in its instruction a micro-step stands (41_control_and_sequencer.md R165) -/

/-- The index names Fetch, Decode, or a later place in the list of the latched row's format. -/
theorem currentKind_cases {l : Latches} {k : MicroKind} (h : currentKind l = some k) :
    (l.idx = 0 ∧ k = .fetch) ∨ (l.idx = 1 ∧ k = .decode) ∨
      ∃ row, l.row = some row ∧ 2 ≤ l.idx ∧ (microList row.format)[l.idx]? = some k := by
  unfold currentKind at h
  match hidx : l.idx with
  | 0 => simp only [hidx] at h; exact .inl ⟨rfl, (Option.some.inj h).symm⟩
  | 1 => simp only [hidx] at h; exact .inr (.inl ⟨rfl, (Option.some.inj h).symm⟩)
  | j + 2 =>
    simp only [hidx] at h
    obtain ⟨row, hrow, hk⟩ := Option.bind_eq_some_iff.1 h
    exact .inr (.inr ⟨row, hrow, by omega, hk⟩)

/-- A branch has no Execute. -/
theorem format_of_execute_mem {f : Format} (h : MicroKind.execute ∈ microList f) : f ≠ .b := by
  rintro rfl
  simp [microList] at h

/-- The index goes on by at most one. -/
theorem nextIdx_le_of_currentKind {l : Latches} {k : MicroKind} (h : currentKind l = some k) :
    k.nextIdx ≤ l.idx + 1 := by
  rcases currentKind_cases h with ⟨hidx, rfl⟩ | ⟨hidx, rfl⟩ | ⟨row, -, -, hk⟩
  · rw [hidx]; decide
  · rw [hidx]; decide
  · rw [nextIdx_of_microList hk]; split <;> omega

/-- The latches a micro-step computes have the next index, or the one before where it is Write-Back or Branch. -/
theorem microLatches_idx {t : Table} {s : State} {k : MicroKind} {l : Latches} (h : microLatches t s k = .ok l) :
    l.idx = k.nextIdx ∨ l.idx = s.lat.idx := by
  cases latchesAfter_of_microLatches h with
  | decode row hsel => exact .inl (operandLatches_idx s row)
  | unchanged => exact .inr rfl
  | _ => exact .inl rfl

/-- Only Decode latches a row, one of the table. -/
theorem microLatches_row {t : Table} {s : State} {k : MicroKind} {l : Latches} (h : microLatches t s k = .ok l) :
    (k = .decode ∧ ∃ row ∈ t, l.row = some row) ∨ (k ≠ .decode ∧ l.row = s.lat.row) := by
  cases latchesAfter_of_microLatches h with
  | decode row hsel => exact .inl ⟨rfl, row, (selectBy_mem_matches hsel).1, operandLatches_row s row⟩
  | unchanged _ hk => exact .inr ⟨hk, rfl⟩
  | _ => exact .inr ⟨by decide, rfl⟩

/-- No action touches the latches. -/
theorem applyOptional_lat {s u : State} {action : Option Action} (h : applyOptional s action = .ok u) :
    u.lat = s.lat := by
  match action, h with
  | none, h => cases h; rfl
  | some (.writeRegister index value), h => cases h; exact State.setReg_lat s index value
  | some (.updateFlags f), h => cases h; rfl
  | some (.setBranchTarget pc), h => cases h; rfl
  | some (.writeMemory addr value size), h =>
    rcases memWrite_cases s addr size value with ⟨-, hm⟩ | ⟨f, -, hm⟩
    · cases hm.symm.trans h; rfl
    · cases hm.symm.trans h

/-- What a micro-step commits leaves the latched row, and leaves the index or makes it 0. -/
theorem commitRow_latches {s u : State} {row : Row} {k : MicroKind} (h : commitRow s row k = .ok u) :
    u.lat.row = s.lat.row ∧ u.lat.idx ≤ s.lat.idx := by
  cases k with
  | writeBack =>
    cases (commitRow_writeBack s row).symm.trans h
    refine ⟨?_, Nat.zero_le _⟩
    split
    · simp
    · rfl
  | branch => cases (commitRow_branch s row).symm.trans h; exact ⟨rfl, Nat.zero_le _⟩
  | fetch | decode | control | execute | memory =>
    rw [commitRow_of_not_last s row rfl] at h
    rw [applyOptional_lat h]
    exact ⟨rfl, le_rfl⟩

/-- What a micro-step's body leaves in the latches: the row it computes for them, and its index or 0. -/
theorem microBody_latches {t : Table} {s u : State} {k : MicroKind} (h : microBody t s k = .ok u) :
    ∃ l, microLatches t s k = .ok l ∧ u.lat.row = l.row ∧ u.lat.idx ≤ l.idx := by
  unfold microBody at h
  cases hl : microLatches t s k with
  | error f => rw [hl] at h; cases h
  | ok l =>
    rw [hl] at h
    unfold microCommit at h
    refine ⟨l, rfl, ?_⟩
    cases hrow : l.row with
    | none => simp only [hrow] at h; cases h; exact ⟨hrow, le_rfl⟩
    | some row => simp only [hrow] at h; rw [← hrow]; exact commitRow_latches h

/-- A micro-step moves the index on by at most one. -/
theorem microStep_idx_le {t : Table} {s u : State} (h : microStep t s = .next u) : u.lat.idx ≤ s.lat.idx + 1 := by
  rcases microStep_cases h with ⟨-, rfl⟩ | ⟨k, hr, ⟨f, -, rfl⟩ | ⟨s', hb, rfl⟩⟩
  · exact Nat.le_succ _
  · exact Nat.le_succ _
  · have hnext := nextIdx_le_of_currentKind hr.kind
    obtain ⟨l, hl, -, hle⟩ := microBody_latches hb
    rw [State.record_lat]
    rcases microLatches_idx hl with h | h <;> omega

/-- After a micro-step inside an instruction the latched row is one of the table, when it was before. -/
theorem row_mem_of_microStep {t : Table} {v u : State} (h : microStep t v = .next u)
    (hrow : ∀ row, 2 ≤ v.lat.idx → v.lat.row = some row → row ∈ t) (hidx : u.lat.idx = v.lat.idx + 1) :
    ∀ row, 2 ≤ u.lat.idx → u.lat.row = some row → row ∈ t := by
  intro row h2 hlatched
  rcases microStep_cases h with ⟨-, rfl⟩ | ⟨k, hr, ⟨f, -, rfl⟩ | ⟨u, hb, rfl⟩⟩
  · omega
  · rw [State.raise_lat] at hidx; omega
  · obtain ⟨l, hl, hsame, -⟩ := microBody_latches hb
    rcases microLatches_row hl with ⟨-, row', hmem, hl'⟩ | ⟨hk, hl'⟩
    · cases (hlatched.symm.trans hsame).trans hl'
      exact hmem
    · refine hrow row ?_ (hl'.symm.trans (hsame.symm.trans hlatched))
      rcases currentKind_cases hr.kind with ⟨h0, -⟩ | ⟨-, hdec⟩ | ⟨_, _, hge, _⟩
      · omega
      · exact absurd hdec hk
      · exact hge

theorem WrittenLatchesAgree.refl (l : Latches) : WrittenLatchesAgree l l := by
  constructor <;> simp

/-- Latches that agree on what is written name the same micro-step. -/
theorem WrittenLatchesAgree.currentKind_eq {l l' : Latches} (h : WrittenLatchesAgree l l') :
    currentKind l' = currentKind l := by
  unfold currentKind
  rw [h.index]
  match hidx : l.idx with
  | 0 | 1 => rfl
  | j + 2 => rw [h.decoded (by omega)]

/-! ### One micro-step evaluated again (60_exceptions.md R324) -/

/-- What the micro-steps below the index read besides the latches is the same: always the registers, pc, program and
capacity; past Control-Signal the flags, for a branch; past Memory-Access the memory, for a load. -/
structure SameInputs (v w : State) : Prop where
  regs : w.regs = v.regs
  pc : w.pc = v.pc
  program : w.program = v.program
  memCapacity : w.memCapacity = v.memCapacity
  flags : ∀ row, 3 ≤ v.lat.idx → v.lat.row = some row → row.format = .b → w.flags = v.flags
  mem : ∀ row, 5 ≤ v.lat.idx → v.lat.row = some row → row.sig.memRead = true → w.mem = v.mem

/-- A micro-step that took `v` to `u`, evaluated again on the state `w` with the latches `l`, gives latches that agree
with those of `u`, and exactly those when `l` are exactly those of `v`. -/
def EvaluatesAgain (t : Table) (k : MicroKind) (v u w : State) (l : Latches) : Prop :=
  ∃ l', microLatches t { w with lat := l } k = .ok l' ∧ WrittenLatchesAgree u.lat l' ∧ (l = v.lat → l' = u.lat)

/-- Decode reads registers, pc and latches. -/
theorem operandLatches_congr {s u : State} (row : Row) (hregs : s.regs = u.regs) (hpc : s.pc = u.pc)
    (hlat : s.lat = u.lat) : operandLatches s row = operandLatches u row := by
  simp only [operandLatches, State.reg, hregs, hpc, hlat]

/-- What Decode writes depends on registers, pc and the fetched word. -/
theorem operandLatches_agree {s u : State} {row : Row} (hregs : s.regs = u.regs) (hpc : s.pc = u.pc)
    (hword : s.lat.word = u.lat.word) (hstore : row.sig.memWrite = true → row.format = .d) :
    WrittenLatchesAgree (operandLatches u row) (operandLatches s row) := by
  have hreg (r : Reg) : s.reg r = u.reg r := by simp only [State.reg, hregs]
  have hrow {row' : Row} (h : (operandLatches u row).row = some row') : row' = row :=
    Option.some.inj (h.symm.trans (operandLatches_row u row))
  have hearly {n : Nat} (hn : 3 ≤ n) : ¬ n ≤ (operandLatches u row).idx := by rw [operandLatches_idx]; omega
  refine ⟨by simp, fun _ => ?_, fun _ => by simp, fun row' _ hrow' hf => ?_, fun row' _ hrow' hw => ?_,
    fun row' _ hrow' hf => ?_, fun _ h => absurd h (hearly (by omega)), fun h => absurd h (hearly (by omega)),
    fun _ h => absurd h (hearly (by omega))⟩
  · unfold operandLatches
    cases row.format <;> exact hword
  · cases hrow hrow'
    unfold operandLatches
    cases hformat : row.format with
    | b => exact absurd hformat hf
    | r | i | d | im => simp [hreg, hword]
  · cases hrow hrow'
    simp [operandLatches, hstore hw, controlSignals, hw, hreg, hword]
  · cases hrow hrow'
    simp [operandLatches, hf, hpc, hword]

/-- After Decode the latches it wrote stay as they are; the later ones agree when what is written into them does. -/
theorem WrittenLatchesAgree.advance {l l' : Latches} (hl : WrittenLatchesAgree l l') (hidx : 2 ≤ l.idx) {n : Nat}
    {taken taken' : Bool} {res res' mem mem' : Word} {nzcv nzcv' : Flags}
    (htaken : ∀ row, 3 ≤ n → l.row = some row → row.format = .b → taken' = taken)
    (hresult : 4 ≤ n → res' = res ∧ nzcv' = nzcv)
    (hload : ∀ row, 5 ≤ n → l.row = some row → row.sig.memRead = true → mem' = mem) :
    WrittenLatchesAgree { l with idx := n, taken := taken, res := res, nzcv := nzcv, mem := mem }
      { l' with idx := n, taken := taken', res := res', nzcv := nzcv', mem := mem' } where
  index := rfl
  fetched _ := hl.fetched (by omega)
  decoded _ := hl.decoded hidx
  operands row _ := hl.operands row hidx
  storeData row _ := hl.storeData row hidx
  target row _ := hl.target row hidx
  taken := htaken
  result := hresult
  loadedData := hload

section Again
variable {t : Table} {v u w : State} {l : Latches} (hl : WrittenLatchesAgree v.lat l) (hflt : u.fault = none)
  (hstep : microStep t v = .next u) (hw : SameInputs u w)
include hl hflt hstep hw

theorem fetch_again (hr : Ready v .fetch) (hidx : v.lat.idx = 0) :
    SameInputs v w ∧ EvaluatesAgain t .fetch v u w l := by
  cases hword : v.program[v.pc.toNat / 4]? with
  | none =>
    cases (microStep_fetch_out hr (List.getElem?_eq_none_iff.1 hword)).symm.trans hstep
    cases hflt
  | some word =>
    cases (microStep_fetch hr word hword).symm.trans hstep
    have hfetch : microLatches t { w with lat := l } .fetch = .ok { l with word := word, idx := 1 } := by
      have hpc : w.pc = v.pc := hw.pc
      have hprog : w.program = v.program := hw.program
      simp [microLatches, State.fetchWord, hpc, hprog, hword]
    refine ⟨⟨hw.regs, hw.pc, hw.program, hw.memCapacity, by omega, by omega⟩, _, hfetch, ?_, ?_⟩
    · constructor <;> simp
    · rintro rfl; rfl

theorem decode_again (ht : Table.wellFormed t = true) (hr : Ready v .decode) (hidx : v.lat.idx = 1) :
    SameInputs v w ∧ EvaluatesAgain t .decode v u w l := by
  have hword : l.word = v.lat.word := hl.fetched (by omega)
  cases hsel : Table.select t v.lat.word with
  | none =>
    cases (microStep_decode_none hr hsel).symm.trans hstep
    cases hflt
  | some row =>
    cases (microStep_decode hr hsel).symm.trans hstep
    have hregs : w.regs = v.regs := hw.regs
    have hpc : w.pc = v.pc := hw.pc
    have hdecode : microLatches t { w with lat := l } .decode = .ok (operandLatches { w with lat := l } row) := by
      simp [microLatches, decodeLatches, hword, hsel]
    have hmem : row ∈ t := (selectBy_mem_matches hsel).1
    refine ⟨⟨hregs, hpc, hw.program, hw.memCapacity, by omega, by omega⟩, _, hdecode, ?_, ?_⟩
    · exact operandLatches_agree hregs hpc hword fun hwrite => format_of_memory_signal ht hmem (.inr hwrite)
    · exact fun hlv => operandLatches_congr row hregs hpc hlv

theorem control_again (hr : Ready v .control) (hidx : v.lat.idx = 2) {row : Row} (hrow : v.lat.row = some row) :
    SameInputs v w ∧ EvaluatesAgain t .control v u w l := by
  have hlrow : l.row = some row := (hl.decoded (by omega)).trans hrow
  by_cases hf : row.format = .b
  · cases (microStep_control_branch hr hrow hf).symm.trans hstep
    have hflags : w.flags = v.flags := hw.flags row (by simp) hrow hf
    have hcontrol : microLatches t { w with lat := l } .control =
        .ok { l with taken := rowTaken row v.flags, idx := 3 } := by
      simp [microLatches, hlrow, hf, hflags]
    refine ⟨⟨hw.regs, hw.pc, hw.program, hw.memCapacity, by omega, by omega⟩, _, hcontrol, ?_, ?_⟩
    · exact hl.advance hidx.ge (fun _ _ _ _ => rfl) (by simp) (by simp)
    · rintro rfl; rfl
  · cases (microStep_control hr hrow hf).symm.trans hstep
    have hcontrol : microLatches t { w with lat := l } .control = .ok { l with idx := 3 } := by
      simp [microLatches, hlrow, hf]
    refine ⟨⟨hw.regs, hw.pc, hw.program, hw.memCapacity, by omega, by omega⟩, _, hcontrol, ?_, ?_⟩
    · refine hl.advance hidx.ge (fun row' _ hrow' hf' => ?_) (by simp) (by simp)
      cases hrow'.symm.trans hrow
      exact absurd hf' hf
    · rintro rfl; rfl

theorem execute_again (hr : Ready v .execute) (hidx : v.lat.idx = 3) {row : Row} (hrow : v.lat.row = some row)
    (hf : row.format ≠ .b) : SameInputs v w ∧ EvaluatesAgain t .execute v u w l := by
  have hlrow : l.row = some row := (hl.decoded (by omega)).trans hrow
  obtain ⟨ha, hb⟩ := hl.operands row (by omega) hrow hf
  rw [microStep_execute hr hrow] at hstep
  cases halu : aluTag v.lat.a v.lat.b row.sig.operation with
  | error f => rw [halu] at hstep; cases hstep; cases hflt
  | ok r =>
    rw [halu] at hstep
    cases hstep
    have hexecute : microLatches t { w with lat := l } .execute =
        .ok { l with res := r.value, nzcv := r.flags, idx := 4 } := by
      simp [microLatches, hlrow, executeLatches, controlSignals, ha, hb, halu]
    refine ⟨⟨hw.regs, hw.pc, hw.program, hw.memCapacity, ?_, by omega⟩, _, hexecute, ?_, ?_⟩
    · intro row' _ hrow' hf'
      cases hrow'.symm.trans hrow
      exact absurd hf' hf
    · refine hl.advance (by omega) (fun row' _ hrow' hf' => ?_) (fun _ => ⟨rfl, rfl⟩) (by simp)
      cases hrow'.symm.trans hrow
      exact absurd hf' hf
    · rintro rfl; rfl

/-- What Memory-Access of a D row leaves, when it does not fault: a load its doubleword, a store the latches. -/
theorem memory_again (ht : Table.wellFormed t = true) (hr : Ready v .memory) (hidx : v.lat.idx = 4) {row : Row}
    (hrow : v.lat.row = some row) (hmem : row ∈ t) (hf : row.format = .d) :
    SameInputs v w ∧ EvaluatesAgain t .memory v u w l := by
  have hlrow : l.row = some row := (hl.decoded (by omega)).trans hrow
  have hnotBranch {row' : Row} (hrow' : v.lat.row = some row') : row'.format ≠ .b := by
    cases hrow'.symm.trans hrow
    rw [hf]
    exact nofun
  have hinputs (hregs : u.regs = v.regs) (hpc : u.pc = v.pc) (hprog : u.program = v.program)
      (hcap : u.memCapacity = v.memCapacity) : SameInputs v w :=
    ⟨hw.regs.trans hregs, hw.pc.trans hpc, hw.program.trans hprog, hw.memCapacity.trans hcap,
      fun _ _ hrow' hf' => absurd hf' (hnotBranch hrow'), by omega⟩
  cases hread : row.sig.memRead with
  | true =>
    rw [microStep_load hr hrow hread (memWrite_of_memRead ht hmem hread)] at hstep
    cases hm : memRead v v.lat.res .b8 with
    | error f => rw [hm] at hstep; cases hstep; cases hflt
    | ok x =>
      rw [hm] at hstep
      cases hstep
      have hwmem : w.mem = v.mem := hw.mem row (by simp) hrow hread
      have hres : l.res = v.lat.res := (hl.result (by omega)).1
      have hcap : w.memCapacity = v.memCapacity := hw.memCapacity
      have hagain : memRead { w with lat := l } l.res .b8 = .ok x := by
        rw [← hm, hres]
        simp only [memRead, hwmem, hcap]
      have hload : microLatches t { w with lat := l } .memory = .ok { l with mem := x, idx := 5 } := by
        simp [microLatches, memoryLatches, hlrow, controlSignals, hread, hagain]
      refine ⟨hinputs rfl rfl rfl rfl, _, hload, ?_, ?_⟩
      · exact hl.advance (by omega) (fun _ _ hrow' hf' => absurd hf' (hnotBranch hrow'))
          (fun _ => hl.result (by omega)) (fun _ _ _ _ => rfl)
      · rintro rfl; rfl
  | false =>
    have hnotLoad {row' : Row} (hrow' : v.lat.row = some row') : row'.sig.memRead ≠ true := by
      cases hrow'.symm.trans hrow
      rw [hread]
      exact Bool.false_ne_true
    rw [microStep_store hr hrow hread (memWrite_of_data ht hmem hf hread)] at hstep
    rcases memWrite_cases v v.lat.res .b8 v.lat.data with ⟨-, hm⟩ | ⟨f, -, hm⟩
    · rw [hm] at hstep
      cases hstep
      have hstore : microLatches t { w with lat := l } .memory = .ok { l with idx := 5 } := by
        simp [microLatches, memoryLatches, hlrow, controlSignals, hread]
      refine ⟨hinputs rfl rfl rfl rfl, _, hstore, ?_, ?_⟩
      · exact hl.advance (by omega) (fun _ _ hrow' hf' => absurd hf' (hnotBranch hrow'))
          (fun _ => hl.result (by omega)) (fun _ _ hrow' hload => absurd hload (hnotLoad hrow'))
      · rintro rfl; rfl
    · rw [hm] at hstep; cases hstep; cases hflt

/-- Every micro-step that does not end its instruction evaluates again. -/
theorem microStep_again (ht : Table.wellFormed t = true) {k : MicroKind} (hr : Ready v k)
    (hrow : ∀ row, 2 ≤ v.lat.idx → v.lat.row = some row → row ∈ t) (hidx : u.lat.idx = v.lat.idx + 1) :
    SameInputs v w ∧ EvaluatesAgain t k v u w l := by
  rcases currentKind_cases hr.kind with ⟨h0, rfl⟩ | ⟨h1, rfl⟩ | ⟨row, hlatched, h2, hk⟩
  · exact fetch_again hl hflt hstep hw hr h0
  · exact decode_again hl hflt hstep hw ht hr h1
  · have hmem := hrow row h2 hlatched
    cases k with
    | fetch => exact absurd (Nat.succ.inj (succ_eq_nextIdx hk (by decide))) (by omega)
    | decode => exact absurd (Nat.succ.inj (succ_eq_nextIdx hk (by decide))) (by omega)
    | control => exact control_again hl hflt hstep hw hr (Nat.succ.inj (succ_eq_nextIdx hk (by decide))) hlatched
    | execute =>
      refine execute_again hl hflt hstep hw hr (Nat.succ.inj (succ_eq_nextIdx hk (by decide))) hlatched ?_
      exact format_of_execute_mem (List.mem_of_getElem? hk)
    | memory =>
      exact memory_again hl hflt hstep hw ht hr (Nat.succ.inj (succ_eq_nextIdx hk (by decide))) hlatched hmem
        (format_of_memory_mem (List.mem_of_getElem? hk))
    | writeBack =>
      cases (microStep_writeBack hr hlatched).symm.trans hstep
      cases hidx
    | branch =>
      cases (microStep_branch hr hlatched).symm.trans hstep
      cases hidx

end Again

/-! ### The micro-steps below the index evaluated again -/

/-- Evaluating one more micro-step. -/
theorem rebuildLatches_succ {t : Table} {n : Nat} {s s' : State} {k : MicroKind} {l : Latches}
    (h : rebuildLatches t n s = .ok s') (hk : currentKind s'.lat = some k) (hl : microLatches t s' k = .ok l) :
    rebuildLatches t (n + 1) s = .ok { s' with lat := l } := by
  induction n generalizing s with
  | zero =>
    cases h
    simp [rebuildLatches, hk, hl]
  | succ n ih =>
    unfold rebuildLatches at h ⊢
    cases hk0 : currentKind s.lat with
    | none =>
      simp only [hk0] at h
      cases h
      cases hk0.symm.trans hk
    | some k0 =>
      simp only [hk0] at h ⊢
      cases hl0 : microLatches t s k0 with
      | error f => rw [hl0] at h; cases h
      | ok l0 => rw [hl0] at h; exact ih h

/-- A run of one more micro-step goes through the state before it. -/
theorem runMicro_snoc {t : Table} {n : Nat} {s u : State} (h : runMicro t (n + 1) s = .next u) :
    ∃ v, runMicro t n s = .next v ∧ (u = v ∨ microStep t v = .next u) := by
  induction n generalizing s with
  | zero =>
    unfold runMicro at h
    refine ⟨s, rfl, ?_⟩
    split at h
    · cases h; exact .inl rfl
    · split at h <;> cases h
      next hstep => exact .inr hstep
  | succ n ih =>
    unfold runMicro at h ⊢
    split at h
    next hstop => exact ⟨s, by rw [if_pos hstop], by cases h; exact .inl rfl⟩
    next hgo =>
      rw [if_neg hgo]
      cases hstep : microStep t s with
      | next v => simp only [hstep] at h ⊢; exact ih h
      | fault f => simp only [hstep] at h; cases h
      | refused r => simp only [hstep] at h; cases h

/-- Inside an instruction that began at the boundary `s`: its row is one of the table, and evaluating its micro-steps
again from blank latches gives those it has written, and all of them if it began with blank latches. -/
structure Rebuilds (t : Table) (s v : State) : Prop where
  row_mem : ∀ row, 2 ≤ v.lat.idx → v.lat.row = some row → row ∈ t
  rebuilt : ∀ w, SameInputs v w → ∃ l,
    rebuildLatches t v.lat.idx { w with lat := Latches.blank } = .ok { w with lat := l } ∧
    WrittenLatchesAgree v.lat l ∧ (s.lat = Latches.blank → l = v.lat)

/-- A machine at a boundary has nothing to evaluate again. -/
theorem Rebuilds.of_boundary {t : Table} {s : State} (hb : AtBoundary s) : Rebuilds t s s := by
  have hidx : s.lat.idx = 0 := hb
  refine ⟨fun _ h => by omega, fun w _ => ⟨Latches.blank, ?_, ?_, Eq.symm⟩⟩
  · rw [hidx]; rfl
  · constructor <;> simp [hidx, Latches.blank]

/-- A micro-step that does not end the instruction can be evaluated again after those before it. -/
theorem Rebuilds.microStep {t : Table} {s v u : State} (ht : Table.wellFormed t = true) (h : Rebuilds t s v)
    (hstep : microStep t v = .next u) (hflt : u.fault = none) (hidx : u.lat.idx = v.lat.idx + 1) : Rebuilds t s u := by
  refine ⟨row_mem_of_microStep hstep h.row_mem hidx, fun w hw => ?_⟩
  rcases microStep_cases hstep with ⟨-, rfl⟩ | ⟨k, hr, -⟩
  · omega
  · obtain ⟨hsame, -⟩ := microStep_again (.refl v.lat) hflt hstep hw ht hr h.row_mem hidx
    obtain ⟨l, hbuilt, hl, hblank⟩ := h.rebuilt w hsame
    obtain ⟨-, l', hagain, hl', hexact⟩ := microStep_again hl hflt hstep hw ht hr h.row_mem hidx
    refine ⟨l', ?_, hl', fun hs => hexact (hblank hs)⟩
    rw [hidx]
    exact rebuildLatches_succ (s' := { w with lat := l }) hbuilt (hl.currentKind_eq.trans hr.kind) hagain

/-- No more micro-steps than the index says bring a run from a boundary to it. -/
theorem runMicro_idx_le {t : Table} {n : Nat} {s u : State} (hb : AtBoundary s) (h : runMicro t n s = .next u) :
    u.lat.idx ≤ n := by
  induction n generalizing u with
  | zero => cases h; exact (show s.lat.idx = 0 from hb).le
  | succ n ih =>
    obtain ⟨v, hv, rfl | hstep⟩ := runMicro_snoc h
    · exact (ih hv).trans (Nat.le_succ n)
    · exact (microStep_idx_le hstep).trans (Nat.succ_le_succ (ih hv))

/-- A run of as many micro-steps as the index says has been inside one instruction, and can be evaluated again. -/
theorem rebuilds_of_runMicro {t : Table} {n : Nat} {s u : State} (ht : Table.wellFormed t = true) (hb : AtBoundary s)
    (h : runMicro t n s = .next u) (hflt : u.fault = none) (hidx : u.lat.idx = n) : Rebuilds t s u := by
  induction n generalizing u with
  | zero => cases h; exact .of_boundary hb
  | succ n ih =>
    obtain ⟨v, hv, rfl | hstep⟩ := runMicro_snoc h
    · have hle := runMicro_idx_le hb hv
      omega
    · have hle := runMicro_idx_le hb hv
      have hnext := microStep_idx_le hstep
      have hvidx : v.lat.idx = n := by omega
      have hvflt : v.fault = none := by
        rcases microStep_cases hstep with ⟨-, rfl⟩ | ⟨k, hr, -⟩
        · exact hflt
        · exact hr.fault
      exact (ih hv hvflt hvidx).microStep ht hstep hflt (by omega)

/-- Settles O58: by induction on the micro-steps of the instruction, each evaluated again on the snapshot's state. -/
theorem restoreRebuildsLatches : Obligations.RestoreRebuildsLatches := by
  intro t s u n ht hb hrun hflt hidx
  have hsame : SameInputs u u := ⟨rfl, rfl, rfl, rfl, fun _ _ _ _ => rfl, fun _ _ _ _ => rfl⟩
  obtain ⟨l, hbuilt, hl, hblank⟩ := (rebuilds_of_runMicro ht hb hrun hflt hidx).rebuilt u hsame
  have hrestored : u.restored u.snapshot = { u with lat := Latches.blank } := by
    simp only [State.restored, State.snapshot, hflt]
  refine ⟨{ u with lat := l }, ?_, rfl, hl, fun hs => by rw [hblank hs]⟩
  have hrebuilt : rebuildLatches t u.snapshot.idx (u.restored u.snapshot) = .ok { u with lat := l } := by
    rw [hrestored]
    exact hbuilt
  unfold State.restore
  rw [hrebuilt]
  exact if_pos hl.index

end Sys2Proof.Machine

/-! PROOFS. The assembler on canonical text (30_encoding.md R106 to R111): each token reads back as the operand it was
written for, and the fields put together are the encoding. -/

namespace Sys2Proof.Machine

open Sys2Proof

/-! ### Blanks and commas (30_encoding.md R106) -/

/-- A text that begins and ends with a character other than a blank. -/
structure Bounded (t : Text) : Prop where
  first : ∃ c, t.head? = some c ∧ isBlank c = false
  last : ∃ c, t.getLast? = some c ∧ isBlank c = false

/-- Nothing is dropped before a first character that is no blank. -/
theorem dropBlanks_eq_self {t : Text} (h : ∃ c, t.head? = some c ∧ isBlank c = false) :
    t.dropWhile isBlank = t := by
  obtain ⟨c, hc, hblank⟩ := h
  cases t with
  | nil => rfl
  | cons d t => cases hc; simp [hblank]

theorem Bounded.trim_eq {t : Text} (h : Bounded t) : trim t = t := by
  have hlast : t.reverse.dropWhile isBlank = t.reverse :=
    dropBlanks_eq_self (by rw [List.head?_reverse]; exact h.last)
  rw [trim, dropBlanks_eq_self h.first, hlast, List.reverse_reverse]

theorem Bounded.append {t u : Text} (ht : Bounded t) (hu : Bounded u) (m : Text) : Bounded (t ++ m ++ u) := by
  obtain ⟨c, hc, hcb⟩ := ht.first
  obtain ⟨d, hd, hdb⟩ := hu.last
  exact ⟨⟨c, by simp [hc], hcb⟩, ⟨d, by simp [hd], hdb⟩⟩

/-- Trimming drops a leading blank. -/
theorem trim_space (t : Text) : trim (' ' :: t) = trim t := by
  simp [trim, isBlank]

theorem splitComma_of_noComma {t : Text} (h : ',' ∉ t) : splitComma t = [t] := by
  induction t with
  | nil => rfl
  | cons c t ih =>
    obtain ⟨hc, ht⟩ := List.ne_and_not_mem_of_not_mem_cons h
    simp [splitComma, hc.symm, ih ht]

theorem splitComma_append {t : Text} (h : ',' ∉ t) (u : Text) : splitComma (t ++ ',' :: u) = t :: splitComma u := by
  induction t with
  | nil => simp [splitComma]
  | cons c t ih =>
    obtain ⟨hc, ht⟩ := List.ne_and_not_mem_of_not_mem_cons h
    simp [splitComma, hc.symm, ih ht]

/-- A text that stands for one operand: without a comma, and without blanks around it. -/
structure OperandText (t : Text) : Prop extends Bounded t where
  noComma : ',' ∉ t

theorem splitComma_ne_nil (t : Text) : splitComma t ≠ [] := by
  cases t with
  | nil => exact List.cons_ne_nil _ _
  | cons c t => unfold splitComma; split; exacts [List.cons_ne_nil _ _, by split <;> exact List.cons_ne_nil _ _]

/-- A leading blank changes only the first piece between commas, which is trimmed. -/
theorem map_trim_splitComma_space (t : Text) : (splitComma (' ' :: t)).map trim = (splitComma t).map trim := by
  rw [splitComma, if_neg (by decide)]
  cases hpieces : splitComma t with
  | nil => exact absurd hpieces (splitComma_ne_nil t)
  | cons h r => simp [trim_space]

/-- The operands of a text that holds them with a comma and a space between. -/
theorem map_trim_splitComma {ops : List Text} (hne : ops ≠ []) (hops : ∀ o ∈ ops, OperandText o) :
    (splitComma (commaText.intercalate ops)).map trim = ops := by
  induction ops with
  | nil => exact absurd rfl hne
  | cons o os ih =>
    obtain ⟨ho, hos⟩ := List.forall_mem_cons.1 hops
    cases os with
    | nil => simp [splitComma_of_noComma ho.noComma, ho.trim_eq]
    | cons o' os =>
      have hrest := ih (List.cons_ne_nil _ _) hos
      rw [List.intercalate_cons_cons, List.append_assoc,
        show commaText ++ commaText.intercalate (o' :: os) = ',' :: ' ' :: commaText.intercalate (o' :: os) from rfl,
        splitComma_append ho.noComma, List.map_cons, ho.trim_eq, map_trim_splitComma_space, hrest]

theorem bounded_intercalate {ops : List Text} (hne : ops ≠ []) (hops : ∀ o ∈ ops, OperandText o) :
    Bounded (commaText.intercalate ops) := by
  induction ops with
  | nil => exact absurd rfl hne
  | cons o os ih =>
    obtain ⟨ho, hos⟩ := List.forall_mem_cons.1 hops
    cases os with
    | nil => simpa using ho.toBounded
    | cons o' os =>
      rw [List.intercalate_cons_cons]
      exact ho.toBounded.append (ih (List.cons_ne_nil _ _) hos) commaText

/-- A line of a mnemonic and operands splits into them. -/
theorem operandTexts_eq {ops : List Text} (hne : ops ≠ []) (hops : ∀ o ∈ ops, OperandText o) :
    operandTexts (commaText.intercalate ops) = ops := by
  have hb := bounded_intercalate hne hops
  have hnil : commaText.intercalate ops ≠ [] := by
    obtain ⟨c, hc, -⟩ := hb.first
    rintro h
    rw [h] at hc
    cases hc
  rw [operandTexts, if_neg hnil, map_trim_splitComma hne hops]

/-- A mnemonic, a space and the rest of a line: the first word and what follows. -/
theorem splitWord_eq {mnemonic rest : Text} (hm : ∀ c ∈ mnemonic, isBlank c = false) (hrest : Bounded rest) :
    splitWord (mnemonic ++ ' ' :: rest) = (mnemonic, rest) := by
  have hm' : ∀ c ∈ mnemonic, (!isBlank c) = true := fun c hc => by rw [hm c hc]; rfl
  have htake : (' ' :: rest).takeWhile (!isBlank ·) = [] := rfl
  have hdrop : (' ' :: rest).dropWhile (!isBlank ·) = ' ' :: rest := rfl
  rw [splitWord, List.takeWhile_append_of_pos hm', List.dropWhile_append_of_pos hm', htake, hdrop, List.append_nil,
    trim_space, hrest.trim_eq]

/-! ### The lines of a row (30_encoding.md R106 to R109) -/

/-- Every mnemonic of the default table is a word. -/
theorem mnemonic_word {row : Row} (hrow : row ∈ idtDefault) :
    (∀ c ∈ row.mnemonic, isBlank c = false) ∧ row.mnemonic ≠ [] := by
  have hall : idtDefault.all (fun r => r.mnemonic.all (!isBlank ·) && !r.mnemonic.isEmpty) = true := by decide
  simpa using List.all_eq_true.1 hall row hrow

/-- The first row with the mnemonic of a row of the default table is that row. -/
theorem find_mnemonic {row : Row} (hrow : row ∈ idtDefault) :
    (idtDefault.find? fun r => r.mnemonic == row.mnemonic) = some row := by
  obtain ⟨hwf, -⟩ := defaultTableIsUnambiguous
  obtain ⟨-, ⟨-, hnodup⟩, -⟩ := (wellFormedTableMeansSevenClauses.1 idtDefault).1 hwf
  cases hfind : idtDefault.find? fun r => r.mnemonic == row.mnemonic with
  | none => exact absurd BEq.rfl (List.find?_eq_none.1 hfind row hrow)
  | some r =>
    have hbeq := List.find?_some hfind
    have heq : r.mnemonic = row.mnemonic := beq_iff_eq.1 hbeq
    rw [List.inj_on_of_nodup_map hnodup (List.mem_of_find?_eq_some hfind) hrow heq]

/-- A line of a row's mnemonic and operands assembles to the row's opcode and the operands' fields. -/
theorem assemble_line {row : Row} (hrow : row ∈ idtDefault) {ops : List Text} {fs : List FieldValue} (hne : ops ≠ [])
    (hops : ∀ o ∈ ops, OperandText o) (hfields : operandFields row ops = some fs) :
    assemble idtDefault (row.mnemonic ++ ' ' :: commaText.intercalate ops) = putFields 0 (opcodeField row :: fs) := by
  obtain ⟨hword, hnil⟩ := mnemonic_word hrow
  have hrest := bounded_intercalate hne hops
  have hm : Bounded row.mnemonic :=
    ⟨⟨_, List.head?_eq_some_head hnil, hword _ (List.head_mem hnil)⟩,
      ⟨_, List.getLast?_eq_some_getLast hnil, hword _ (List.getLast_mem hnil)⟩⟩
  have hline : trim (row.mnemonic ++ ' ' :: commaText.intercalate ops) =
      row.mnemonic ++ ' ' :: commaText.intercalate ops := by
    simpa using (hm.append hrest [' ']).trim_eq
  simp only [assemble, hline, splitWord_eq hword hrest, find_mnemonic hrow, operandTexts_eq hne hops, hfields]

/-! ### Registers and immediates as text (30_encoding.md R106, R111) -/

/-- A digit's character is one, and has the digit's value. -/
theorem digitChar_spec : ∀ n < 10, isDigitChar (digitChar n) = true ∧ (digitChar n).toNat - 48 = n := by decide

theorem isDigitChar_of_mem_decimalDigits {k n : Nat} {c : Char} (h : c ∈ decimalDigits k n) :
    isDigitChar c = true := by
  induction k generalizing n with
  | zero => cases h
  | succ k ih =>
    unfold decimalDigits at h
    split at h
    next hn => rw [List.mem_singleton.1 h]; exact (digitChar_spec n hn).1
    next hn =>
      rcases List.mem_append.1 h with h | h
      · exact ih h
      · rw [List.mem_singleton.1 h]; exact (digitChar_spec _ (Nat.mod_lt n (by decide))).1

/-- A number's digits read back before whatever follows. -/
theorem decimalValue_decimalDigits {k n : Nat} (h : n < 10 ^ k) (rest : Text) :
    decimalValue (decimalDigits k n ++ rest) 0 = decimalValue rest n := by
  induction k generalizing n rest with
  | zero =>
    obtain rfl : n = 0 := Nat.lt_one_iff.1 h
    rfl
  | succ k ih =>
    have hdigit {d acc : Nat} (hd : d < 10) (rest : Text) :
        decimalValue (digitChar d :: rest) acc = decimalValue rest (10 * acc + d) := by
      obtain ⟨hc, hv⟩ := digitChar_spec d hd
      simp [decimalValue, hc, hv]
    unfold decimalDigits
    split
    next hn => simpa using hdigit (acc := 0) hn rest
    next hn =>
      have hk : n / 10 < 10 ^ k := by rw [Nat.pow_succ] at h; omega
      rw [List.append_assoc, List.singleton_append, ih hk, hdigit (Nat.mod_lt n (by decide)), Nat.div_add_mod]

theorem natText_ne_nil (n : Nat) : natText n ≠ [] := by
  unfold natText decimalDigits
  split <;> simp

theorem parseNat_natText {n : Nat} (h : n < 10 ^ 20) : parseNat (natText n) = some n := by
  have hvalue := decimalValue_decimalDigits h []
  rw [List.append_nil] at hvalue
  rw [parseNat, if_neg (natText_ne_nil n), natText, hvalue]
  rfl

/-- A digit is no mark of the assembly language. -/
theorem ne_of_isDigitChar {c d : Char} (hc : isDigitChar c = true) (hd : isDigitChar d = false) : c ≠ d := by
  rintro rfl
  rw [hc] at hd
  cases hd

theorem parseInt_intText {i : Int} (h : i.natAbs < 10 ^ 20) : parseInt (intText i) = some i := by
  have hnat := parseNat_natText h
  unfold intText
  split
  next hneg =>
    simp [parseInt, hnat, abs_of_neg hneg]
  next hpos =>
    unfold parseInt
    split
    next d hd =>
      have hmem : '-' ∈ natText i.natAbs := hd ▸ List.mem_cons_self
      exact absurd rfl (ne_of_isDigitChar (isDigitChar_of_mem_decimalDigits hmem) (by decide))
    next => simp [hnat]; omega

/-- The characters of an integer's text. -/
theorem mem_intText {i : Int} {c : Char} (h : c ∈ intText i) : c = '-' ∨ isDigitChar c = true := by
  unfold intText at h
  split at h
  · rcases List.mem_cons.1 h with rfl | h
    · exact .inl rfl
    · exact .inr (isDigitChar_of_mem_decimalDigits h)
  · exact .inr (isDigitChar_of_mem_decimalDigits h)

/-- An integer's text holds none of the marks around operands. -/
theorem ne_of_mem_intText {i : Int} {c d : Char} (h : c ∈ intText i) (hd : d ∈ [' ', '\t', ',', '[', ']', '#']) :
    c ≠ d := by
  obtain ⟨hminus, hdigit⟩ : d ≠ '-' ∧ isDigitChar d = false := by
    have hall : [' ', '\t', ',', '[', ']', '#'].all (fun d => d != '-' && !isDigitChar d) = true := by decide
    simpa using List.all_eq_true.1 hall d hd
  rcases mem_intText h with rfl | hc
  · exact hminus.symm
  · exact ne_of_isDigitChar hc hdigit

/-- A nonempty text without blanks and commas. -/
structure Solid (t : Text) : Prop where
  nonempty : t ≠ []
  solid : ∀ c ∈ t, isBlank c = false ∧ c ≠ ','

/-- It stands for one operand. -/
theorem Solid.operandText {t : Text} (h : Solid t) : OperandText t where
  first := ⟨_, List.head?_eq_some_head h.nonempty, (h.solid _ (List.head_mem h.nonempty)).1⟩
  last := ⟨_, List.getLast?_eq_some_getLast h.nonempty, (h.solid _ (List.getLast_mem h.nonempty)).1⟩
  noComma hc := (h.solid _ hc).2 rfl

theorem Solid.reverse {t : Text} (h : Solid t) : Solid t.reverse :=
  ⟨by simpa using h.nonempty, fun c hc => h.solid c (List.mem_reverse.1 hc)⟩

theorem Solid.append {t u : Text} (ht : Solid t) (hu : Solid u) : Solid (t ++ u) :=
  ⟨List.append_ne_nil_of_left_ne_nil ht.nonempty u, fun c hc => (List.mem_append.1 hc).elim (ht.solid c) (hu.solid c)⟩

/-- A single character that is no blank and no comma. -/
theorem solid_singleton {c : Char} (hblank : isBlank c = false) (hcomma : c ≠ ',') : Solid [c] :=
  ⟨List.cons_ne_nil _ _, fun d hd => by rw [List.mem_singleton.1 hd]; exact ⟨hblank, hcomma⟩⟩

theorem solid_intText (i : Int) : Solid (intText i) where
  nonempty := by
    unfold intText
    split
    · exact List.cons_ne_nil _ _
    · exact natText_ne_nil _
  solid c hc := by
    have hne {d : Char} (hd : d ∈ [' ', '\t', ',', '[', ']', '#']) : c ≠ d := ne_of_mem_intText hc hd
    have hspace : c ≠ ' ' := hne (by simp)
    have htab : c ≠ '\t' := hne (by simp)
    exact ⟨by simp [isBlank, hspace, htab], hne (by simp)⟩

theorem solid_immText (i : Int) : Solid (immText i) :=
  (solid_singleton (by decide) (by decide)).append (solid_intText i)

theorem solid_regText (r : Reg) : Solid (regText r) := by
  unfold regText
  split
  · exact ⟨by decide, by simp [isBlank]⟩
  · have hnat : Solid (natText r.toNat) := solid_intText r.toNat
    exact (solid_singleton (by decide) (by decide)).append hnat

/-- The text of a register reads back, also behind the bracket of an address (R24, R106). -/
theorem parseReg_regText : ∀ r : Reg, parseReg (regText r) = some r ∧ parseReg ('[' :: regText r) = some r := by
  decide

/-- A leading character that the text does not hold is not dropped. -/
theorem dropLead_of_not_mem {c : Char} {t : Text} (h : c ∉ t) : dropLead c t = t := by
  cases t with
  | nil => rfl
  | cons d t => exact if_neg fun he : d = c => h (he ▸ List.mem_cons_self)

/-- The decorations before an immediate are dropped. -/
theorem dropLead_immediate {t : Text} (h : Solid t) : dropLead '#' (dropLead '[' ('#' :: t)) = t :=
  h.operandText.toBounded.trim_eq

/-- An immediate's text reads back (R106). -/
theorem parseImm_immText {i : Int} (h : i.natAbs < 10 ^ 20) : parseImm (immText i) = some i := by
  have hno : ']' ∉ (intText i).reverse := fun hmem =>
    ne_of_mem_intText (List.mem_reverse.1 hmem) (d := ']') (by simp) rfl
  rw [parseImm, immText, dropLead_immediate (solid_intText i), dropTrail, dropLead_of_not_mem hno,
    List.reverse_reverse, parseInt_intText h]

/-- It does so before the bracket of an address. -/
theorem parseImm_immText_bracket {i : Int} (h : i.natAbs < 10 ^ 20) : parseImm (immText i ++ [']']) = some i := by
  have hsolid : Solid (intText i ++ [']']) := (solid_intText i).append (solid_singleton (by decide) (by decide))
  have hdrop : dropTrail ']' (intText i ++ [']']) = intText i := by
    rw [dropTrail, List.reverse_append]
    change (trim (intText i).reverse).reverse = _
    rw [(solid_intText i).reverse.operandText.toBounded.trim_eq, List.reverse_reverse]
  rw [parseImm, immText, List.cons_append, dropLead_immediate hsolid, hdrop, parseInt_intText h]

/-- The suffix of MOVZ reads back as its shift group (R107, R108). -/
theorem parseShiftGroup_suffix : ∀ hw : BitVec 2,
    parseShiftGroup ("LSL ".toList ++ immText (16 * hw.toNat : Nat)) = some (hw.toNat : Int) := by
  decide

theorem operandText_suffix (i : Int) : OperandText ("LSL ".toList ++ immText i) := by
  have hword : Solid "LSL".toList := ⟨by decide, by simp [isBlank]⟩
  have himm := (solid_immText i).operandText
  exact ⟨hword.operandText.toBounded.append himm.toBounded [' '], by simpa using himm.noComma⟩

/-! ### The fields of a word put together (30_encoding.md R83 to R87, R109) -/

/-- A bit after fields were written one after another over a word that has it as given. -/
def fieldBit : List FieldValue → Nat → Bool → Bool
  | [], _, b => b
  | f :: fs, i, b => fieldBit fs i (if f.low ≤ i ∧ i ≤ f.high then f.value.getLsbD (i - f.low) else b)

/-- `putFields` writes its fields one after another. -/
theorem putFields_eq {fs : List FieldValue} {w r : InstrWord} (hrange : ∀ f ∈ fs, f.low ≤ f.high ∧ f.high ≤ 31)
    (hbits : ∀ i < 32, fieldBit fs i (w.getLsbD i) = r.getLsbD i) : putFields w fs = .ok r := by
  induction fs generalizing w with
  | nil => exact congrArg Except.ok (BitVec.eq_of_getLsbD_eq hbits)
  | cons f fs ih =>
    obtain ⟨hf, hfs⟩ := List.forall_mem_cons.1 hrange
    obtain ⟨w', hw', hbits'⟩ := codecSet_bits w f.value hf
    simp only [putFields, hw']
    refine ih hfs fun i hi => ?_
    rw [hbits' i hi]
    exact hbits i hi

theorem putFields_register (opcode : BitVec 11) (rd rn rm : Reg) :
    putFields 0 [⟨opcode.setWidth 32, 21, 31⟩, regField 0 rd, regField 5 rn, regField 16 rm] =
      .ok (encodeR opcode rm 0 rn rd) := by
  refine putFields_eq (by simp [regField]) fun i hi => ?_
  simp only [fieldBit, regField, encodeR, BitVec.getLsbD_append, BitVec.getLsbD_setWidth]
  interval_cases i <;> simp

theorem putFields_shift (opcode : BitVec 11) (rd rn : Reg) (shamt : BitVec 6) :
    putFields 0 [⟨opcode.setWidth 32, 21, 31⟩, regField 0 rd, regField 5 rn, immField 10 15 shamt.toNat] =
      .ok (encodeR opcode 0 shamt rn rd) := by
  refine putFields_eq (by simp [regField, immField]) fun i hi => ?_
  simp only [fieldBit, regField, immField, encodeR, BitVec.getLsbD_append, BitVec.getLsbD_setWidth,
    BitVec.ofInt_natCast, BitVec.ofNat_toNat]
  interval_cases i <;> simp

theorem putFields_immediate (opcode : BitVec 10) (rd rn : Reg) (imm12 : BitVec 12) :
    putFields 0 [⟨opcode.setWidth 32, 22, 31⟩, regField 0 rd, regField 5 rn, immField 10 21 imm12.toNat] =
      .ok (encodeI opcode imm12 rn rd) := by
  refine putFields_eq (by simp [regField, immField]) fun i hi => ?_
  simp only [fieldBit, regField, immField, encodeI, BitVec.getLsbD_append, BitVec.getLsbD_setWidth,
    BitVec.ofInt_natCast, BitVec.ofNat_toNat]
  interval_cases i <;> simp

/-- A signed immediate is written with its sign, of which the field keeps its own bits (R108). -/
theorem getElem_ofInt_toInt {n i : Nat} (x : BitVec n) (hn : i < n) (hi : i < 32) :
    (BitVec.ofInt 32 x.toInt)[i] = x[i] := by
  rw [← BitVec.getLsbD_eq_getElem, show BitVec.ofInt 32 x.toInt = x.signExtend 32 from rfl, BitVec.getLsbD_signExtend]
  simp [hn, hi]

theorem putFields_data (opcode : BitVec 11) (rt rn : Reg) (off9 : BitVec 9) :
    putFields 0 [⟨opcode.setWidth 32, 21, 31⟩, regField 0 rt, regField 5 rn, immField 12 20 off9.toInt] =
      .ok (encodeD opcode off9 rn rt) := by
  refine putFields_eq (by simp [regField, immField]) fun i hi => ?_
  simp only [fieldBit, regField, immField, encodeD, BitVec.getLsbD_append, BitVec.getLsbD_setWidth]
  interval_cases i <;> simp [getElem_ofInt_toInt]

theorem putFields_branch (opcode : BitVec 6) (off26 : BitVec 26) :
    putFields 0 [⟨opcode.setWidth 32, 26, 31⟩, immField 0 25 off26.toInt] = .ok (encodeB opcode off26) := by
  refine putFields_eq (by simp [immField]) fun i hi => ?_
  simp only [fieldBit, immField, encodeB, BitVec.getLsbD_append, BitVec.getLsbD_setWidth]
  interval_cases i <;> simp [getElem_ofInt_toInt]

theorem putFields_move (opcode : BitVec 9) (rd : Reg) (imm16 : BitVec 16) :
    putFields 0 [⟨opcode.setWidth 32, 23, 31⟩, regField 0 rd, immField 5 20 imm16.toNat] =
      .ok (encodeIM opcode 0 imm16 rd) := by
  refine putFields_eq (by simp [regField, immField]) fun i hi => ?_
  simp only [fieldBit, regField, immField, encodeIM, BitVec.getLsbD_append, BitVec.getLsbD_setWidth,
    BitVec.ofInt_natCast, BitVec.ofNat_toNat]
  interval_cases i <;> simp

theorem putFields_moveShifted (opcode : BitVec 9) (rd : Reg) (imm16 : BitVec 16) (hw : BitVec 2) :
    putFields 0 [⟨opcode.setWidth 32, 23, 31⟩, regField 0 rd, immField 5 20 imm16.toNat, immField 21 22 hw.toNat] =
      .ok (encodeIM opcode hw imm16 rd) := by
  refine putFields_eq (by simp [regField, immField]) fun i hi => ?_
  simp only [fieldBit, regField, immField, encodeIM, BitVec.getLsbD_append, BitVec.getLsbD_setWidth,
    BitVec.ofInt_natCast, BitVec.ofNat_toNat]
  interval_cases i <;> simp

/-! ### Canonical text as operands between commas (30_encoding.md R107, R111) -/

theorem textR_eq (mnemonic : Text) (rd rn rm : Reg) :
    textR mnemonic rd rn rm = mnemonic ++ ' ' :: commaText.intercalate [regText rd, regText rn, regText rm] := by
  simp [textR, List.intercalate_cons_cons]

theorem textShift_eq (mnemonic : Text) (rd rn : Reg) (shamt : BitVec 6) : textShift mnemonic rd rn shamt =
    mnemonic ++ ' ' :: commaText.intercalate [regText rd, regText rn, immText shamt.toNat] := by
  simp [textShift, List.intercalate_cons_cons]

theorem textI_eq (mnemonic : Text) (rd rn : Reg) (imm12 : BitVec 12) : textI mnemonic rd rn imm12 =
    mnemonic ++ ' ' :: commaText.intercalate [regText rd, regText rn, immText imm12.toNat] := by
  simp [textI, List.intercalate_cons_cons]

theorem textD_eq (mnemonic : Text) (rt rn : Reg) (off9 : BitVec 9) : textD mnemonic rt rn off9 =
    mnemonic ++ ' ' :: commaText.intercalate [regText rt, '[' :: regText rn, immText off9.toInt ++ [']']] := by
  simp [textD, List.intercalate_cons_cons]

theorem textB_eq (mnemonic : Text) (off26 : BitVec 26) :
    textB mnemonic off26 = mnemonic ++ ' ' :: commaText.intercalate [immText off26.toInt] := by
  simp [textB]

theorem textIM_eq (mnemonic : Text) (rd : Reg) (imm16 : BitVec 16) : textIM mnemonic rd imm16 0 =
    mnemonic ++ ' ' :: commaText.intercalate [regText rd, immText imm16.toNat] := by
  simp [textIM, List.intercalate_cons_cons]

theorem textIM_eq_shifted (mnemonic : Text) (rd : Reg) (imm16 : BitVec 16) {hw : BitVec 2} (hhw : hw ≠ 0) :
    textIM mnemonic rd imm16 hw = mnemonic ++ ' ' ::
      commaText.intercalate [regText rd, immText imm16.toNat, "LSL ".toList ++ immText (16 * hw.toNat : Nat)] := by
  rw [textIM, if_neg hhw]
  simp [List.intercalate_cons_cons]

/-- A field of at most 32 bits is short enough for the digits of its text, read without its sign … -/
theorem natAbs_toNat_lt {n : Nat} (x : BitVec n) (hn : n ≤ 32) : (x.toNat : Int).natAbs < 10 ^ 20 := by
  have hpow : 2 ^ n ≤ 2 ^ 32 := Nat.pow_le_pow_right (by decide) hn
  have hx := x.isLt
  rw [Int.natAbs_natCast]
  omega

/-- … and with it. -/
theorem natAbs_toInt_lt {n : Nat} (x : BitVec n) (hn : n ≤ 32) : x.toInt.natAbs < 10 ^ 20 := by
  have hpow : 2 ^ n ≤ 2 ^ 32 := Nat.pow_le_pow_right (by decide) hn
  have hx := x.isLt
  rw [BitVec.toInt_eq_toNat_cond]
  split <;> omega

/-! ### Every instruction's canonical text (30_encoding.md R110) -/

/-- The row of an instruction is one of the default table. -/
theorem row_mem_idtDefault (i : Instr) : i.row ∈ idtDefault :=
  (selectBy_mem_matches (select_default_eq_some_iff.2 ⟨i, decode_encode i, rfl⟩)).1

/-- The assembler gives an instruction's encoding when the operands of its text read as fields that, put together,
are the encoding. -/
theorem assemble_instrText {i : Instr} {ops : List Text} {fs : List FieldValue} {opcode : FieldValue}
    (htext : instrText i = i.row.mnemonic ++ ' ' :: commaText.intercalate ops) (hne : ops ≠ [])
    (hops : ∀ o ∈ ops, OperandText o) (hfields : operandFields i.row ops = some fs)
    (hopcode : opcodeField i.row = opcode) (hput : putFields 0 (opcode :: fs) = .ok (encode i)) :
    assemble idtDefault (instrText i) = .ok (encode i) := by
  rw [htext, assemble_line (row_mem_idtDefault i) hne hops hfields, hopcode, hput]

/-- An R-format instruction with three registers. -/
theorem RegisterInstr.assembles {mk : Reg → Reg → Reg → Instr} {row : Row} {opcode : BitVec 11} {op : AluOp}
    (h : RegisterInstr mk row opcode op) (rd rn rm : Reg)
    (hopcode : opcodeField row = ⟨opcode.setWidth 32, 21, 31⟩ := by rfl) :
    assemble idtDefault (instrText (mk rd rn rm)) = .ok (encode (mk rd rn rm)) := by
  have hrow := h.row_eq rd rn rm
  refine assemble_instrText (ops := [regText rd, regText rn, regText rm])
    (fs := [regField 0 rd, regField 5 rn, regField 16 rm]) ?_ (by simp) ?_ ?_ (hrow ▸ hopcode) ?_
  · rw [instrText, hrow, h.encode_eq, encodeR, disassemble_R row h.format h.noShift, textR_eq]
  · simp [(solid_regText _).operandText]
  · simp [operandFields, hrow, h.format, h.noShift, parseReg_regText]
  · rw [h.encode_eq, putFields_register]

/-- An R-format instruction with a shift amount. -/
theorem ShiftInstr.assembles {mk : Reg → Reg → BitVec 6 → Instr} {row : Row} {opcode : BitVec 11} {op : AluOp}
    (h : ShiftInstr mk row opcode op) (rd rn : Reg) (shamt : BitVec 6)
    (hopcode : opcodeField row = ⟨opcode.setWidth 32, 21, 31⟩ := by rfl) :
    assemble idtDefault (instrText (mk rd rn shamt)) = .ok (encode (mk rd rn shamt)) := by
  have hrow := h.row_eq rd rn shamt
  have himm := parseImm_immText (natAbs_toNat_lt shamt (by decide))
  refine assemble_instrText (ops := [regText rd, regText rn, immText shamt.toNat])
    (fs := [regField 0 rd, regField 5 rn, immField 10 15 shamt.toNat]) ?_ (by simp) ?_ ?_ (hrow ▸ hopcode) ?_
  · rw [instrText, hrow, h.encode_eq, encodeR, disassemble_shift row h.format h.shift, textShift_eq]
  · simp [(solid_regText _).operandText, (solid_immText _).operandText]
  · simp [operandFields, hrow, h.format, h.shift, parseReg_regText, himm]
  · rw [h.encode_eq, putFields_shift]

/-- An I-format instruction. -/
theorem ImmediateInstr.assembles {mk : Reg → Reg → BitVec 12 → Instr} {row : Row} {opcode : BitVec 10} {op : AluOp}
    (h : ImmediateInstr mk row opcode op) (rd rn : Reg) (imm12 : BitVec 12)
    (hopcode : opcodeField row = ⟨opcode.setWidth 32, 22, 31⟩ := by rfl) :
    assemble idtDefault (instrText (mk rd rn imm12)) = .ok (encode (mk rd rn imm12)) := by
  have hrow := h.row_eq rd rn imm12
  have himm := parseImm_immText (natAbs_toNat_lt imm12 (by decide))
  refine assemble_instrText (ops := [regText rd, regText rn, immText imm12.toNat])
    (fs := [regField 0 rd, regField 5 rn, immField 10 21 imm12.toNat]) ?_ (by simp) ?_ ?_ (hrow ▸ hopcode) ?_
  · rw [instrText, hrow, h.encode_eq, encodeI, disassemble_I row h.format, textI_eq]
  · simp [(solid_regText _).operandText, (solid_immText _).operandText]
  · simp [operandFields, hrow, h.format, parseReg_regText, himm]
  · rw [h.encode_eq, putFields_immediate]

/-- A load or store: the brackets of its address are dropped where its register and its offset are read. -/
theorem DataInstr.assembles {mk : Reg → Reg → BitVec 9 → Instr} {row : Row} {opcode : BitVec 11}
    {run : Row → Reg → Reg → BitVec 9 → Text → State → Host.Outcome State Fault Refusal}
    (h : DataInstr mk row opcode run) (rt rn : Reg) (off9 : BitVec 9)
    (hopcode : opcodeField row = ⟨opcode.setWidth 32, 21, 31⟩ := by rfl) :
    assemble idtDefault (instrText (mk rt rn off9)) = .ok (encode (mk rt rn off9)) := by
  have hrow := h.row_eq rt rn off9
  have himm := parseImm_immText_bracket (natAbs_toInt_lt off9 (by decide))
  have hbase : Solid ('[' :: regText rn) := (solid_singleton (by decide) (by decide)).append (solid_regText rn)
  have hoff : Solid (immText off9.toInt ++ [']']) :=
    (solid_immText _).append (solid_singleton (by decide) (by decide))
  refine assemble_instrText (ops := [regText rt, '[' :: regText rn, immText off9.toInt ++ [']']])
    (fs := [regField 0 rt, regField 5 rn, immField 12 20 off9.toInt]) ?_ (by simp) ?_ ?_ (hrow ▸ hopcode) ?_
  · rw [instrText, hrow, h.encode_eq, encodeD, disassemble_D row h.format, textD_eq]
  · simp [(solid_regText _).operandText, hbase.operandText, hoff.operandText]
  · simp [operandFields, hrow, h.format, parseReg_regText, himm]
  · rw [h.encode_eq, putFields_data]

/-- A branch. -/
theorem BranchInstr.assembles {mk : BitVec 26 → Instr} {row : Row} {opcode : BitVec 6} (h : BranchInstr mk row opcode)
    (off26 : BitVec 26) (hopcode : opcodeField row = ⟨opcode.setWidth 32, 26, 31⟩ := by rfl) :
    assemble idtDefault (instrText (mk off26)) = .ok (encode (mk off26)) := by
  have hrow := h.row_eq off26
  have himm := parseImm_immText (natAbs_toInt_lt off26 (by decide))
  refine assemble_instrText (ops := [immText off26.toInt]) (fs := [immField 0 25 off26.toInt]) ?_ (by simp) ?_ ?_
    (hrow ▸ hopcode) ?_
  · rw [instrText, hrow, h.encode_eq, encodeB, disassemble_B row h.format, textB_eq]
  · simp [(solid_immText _).operandText]
  · simp [operandFields, hrow, h.format, himm]
  · rw [h.encode_eq, putFields_branch]

/-- MOVZ, whose text names its shift group only when that is not 0. -/
theorem assemble_movz (rd : Reg) (imm16 : BitVec 16) (hw : BitVec 2) :
    assemble idtDefault (instrText (.movz rd imm16 hw)) = .ok (encode (.movz rd imm16 hw)) := by
  have htext : instrText (.movz rd imm16 hw) = textIM DefaultRow.movz.mnemonic rd imm16 hw :=
    disassemble_IM DefaultRow.movz rfl 0x1A5 hw imm16 rd
  have hformat : (Instr.movz rd imm16 hw).row.format = .im := rfl
  have himm := parseImm_immText (natAbs_toNat_lt imm16 (by decide))
  by_cases hhw : hw = 0
  case pos =>
    subst hhw
    refine assemble_instrText (ops := [regText rd, immText imm16.toNat])
      (fs := [regField 0 rd, immField 5 20 imm16.toNat]) (htext.trans (textIM_eq _ _ _)) (by simp) ?_ ?_ rfl
      (putFields_move 0x1A5 rd imm16)
    · simp [(solid_regText _).operandText, (solid_immText _).operandText]
    · simp only [operandFields, hformat, parseReg_regText, himm]
  case neg =>
    refine assemble_instrText
      (ops := [regText rd, immText imm16.toNat, "LSL ".toList ++ immText (16 * hw.toNat : Nat)])
      (fs := [regField 0 rd, immField 5 20 imm16.toNat, immField 21 22 hw.toNat])
      (htext.trans (textIM_eq_shifted _ _ _ hhw)) (by simp) ?_ ?_ rfl (putFields_moveShifted 0x1A5 rd imm16 hw)
    · rw [List.forall_mem_cons, List.forall_mem_cons, List.forall_mem_singleton]
      exact ⟨(solid_regText _).operandText, (solid_immText _).operandText, operandText_suffix _⟩
    · simp only [operandFields, hformat, parseReg_regText, himm, parseShiftGroup_suffix]

/-- The canonical text of every instruction assembles, by its format's rule. -/
theorem assemble_canonical (i : Instr) : assemble idtDefault (instrText i) = .ok (encode i) := by
  cases i with
  | add rd rn rm => exact RegisterInstr.add.assembles rd rn rm
  | sub rd rn rm => exact RegisterInstr.sub.assembles rd rn rm
  | adds rd rn rm => exact RegisterInstr.adds.assembles rd rn rm
  | subs rd rn rm => exact RegisterInstr.subs.assembles rd rn rm
  | and rd rn rm => exact RegisterInstr.and.assembles rd rn rm
  | orr rd rn rm => exact RegisterInstr.orr.assembles rd rn rm
  | eor rd rn rm => exact RegisterInstr.eor.assembles rd rn rm
  | ands rd rn rm => exact RegisterInstr.ands.assembles rd rn rm
  | mul rd rn rm => exact RegisterInstr.mul.assembles rd rn rm
  | smulh rd rn rm => exact RegisterInstr.smulh.assembles rd rn rm
  | umulh rd rn rm => exact RegisterInstr.umulh.assembles rd rn rm
  | sdiv rd rn rm => exact RegisterInstr.sdiv.assembles rd rn rm
  | udiv rd rn rm => exact RegisterInstr.udiv.assembles rd rn rm
  | lsl rd rn shamt => exact ShiftInstr.lsl.assembles rd rn shamt
  | lsr rd rn shamt => exact ShiftInstr.lsr.assembles rd rn shamt
  | asr rd rn shamt => exact ShiftInstr.asr.assembles rd rn shamt
  | addi rd rn imm12 => exact ImmediateInstr.addi.assembles rd rn imm12
  | subi rd rn imm12 => exact ImmediateInstr.subi.assembles rd rn imm12
  | addis rd rn imm12 => exact ImmediateInstr.addis.assembles rd rn imm12
  | subis rd rn imm12 => exact ImmediateInstr.subis.assembles rd rn imm12
  | andi rd rn imm12 => exact ImmediateInstr.andi.assembles rd rn imm12
  | orri rd rn imm12 => exact ImmediateInstr.orri.assembles rd rn imm12
  | eori rd rn imm12 => exact ImmediateInstr.eori.assembles rd rn imm12
  | andis rd rn imm12 => exact ImmediateInstr.andis.assembles rd rn imm12
  | ldur rt rn off9 => exact DataInstr.ldur.assembles rt rn off9
  | stur rt rn off9 => exact DataInstr.stur.assembles rt rn off9
  | b off26 => exact BranchInstr.b.assembles off26
  | bEq off26 => exact BranchInstr.bEq.assembles off26
  | bNe off26 => exact BranchInstr.bNe.assembles off26
  | bGe off26 => exact BranchInstr.bGe.assembles off26
  | bLt off26 => exact BranchInstr.bLt.assembles off26
  | bGt off26 => exact BranchInstr.bGt.assembles off26
  | bLe off26 => exact BranchInstr.bLe.assembles off26
  | movz rd imm16 hw => exact assemble_movz rd imm16 hw

/-- Settles O10: the text assembles to the encoding, which decodes by O6. -/
theorem canonicalTextAssembles : Obligations.CanonicalTextAssembles :=
  fun i => ⟨assemble_canonical i, decode_encode i⟩

end Sys2Proof.Machine
